-- ==== Sys2Proof/Word.lean ====
section
/-! DEFINITION. The words of LCDENC: the byte (R8) and the level of an output line (R10). -/

namespace Sys2Proof

/-- R8: "A *byte* is 8 bits, written `b[7:0]`; bit 7 is the most significant". -/
abbrev Byte := BitVec 8

/-- R10: the level of a line is one of 0 (`false`) and 1 (`true`). -/
abbrev Level := Bool

end Sys2Proof
end

