-- ==== Sys2Proof/Config.lean ====
section
/-! DEFINITION. What an implementation fixes: the fixed sizes, maxima and masks of R7, the parameter record that
`create` is given (R7, R27), and the values the spec leaves wholly open, as constants without a body. -/

namespace Sys2Proof

/-! ## Fixed by the source (R7) -/

/-- R7 `COLS`. -/
@[simp] abbrev Config.cols : Nat := 84
/-- R7 `ROWS`: pixel rows, eight to a bank (R51). -/
@[simp] abbrev Config.rows : Nat := 48
/-- R7 `BANKS`. -/
@[simp] abbrev Config.banks : Nat := 6
/-- R7 `DDRAM_BYTES`. -/
@[simp] abbrev Config.ddramBytes : Nat := 504
/-- R7 `VOP_MAX`. -/
@[simp] abbrev Config.vopMax : Nat := 127
/-- R7 `BIAS_MAX`. -/
@[simp] abbrev Config.biasMax : Nat := 7
/-- R7 `TC_MAX`. -/
@[simp] abbrev Config.tcMax : Nat := 3
/-- R7 `COL_MASK`. -/
@[simp] abbrev Config.colMask : Nat := 0x7F
/-- R7 `BANK_MASK`. -/
@[simp] abbrev Config.bankMask : Nat := 0x3F
/-- R76: the mask of `SET_TC`. -/
@[simp] abbrev Config.tcMask : Nat := 0x03
/-- R76: the mask of `SET_BIAS`. -/
@[simp] abbrev Config.biasMask : Nat := 0x07
/-- R76: the mask of `SET_VOP`. -/
@[simp] abbrev Config.vopMask : Nat := 0x7F
/-- R7 `FONT_FIRST`. -/
@[simp] abbrev Config.fontFirst : Nat := 32
/-- R7 `FONT_LAST`. -/
@[simp] abbrev Config.fontLast : Nat := 127
/-- R9: the largest code point. -/
@[simp] abbrev Config.codePointMax : Nat := 0x10FFFF
/-- R105: T_PULSE is strictly more than this many nanoseconds. -/
@[simp] abbrev Config.pulseAbove : Nat := 100
/-- R105: T_PULSE is strictly less than this many nanoseconds (100 ms). -/
@[simp] abbrev Config.pulseBelow : Nat := 100000000

/-! ## The opcode constants (R72, D25, D26) -/

/-- R7 and R72: the named constants `OPC_*` and the flag positions `BIT_*`. "A model should take the constants as a
configuration record, instantiate it with rule R72 for tests" (30_encoding.md). -/
structure Codes where
  functionSet    : Byte
  displayBlank   : Byte
  displayNormal  : Byte
  displayAllOn   : Byte
  displayInverse : Byte
  setBank        : Byte
  setColumn      : Byte
  setTc          : Byte
  setBias        : Byte
  setVop         : Byte
  nop            : Byte
  bitPd          : Nat
  bitV           : Nat
  bitH           : Nat
deriving DecidableEq, Repr

/-- R54: one glyph is a sequence of exactly 8 bytes. -/
abbrev Glyph := Vector Byte 8

/-- R7, R54: the font table, a total function from the glyph index 0..95 to 8 bytes, held as plain data. -/
abbrev FontTable := Vector Glyph 96

/-- R7 and R27: the parameters of `CFG`. Durations are in nanoseconds (log entry 6). -/
structure Params where
  codes             : Codes
  fillChunk         : Nat
  font              : FontTable
  tSetup            : Nat
  tPulse            : Nat
  tSettle           : Nat
  defaultPd         : Bool
  defaultV          : Bool
  defaultVop        : BitVec 7
  defaultBias       : BitVec 3
  defaultTc         : BitVec 2
  lvlCmd            : Level
  lvlData           : Level
  lvlCsAssert       : Level
  transportFallible : Bool
deriving DecidableEq, Repr

/-! ## Left wholly open by the spec: no body, so that no proof can see a value -/

/-- R7 `FONT`: "contents OPEN (out of scope)" (log entry 5). -/
opaque Config.font : FontTable

/-- R7 `T_SETUP`: "no figure", any value (log entry 6). -/
opaque Config.tSetup : Nat

/-- R202, U5: the byte at a location of the display memory in one of its draws, an "arbitrary unknown value (a fresh
draw)" (log entry 7). The arguments are the number of the draw and the linear index. -/
opaque Config.ddramByte : Nat → Nat → Byte

/-- R106: what the transport answers to a transfer, when it is fallible and no answer is listed in the state
(log entry 8). The argument is the number of frames sent before it. -/
opaque Config.transportAnswer : Nat → Bool

end Sys2Proof
end

