-- ==== Sys2Proof/Machine/Constants.lean ====
section
/-! DEFINITION. The reference instantiation of the parameters (R72, R7) and the well-formedness of a parameter record
(R160, R71, R73, D25, D26). -/

namespace Sys2Proof

/-- R72: the reference values of the opcode constants. PRESUMED (log entry 4): the spec marks the numerals
"[from general knowledge, not in source]". -/
def Codes.reference : Codes where
  functionSet    := 0x20#8
  displayBlank   := 0x08#8
  displayNormal  := 0x0C#8
  displayAllOn   := 0x09#8
  displayInverse := 0x0D#8
  setBank        := 0x40#8
  setColumn      := 0x80#8
  setTc          := 0x04#8
  setBias        := 0x10#8
  setVop         := 0x80#8
  nop            := 0x00#8
  bitPd          := 2
  bitV           := 1
  bitH           := 0

/-- R71: `OPC | (param & MASK)`, the form of every wire instruction byte but the function set. -/
def instrByte (opc : Byte) (param mask : Nat) : Byte :=
  opc ||| BitVec.ofNat 8 (param &&& mask)

/-- R73: `flag << BIT`. -/
def flagBit (flag : Bool) (pos : Nat) : Byte :=
  (if flag then 1#8 else 0#8) <<< pos

/-- R73: the three flag positions of the function-set byte, as a mask. -/
def Codes.flagMask (c : Codes) : Byte :=
  flagBit true c.bitPd ||| flagBit true c.bitV ||| flagBit true c.bitH

/-- R73: `fsbyte(pd, v, h) = OPC_FUNCTION_SET | (pd << BIT_PD) | (v << BIT_V) | (h << BIT_H)`. -/
def fsbyte (c : Codes) (pd v h : Bool) : Byte :=
  c.functionSet ||| flagBit pd c.bitPd ||| flagBit v c.bitV ||| flagBit h c.bitH

/-- One row of an instruction table: the byte `b` spells the row when `b & mask = pat`. -/
structure Row where
  mask : Byte
  pat  : Byte
deriving DecidableEq, Repr

/-- Some byte spells both rows. -/
def Row.overlaps (a b : Row) : Bool :=
  ((a.pat ^^^ b.pat) &&& (a.mask &&& b.mask)) == 0#8

/-- R71: the instructions of the basic set, with the masks of the opcode table. -/
def Codes.basicRows (c : Codes) : List Row :=
  [⟨0xFF#8, c.nop⟩, ⟨~~~c.flagMask, c.functionSet⟩, ⟨0xFF#8, c.displayBlank⟩, ⟨0xFF#8, c.displayNormal⟩,
   ⟨0xFF#8, c.displayAllOn⟩, ⟨0xFF#8, c.displayInverse⟩, ⟨0xC0#8, c.setBank⟩, ⟨0x80#8, c.setColumn⟩]

/-- R71: the instructions of the extended set. -/
def Codes.extendedRows (c : Codes) : List Row :=
  [⟨0xFF#8, c.nop⟩, ⟨~~~c.flagMask, c.functionSet⟩, ⟨0xFC#8, c.setTc⟩, ⟨0xF8#8, c.setBias⟩, ⟨0x80#8, c.setVop⟩]

/-- No two rows of the list overlap. -/
def Row.disjoint : List Row → Bool
  | [] => true
  | r :: rs => rs.all (fun r' => !r.overlaps r') && Row.disjoint rs

/-- D25, D26, R71, R73: zeros under each parameter mask, three distinct flag positions inside the byte with zeros of
`OPC_FUNCTION_SET` there, and within each instruction set no byte that spells two instructions. -/
def Codes.wf (c : Codes) : Bool :=
  (c.setBank &&& 0x3F#8 == 0#8) && (c.setColumn &&& 0x7F#8 == 0#8) && (c.setTc &&& 0x03#8 == 0#8)
    && (c.setBias &&& 0x07#8 == 0#8) && (c.setVop &&& 0x7F#8 == 0#8)
    && decide (c.bitPd < 8) && decide (c.bitV < 8) && decide (c.bitH < 8)
    && c.bitPd != c.bitV && c.bitPd != c.bitH && c.bitV != c.bitH
    && (c.functionSet &&& c.flagMask == 0#8)
    && Row.disjoint c.basicRows && Row.disjoint c.extendedRows

/-- R105, R160: `100 ns < T_PULSE < 100 ms`. -/
def Params.pulseWf (p : Params) : Bool :=
  decide (Config.pulseAbove < p.tPulse) && decide (p.tPulse < Config.pulseBelow)

/-- R160: "The parameter record must be well formed for the model to be defined". The ranges of the defaults and the
shape of the font table hold by their types. -/
def Params.wf (p : Params) : Bool :=
  p.codes.wf && decide (1 ≤ p.fillChunk) && decide (p.fillChunk ≤ Config.ddramBytes)
    && p.lvlCmd != p.lvlData && p.pulseWf

/-- R7: the reference values; the two parameters without one are the free values of Config (log entries 5, 6). -/
def Params.reference : Params where
  codes             := Codes.reference
  fillChunk         := 8
  font              := Config.font
  tSetup            := Config.tSetup
  tPulse            := 500000
  tSettle           := 100000
  defaultPd         := true
  defaultV          := false
  defaultVop        := 0x3F#7
  defaultBias       := 4#3
  defaultTc         := 2#2
  lvlCmd            := false
  lvlData           := true
  lvlCsAssert       := false
  transportFallible := false

end Sys2Proof
end

