-- ==== Sys2Proof/Machine/Memory.lean ====
section
/-! DEFINITION. The display memory (R50 to R52): a list of (linear index, byte) pairs in one canonical form, the indexes
0 to 503 in order, so that equal memories are equal lists. An index that is not listed is no location and reads as
`none`. What nothing has stored to since the last draw is a free value (R200, R202, U5; log entry 7). -/

namespace Sys2Proof.Machine

/-- R52: `idx(column, bank) = bank × 84 + column`. -/
def ddramIndex (x : Fin 84) (y : Fin 6) : Nat :=
  y.val * Config.cols + x.val

/-- R51, R52: the linear index of every location, in rising order. -/
@[irreducible] def Memory.locations : List Nat := List.range Config.ddramBytes

/-- R202: "every DDRAM byte becomes an arbitrary unknown value (a fresh draw)". -/
@[irreducible] def Memory.fresh (draw : Nat) : List Host.Cell :=
  Memory.locations.map fun a => (a, Config.ddramByte draw a)

/-- The byte at an index, `none` where there is no such location. -/
def Memory.read : List Host.Cell → Nat → Option Byte
  | [], _ => none
  | (k, w) :: m, a => if k = a then some w else Memory.read m a

/-- R11 `MemWrite`: one byte stored, the list kept in its canonical form. -/
def Memory.write : List Host.Cell → Nat → Byte → List Host.Cell
  | [], a, v => [(a, v)]
  | (k, w) :: m, a, v =>
    if a < k then (a, v) :: (k, w) :: m
    else if a = k then (a, v) :: m
    else (k, w) :: Memory.write m a v

/-- The canonical form: every DDRAM location (R51) is listed, in rising order, and nothing else. -/
abbrev Memory.wf (m : List Host.Cell) : Prop :=
  m.map Prod.fst = Memory.locations

end Sys2Proof.Machine
end

