-- ==== Sys2Proof/Machine/Types.lean ====
section
/-! DEFINITION. The pieces the state is made of: the block's registers (R21, R25), its line latches (R28) and
configuration (R27), the receiver (R200), and the events, frames and results it puts out (R10, R12). -/

namespace Sys2Proof.Machine

/-- R21: the function-register mirror, three flags of one bit each. -/
structure FunctionState where
  pd : Bool
  v  : Bool
  h  : Bool
deriving DecidableEq, Repr

/-- R25: contrast (operating voltage), bias and temperature coefficient, each of the width that holds its range. -/
structure DisplayConfig where
  vop  : BitVec 7
  bias : BitVec 3
  tc   : BitVec 2
deriving DecidableEq, Repr

/-- R28: the level last driven on each output line; `none` is "no value". -/
structure Lines where
  dc  : Option Level
  cs  : Option Level
  rst : Option Level
deriving DecidableEq, Repr

/-- R27: the construction configuration. -/
structure Cfg where
  hasCs  : Bool
  hasRst : Bool
  par    : Params
deriving DecidableEq, Repr

/-- R10: the three output lines. -/
inductive Line where
  | dc
  | cs
  | rst
deriving DecidableEq, Repr

/-- R10: the events of the trace. `delivered` is the transport's answer (R106); a duration is in nanoseconds. -/
inductive Event where
  | pin (line : Line) (level : Level)
  | xfer (bytes : List Byte) (delivered : Bool)
  | wait (duration : Nat)
deriving DecidableEq, Repr

/-- R10: the frames that abbreviate the event groups. -/
inductive Frame where
  | cmd (b : Byte)
  | data (bytes : List Byte)
  | resetPulse
deriving DecidableEq, Repr

/-- A frame as it was sent, with the transport's answer to its transfer (R106). -/
structure Sent where
  frame     : Frame
  delivered : Bool
deriving DecidableEq, Repr

/-- R232: the operand an `OutOfRange` names. -/
inductive Operand where
  | contrast
  | bias
  | temperatureCoefficient
deriving DecidableEq, Repr

/-- R12, R230: how an operation ends. `OutOfRange` carries the offending operand and its value (R232). -/
inductive OpResult where
  | ok
  | configurationError
  | outOfRange (which : Operand) (value : Nat)
  | transportError
deriving DecidableEq, Repr

/-- R230: the result codes the spec assigns for a realisation that needs them. -/
def OpResult.code : OpResult → Nat
  | .ok => 0
  | .configurationError => 1
  | .outOfRange _ _ => 2
  | .transportError => 3

/-- R200: the display mode of the receiver. -/
inductive DisplayMode where
  | blank
  | normal
  | allOn
  | inverse
deriving DecidableEq, Repr

/-- R200: the fields of the receiver while its status is `Defined`. The DDRAM is a list of (linear index, byte) pairs
in canonical form (R52, Machine/Memory.lean). `draws` is the model's own: how many times the display memory has been
drawn, so that each draw is a fresh one (R202; log entry 7). -/
structure Ctl where
  pd    : Bool
  v     : Bool
  h     : Bool
  de    : DisplayMode
  x     : Fin 84
  y     : Fin 6
  tc    : BitVec 2
  bs    : BitVec 3
  vop   : BitVec 7
  ddram : List Host.Cell
  draws : Nat
deriving DecidableEq, Repr

/-- R200, R209: the receiver with its status. "In `Unpredictable` the model says nothing about any receiver field", so
that case has none; the count of draws goes on. -/
inductive Receiver where
  | defined (c : Ctl)
  | unpredictable (draws : Nat)
deriving DecidableEq, Repr

/-- The number of draws of the display memory so far (log entry 7). -/
def Receiver.draws : Receiver → Nat
  | .defined c => c.draws
  | .unpredictable n => n

/-- R202: the receiver after a reset pulse that makes this draw. Only `PD = 1` is the source's; the other values are the
spec's G7. Every DDRAM byte is a fresh free value. -/
def Ctl.afterReset (draw : Nat) : Ctl where
  pd    := true
  v     := false
  h     := false
  de    := .blank
  x     := 0
  y     := 0
  tc    := 0#2
  bs    := 0#3
  vop   := 0#7
  ddram := Memory.fresh draw
  draws := draw + 1

end Sys2Proof.Machine
end

