-- ==== Sys2Proof/Syntax.lean ====
section
/-! DEFINITION. The instructions: one constructor for each row of spec/opcode_table.json. The twelve rows of the wire
level (R71, R118, R119) begin with `wire`; the seventeen operations of R81 bear the operation's name (`initialize`
is spelled `initialise`: the other spelling is a command word of Lean). -/

namespace Sys2Proof

/-- R163: the two values of `initialize`'s first operand (D31). -/
inductive AddressingMode where
  | horizontal
  | vertical
deriving DecidableEq, Repr

/-- R70, R71 and R81. Operands of operations are typed values (R81); fields of wire instructions have the widths of
the opcode table. -/
inductive Instr where
  /-- R107 `FUNCTION_SET`. -/
  | wireFunctionSet (pd v h : Bool)
  /-- R111 `DISPLAY_BLANK`. -/
  | wireDisplayBlank
  /-- R112 `DISPLAY_ALL_ON`. -/
  | wireDisplayAllOn
  /-- R109 `DISPLAY_NORMAL`. -/
  | wireDisplayNormal
  /-- R110 `DISPLAY_INVERSE`. -/
  | wireDisplayInverse
  /-- R114 `SET_BANK`. -/
  | wireSetBank (bank : BitVec 6)
  /-- R113 `SET_COLUMN`. -/
  | wireSetColumn (column : BitVec 7)
  /-- R115 `SET_TC`. -/
  | wireSetTc (tc : BitVec 2)
  /-- R116 `SET_BIAS`. -/
  | wireSetBias (bias : BitVec 3)
  /-- R117 `SET_VOP`. -/
  | wireSetVop (vop : BitVec 7)
  /-- R119 `NOP`. -/
  | wireNop
  /-- R118 the data byte. -/
  | wireDataByte (d : Byte)
  /-- R160. -/
  | create (hasBus hasDc hasCs hasRst : Bool)
  /-- R131. -/
  | setAddressingMode (vertical : Bool)
  /-- R132. -/
  | setContrast (vop : Nat)
  /-- R133. -/
  | setBias (bias : Nat)
  /-- R134. -/
  | setTemperatureCoefficient (tc : Nat)
  /-- R135. -/
  | setCursor (column bank : Nat)
  /-- R136. -/
  | setPower (on : Bool)
  /-- R137. -/
  | setInverted (on : Bool)
  /-- R138. -/
  | setBlanked (on : Bool)
  /-- R139. -/
  | setTestPattern (on : Bool)
  /-- R140. -/
  | rawCommand (byte : Byte)
  /-- R141. -/
  | rawData (bytes : List Byte)
  /-- R163 `initialize`. -/
  | initialise (mode : AddressingMode) (contrast bias tc : Option Nat)
  /-- R170. -/
  | reset
  /-- R180. -/
  | fill (on : Bool)
  /-- R183. -/
  | drawText (text : List Nat)
  /-- R186. -/
  | writeData (bytes : List Byte)
deriving DecidableEq, Repr

/-- What can be handed to the machine: an operation request of the owner (R81: the select code and the operand bytes,
log entry 2), or one wire-level frame, told apart from a data byte by the level of the DC line alone (R70, R104;
log entry 3). -/
inductive Request where
  | operation (bytes : List Byte)
  | command (b : Byte)
  | data (b : Byte)
deriving DecidableEq, Repr

end Sys2Proof
end

