-- ==== Sys2Proof/Machine/State.lean ====
section
/-! DEFINITION. The state of the machine: LCDENC (R20, R27, R28), the receiver its trace drives (R200), the inputs the
outside hands it and the outputs it has produced (R10, R12, R13). Plain data throughout. -/

namespace Sys2Proof.Machine

/-- The whole machine. -/
structure State where
  /-- R160, R231: whether a block exists. -/
  created  : Bool
  /-- R21. -/
  fs       : FunctionState
  /-- R25. -/
  dcfg     : DisplayConfig
  /-- R28. -/
  lines    : Lines
  /-- R27. -/
  cfg      : Cfg
  /-- R200. -/
  rx       : Receiver
  /-- R160: the parameter record the platform hands to the next `create` (input). -/
  offered  : Params
  /-- R12, R81: the requests handed to the machine and not yet taken, oldest first (input; log entries 2, 3). -/
  requests : List Request
  /-- R106: the transport's answers to the next transfers, read only when it is fallible (input; log entry 8). -/
  answers  : List Bool
  /-- R10, R13: the frame trace of all operations so far, oldest first (output; log entry 9). -/
  frames   : List Sent
  /-- R10, R13: the pin trace of all operations so far, oldest first (output; log entry 9). -/
  events   : List Event
  /-- R12: the result handed back by the last operation, if any (output; no rule reads it, R29). -/
  result   : Option OpResult
deriving DecidableEq, Repr

/-- Why the machine stops. -/
inductive Fault where
  /-- Raised by every instruction but `create` when no block exists. R160: "after a failed `create` there is no state and
  no operation can be issued". Safe: the machine stops where the spec has no run. -/
  | noBlock
deriving DecidableEq, Repr

/-- Why the model gives no meaning. -/
inductive Refusal where
  /-- Raised by `exec`'s arm of an instruction that has no meaning yet. Safe: the machine stops. -/
  | notModelled (mnemonic : String)
  /-- Raised by `create` when the offered parameter record is not well formed. R160: "An ill-formed record is refused by
  the model". Safe: the machine stops. -/
  | illFormedParameters
deriving DecidableEq, Repr

/-- R34, R260: the machine right after `create(true, true, true, true)` with the reference parameters has returned, and
nothing handed to it yet. The values the spec leaves open are named in log entries 1, 4, 5, 6, 7 and 10. -/
def State.reset : State where
  created  := true
  fs       := ⟨Params.reference.defaultPd, Params.reference.defaultV, false⟩
  dcfg     := ⟨Params.reference.defaultVop, Params.reference.defaultBias, Params.reference.defaultTc⟩
  lines    := ⟨none, none, none⟩
  cfg      := ⟨true, true, Params.reference⟩
  rx       := .defined (Ctl.afterReset 0)
  offered  := Params.reference
  requests := []
  answers  := []
  frames   := []
  events   := []
  result   := none

end Sys2Proof.Machine
end

