-- ==== Sys2Proof/Machine/Flags.lean ====
section
/-! DEFINITION. The flags: the only ones are `FS.PD`, `FS.V` and `FS.H` (R31). Their writes, and the byte that carries
all three (R107). -/

namespace Sys2Proof.Machine

/-- R136: `FS.PD <- b`. -/
def State.setPd (b : Bool) (s : State) : State := { s with fs := { s.fs with pd := b } }

/-- R131: `FS.V <- b`. -/
def State.setV (b : Bool) (s : State) : State := { s with fs := { s.fs with v := b } }

/-- R108: `FS.H <- b`. -/
def State.setH (b : Bool) (s : State) : State := { s with fs := { s.fs with h := b } }

/-- R107: the function-set byte built from the mirror, all three flags of it. -/
def State.functionByte (s : State) : Byte :=
  fsbyte s.cfg.par.codes s.fs.pd s.fs.v s.fs.h

end Sys2Proof.Machine
end

