-- ==== Sys2Proof/Machine/Operands.lean ====
section
/-! DEFINITION. The operand policies of R77 (validate, wrap), the bytes of the wire instructions (R74 to R76), and the
selection of a glyph (R184). -/

namespace Sys2Proof.Machine

/-! ## Validate (R77, R232): out of range is an error, never clamped -/

/-- R132: `if vop > 127: raise OutOfRange(contrast, vop)`. -/
def checkVop (n : Nat) : Except OpResult (BitVec 7) :=
  if n > Config.vopMax then .error (.outOfRange .contrast n) else .ok (BitVec.ofNat 7 n)

/-- R133: `if bias > 7: raise OutOfRange(bias, bias)`. -/
def checkBias (n : Nat) : Except OpResult (BitVec 3) :=
  if n > Config.biasMax then .error (.outOfRange .bias n) else .ok (BitVec.ofNat 3 n)

/-- R134: `if tc > 3: raise OutOfRange(temperatureCoefficient, tc)`. -/
def checkTc (n : Nat) : Except OpResult (BitVec 2) :=
  if n > Config.tcMax then .error (.outOfRange .temperatureCoefficient n) else .ok (BitVec.ofNat 2 n)

/-- R162: "An absent optional operand is not checked and leaves its `DCFG` field as it is." -/
def checkOptional {w : Nat} (check : Nat → Except OpResult (BitVec w)) (o : Option Nat) (old : BitVec w) :
    Except OpResult (BitVec w) :=
  match o with
  | none => .ok old
  | some n => check n

/-- R162: the overrides of `initialize`, all checked in the order contrast, bias, temperature coefficient before any is
stored. -/
def checkConfig (contrast bias tc : Option Nat) (old : DisplayConfig) : Except OpResult DisplayConfig :=
  match checkOptional checkVop contrast old.vop with
  | .error e => .error e
  | .ok v =>
    match checkOptional checkBias bias old.bias with
    | .error e => .error e
    | .ok b =>
      match checkOptional checkTc tc old.tc with
      | .error e => .error e
      | .ok t => .ok ⟨v, b, t⟩

/-! ## Wrap and encode (R75, R76, R77) -/

/-- R75: `SET_COLUMN: byte = OPC_SET_COLUMN | (column & 0x7F)`. -/
def columnByte (c : Codes) (column : Nat) : Byte := instrByte c.setColumn column Config.colMask

/-- R75: `SET_BANK: byte = OPC_SET_BANK | (bank & 0x3F)`. -/
def bankByte (c : Codes) (bank : Nat) : Byte := instrByte c.setBank bank Config.bankMask

/-- R76: `SET_TC: byte = OPC_SET_TC | (tc & 0x03)`. -/
def tcByte (c : Codes) (tc : BitVec 2) : Byte := instrByte c.setTc tc.toNat Config.tcMask

/-- R76: `SET_BIAS: byte = OPC_SET_BIAS | (bias & 0x07)`. -/
def biasByte (c : Codes) (bias : BitVec 3) : Byte := instrByte c.setBias bias.toNat Config.biasMask

/-- R76: `SET_VOP: byte = OPC_SET_VOP | (vop & 0x7F)`. -/
def vopByte (c : Codes) (vop : BitVec 7) : Byte := instrByte c.setVop vop.toNat Config.vopMask

/-! ## Text (R184) -/

/-- R183: `cp <- (c if 32 <= c and c <= 127 else 127)`. -/
def printable (c : Nat) : Nat :=
  if Config.fontFirst ≤ c ∧ c ≤ Config.fontLast then c else Config.fontLast

/-- `printable` answers a code point of the font table. -/
theorem printable_bounds (c : Nat) : 32 ≤ printable c ∧ printable c ≤ 127 := by
  unfold printable; split <;> simp_all

/-- R183: `g <- cp - 32`, in 0..95. -/
def glyphIndex (c : Nat) : Fin 96 :=
  ⟨printable c - 32, by have := printable_bounds c; omega⟩

/-- R54: `MemRead(FONT, g, 8)`. -/
def fontGlyph (p : Params) (g : Fin 96) : List Byte := (p.font.get g).toList

/-! ## Chunks of `fill` (R181) -/

/-- R180: the sizes of the data frames: `min(FILL_CHUNK, remaining)` while any byte remains. The fuel is `remaining`
itself; each chunk takes at least one byte off it. -/
def chunkSizes (chunk : Nat) : Nat → Nat → List Nat
  | 0, _ => []
  | fuel + 1, remaining =>
    if remaining = 0 then []
    else min chunk remaining :: chunkSizes chunk fuel (remaining - min chunk remaining)

/-- R180: the byte `fill` streams. -/
def fillByte (on : Bool) : Byte := if on then 0xFF#8 else 0x00#8

end Sys2Proof.Machine
end

