-- ==== Sys2Proof/Machine/Receiver.lean ====
section
/-! DEFINITION. The receiver (44_receiver_mode_machine.md): how it decodes a command byte, what each instruction does to
it, and where a data byte goes. -/

namespace Sys2Proof.Machine

/-- R203: what a command byte spells. -/
inductive CtlInstr where
  | nop
  | functionSet (pd v h : Bool)
  | display (mode : DisplayMode)
  | setBank (y : BitVec 3)
  | setColumn (x : BitVec 7)
  | setVop (v : BitVec 7)
  | setTc (t : BitVec 2)
  | setBias (b : BitVec 3)
  | undefined
deriving DecidableEq, Repr

/-- R203, R204: the function-set row, recognised in both sets. -/
def isFunctionSet (c : Codes) (b : Byte) : Bool := b &&& ~~~c.flagMask == c.functionSet

/-- R203, the column `h = 0`. The bank row has three address bits there, not the six LCDENC may send (C6). -/
def classifyBasic (c : Codes) (b : Byte) : CtlInstr :=
  if b == c.displayBlank then .display .blank
  else if b == c.displayAllOn then .display .allOn
  else if b == c.displayNormal then .display .normal
  else if b == c.displayInverse then .display .inverse
  else if b &&& 0xF8#8 == c.setBank then .setBank (b.setWidth 3)
  else if b &&& 0x80#8 == c.setColumn then .setColumn (b.setWidth 7)
  else .undefined

/-- R203, the column `h = 1`. -/
def classifyExtended (c : Codes) (b : Byte) : CtlInstr :=
  if b &&& 0x80#8 == c.setVop then .setVop (b.setWidth 7)
  else if b &&& 0xFC#8 == c.setTc then .setTc (b.setWidth 2)
  else if b &&& 0xF8#8 == c.setBias then .setBias (b.setWidth 3)
  else .undefined

/-- R203: `classify(b, h)`, the rows in terms of the named constants (log entry 4), tried top to bottom. -/
def classify (c : Codes) (h : Bool) (b : Byte) : CtlInstr :=
  if b == c.nop then .nop
  else if isFunctionSet c b then .functionSet (b.getLsbD c.bitPd) (b.getLsbD c.bitV) (b.getLsbD c.bitH)
  else if h then classifyExtended c b
  else classifyBasic c b

/-- R206: `SET_COLUMN(x)`. -/
def Ctl.setColumn (x : BitVec 7) (c : Ctl) : Receiver :=
  if h : x.toNat < 84 then .defined { c with x := ⟨x.toNat, h⟩ } else .unpredictable c.draws

/-- R206: `SET_BANK(y)`. -/
def Ctl.setBank (y : BitVec 3) (c : Ctl) : Receiver :=
  if h : y.toNat < 6 then .defined { c with y := ⟨y.toNat, h⟩ } else .unpredictable c.draws

/-- R204 to R209: the effect of one decoded command. -/
def Ctl.execute (i : CtlInstr) (c : Ctl) : Receiver :=
  match i with
  | .nop => .defined c
  | .functionSet pd v h => .defined { c with pd := pd, v := v, h := h }
  | .display mode => .defined { c with de := mode }
  | .setBank y => c.setBank y
  | .setColumn x => c.setColumn x
  | .setVop v => .defined { c with vop := v }
  | .setTc t => .defined { c with tc := t }
  | .setBias b => .defined { c with bs := b }
  | .undefined => .unpredictable c.draws

/-- R211: the column after this one, and 0 after the last. -/
def nextColumn (x : Fin 84) : Fin 84 := if h : x.val < 83 then ⟨x.val + 1, by omega⟩ else 0

/-- R211: the bank after this one, and 0 after the last. -/
def nextBank (y : Fin 6) : Fin 6 := if h : y.val < 5 then ⟨y.val + 1, by omega⟩ else 0

/-- R211, R212: where the cursor goes after one data byte: along the bank when `v` is 0 (horizontal), down the column
when it is 1 (vertical). -/
def advance (v : Bool) (p : Fin 84 × Fin 6) : Fin 84 × Fin 6 :=
  if v then (if p.2.val < 5 then p.1 else nextColumn p.1, nextBank p.2)
  else (nextColumn p.1, if p.1.val < 83 then p.2 else nextBank p.2)

/-- R200: the cursor, as (column, bank). -/
def Ctl.cursor (c : Ctl) : Fin 84 × Fin 6 := (c.x, c.y)

/-- R211: one data byte is stored at the cursor and the cursor advances. -/
def Ctl.store (c : Ctl) (d : Byte) : Ctl :=
  { c with ddram := Memory.write c.ddram (ddramIndex c.x c.y) d,
           x := (advance c.v c.cursor).1, y := (advance c.v c.cursor).2 }

/-- R202: a pulse of the stated width resets the receiver; one of another width "has no defined effect". -/
def Receiver.pulsed (p : Params) (rx : Receiver) : Receiver :=
  if p.pulseWf then .defined (Ctl.afterReset rx.draws) else .unpredictable rx.draws

/-- R201, R233: the receiver takes one frame. A transfer that failed leaves it unpredictable. -/
def Receiver.take (p : Params) (rx : Receiver) (f : Sent) : Receiver :=
  match f.frame with
  | .resetPulse => rx.pulsed p
  | .cmd b =>
    match rx with
    | .unpredictable n => .unpredictable n
    | .defined c => if f.delivered then c.execute (classify p.codes c.h b) else .unpredictable c.draws
  | .data bytes =>
    match rx with
    | .unpredictable n => .unpredictable n
    | .defined c => if f.delivered then .defined (bytes.foldl Ctl.store c) else .unpredictable c.draws

/-- R78: the instruction set the receiver will decode the next command byte by, if it is known. -/
def Receiver.latch : Receiver → Option Bool
  | .defined c => some c.h
  | .unpredictable _ => none

end Sys2Proof.Machine
end

