-- ==== Sys2Proof/Machine/Ops.lean ====
section
/-! DEFINITION. The shared operations: driving lines and sending frames (R100 to R106), the helpers `emitFS`, `enterExt`
and `exitExt` (R107, R108), the way an operation ends (R12) and the way it reports an error (R230 to R238). -/

namespace Sys2Proof.Machine

/-- What a step answers. -/
abbrev StepResult := Host.Outcome State Fault Refusal

/-- The state after some frames of an operation: `ok` while every transfer succeeded, `error` from the first one that
failed on (R233: "no further frame of the operation is emitted"). -/
abbrev Sending := Except State State

/-! ## Events -/

/-- R28: a `PIN` event is latched; the other events drive no line. -/
def Lines.drive (l : Lines) (e : Event) : Lines :=
  match e with
  | .pin .dc level => { l with dc := some level }
  | .pin .cs level => { l with cs := some level }
  | .pin .rst level => { l with rst := some level }
  | .xfer _ _ => l
  | .wait _ => l

/-- R27: the `PIN` event of the chip-select line, absent with the line. -/
def csPin (cfg : Cfg) (level : Level) : List Event :=
  if cfg.hasCs then [.pin .cs level] else []

/-- R101, R102: one transfer inside its chip-select bracket, the DC line driven first. A failed transfer still has its
closing CS event (R233). -/
def transferEvents (cfg : Cfg) (level : Level) (bytes : List Byte) (delivered : Bool) : List Event :=
  [.pin .dc level] ++ csPin cfg cfg.par.lvlCsAssert ++ [.xfer bytes delivered] ++ csPin cfg (!cfg.par.lvlCsAssert)

/-- R105: the reset pulse with a reset line. -/
def pulseEvents (p : Params) : List Event :=
  [.pin .rst true, .wait p.tSetup, .pin .rst false, .wait p.tPulse, .pin .rst true, .wait p.tSettle]

/-- R10: the pin trace of one frame. -/
def Sent.events (cfg : Cfg) (f : Sent) : List Event :=
  match f.frame with
  | .cmd b => transferEvents cfg cfg.par.lvlCmd [b] f.delivered
  | .data bytes => transferEvents cfg cfg.par.lvlData bytes f.delivered
  | .resetPulse => pulseEvents cfg.par

/-! ## Frames -/

/-- A frame has been sent: it joins the frame trace and its events the pin trace, its `PIN` events are latched, and the
receiver takes it (R201). -/
def State.record (f : Sent) (s : State) : State :=
  { s with frames := s.frames ++ [f],
           events := s.events ++ f.events s.cfg,
           lines := (f.events s.cfg).foldl Lines.drive s.lines,
           rx := s.rx.take s.cfg.par f }

/-- R106: the transport's answer to the next transfer. It is always success when the transport is infallible; otherwise
the next listed answer, and a free value when none is listed. -/
def State.answer (s : State) : Bool :=
  if s.cfg.par.transportFallible then
    match s.answers with
    | [] => Config.transportAnswer s.frames.length
    | a :: _ => a
  else true

/-- R106: the listed answer is used up. -/
def State.dropAnswer (s : State) : State :=
  if s.cfg.par.transportFallible then { s with answers := s.answers.tail } else s

/-- R101, R102, R106: a frame that holds a transfer. -/
def emitTransfer (f : Frame) (s : State) : Sending :=
  if s.answer then .ok (s.dropAnswer.record ⟨f, true⟩) else .error (s.dropAnswer.record ⟨f, false⟩)

/-- R101: `emit CMD(b)`. -/
def emitCmd (b : Byte) (s : State) : Sending := emitTransfer (.cmd b) s

/-- R102: `emit DATA(bytes)`; "`DATA([])` does not exist": zero bytes emit no events at all. -/
def emitData (bytes : List Byte) (s : State) : Sending :=
  match bytes with
  | [] => .ok s
  | b :: bs => emitTransfer (.data (b :: bs)) s

/-- R105: `emit RESET_PULSE`, empty without a reset line. It holds no transfer and cannot fail (R106). -/
def emitReset (s : State) : Sending :=
  if s.cfg.hasRst then .ok (s.record ⟨.resetPulse, true⟩) else .ok s

/-- Data frames one after the other, up to the first that fails. -/
def emitDatas : List (List Byte) → State → Sending
  | [], s => .ok s
  | d :: ds, s => (emitData d s).bind (emitDatas ds)

/-! ## The function-set helpers -/

/-- R107: `emitFS(): emit CMD(fsbyte(FS.PD, FS.V, FS.H))`. -/
def emitFS (s : State) : Sending := emitCmd s.functionByte s

/-- R108: `enterExt(): FS.H <- 1 ; emitFS()`. -/
def enterExt (s : State) : Sending := emitFS (s.setH true)

/-- R108: `exitExt(): FS.H <- 0 ; emitFS()`. -/
def exitExt (s : State) : Sending := emitFS (s.setH false)

/-- R115: `SET_TC` with the stored value. -/
def emitTc (s : State) : Sending := emitCmd (tcByte s.cfg.par.codes s.dcfg.tc) s

/-- R116: `SET_BIAS` with the stored value. -/
def emitBias (s : State) : Sending := emitCmd (biasByte s.cfg.par.codes s.dcfg.bias) s

/-- R117: `SET_VOP` with the stored value. -/
def emitVop (s : State) : Sending := emitCmd (vopByte s.cfg.par.codes s.dcfg.vop) s

/-- R113: `SET_COLUMN` with the operand wrapped. -/
def emitColumn (column : Nat) (s : State) : Sending := emitCmd (columnByte s.cfg.par.codes column) s

/-- R114: `SET_BANK` with the operand wrapped. -/
def emitBank (bank : Nat) (s : State) : Sending := emitCmd (bankByte s.cfg.par.codes bank) s

/-- R136, R163 step 6: `FS.PD <- b ; emitFS()`. -/
def emitPower (b : Bool) (s : State) : Sending := emitFS (s.setPd b)

/-! ## How an operation ends -/

/-- R12: the result handed back to the owner. -/
def State.setResult (r : OpResult) (s : State) : State := { s with result := some r }

/-- R237, "trap entry": "Nothing is saved and nothing is changed"; the owner gets the error as the result. -/
def raise (r : OpResult) (s : State) : StepResult := .next (s.setResult r)

/-- R233: the mirror after a failed transfer: `FS.H <- 0`, and what else `intended` completes. -/
def abandon (intended : State → State) (s : State) : StepResult :=
  raise .transportError ((intended s).setH false)

/-- R12: every operation ends with exactly one result. `intended` is what the mirror lacks of the operation's end when a
transfer fails. -/
def finish (intended : State → State) (r : Sending) : StepResult :=
  match r with
  | .ok s => .next (s.setResult .ok)
  | .error s => abandon intended s

/-- R160: no operation can be issued where no block exists. -/
def withBlock (s : State) (k : StepResult) : StepResult :=
  if s.created then k else .fault .noBlock

/-- One command frame as a whole operation. -/
def sendCmd (b : Byte) (s : State) : StepResult := withBlock s (finish id (emitCmd b s))

/-- One data frame as a whole operation, no event for an empty buffer (R141, R186). -/
def sendData (bytes : List Byte) (s : State) : StepResult := withBlock s (finish id (emitData bytes s))

/-- R132 to R134: the extended bracket around one configuration write. -/
def sendBracket (write : State → Sending) (s : State) : StepResult :=
  finish id (((enterExt s).bind write).bind exitExt)

/-! ## Requests -/

/-- R78: the instruction set a command byte is read by: the receiver's latch, and the mirror's flag where the receiver is
unpredictable (log entry 3). -/
def State.instructionSet (s : State) : Bool := s.rx.latch.getD s.fs.h

/-- The machine waits for the owner: nothing is pending and nothing happens (log entry 9). -/
def idle (s : State) : StepResult := .next s

/-- The oldest request is taken off. -/
def State.withRequests (rs : List Request) (s : State) : State := { s with requests := rs }

/-- R81: a request that names no operation is not accepted: "no state change, no trace". -/
def notAccepted (s : State) : StepResult := .next s

/-- R80: a command byte that no instruction spells is sent all the same; R209 says what the receiver does. -/
def sendUndefined (b : Byte) (s : State) : StepResult := sendCmd b s

end Sys2Proof.Machine
end

