-- ==== Sys2Proof/Machine/Encoder.lean ====
section
/-! DEFINITION. The Protocol Encoder operations (41_encoder_ops.md, R131 to R141). -/

namespace Sys2Proof.Machine

/-- R131 `setAddressingMode`: the mirror's flag alone; nothing is transmitted. -/
def execSetAddressingMode (vertical : Bool) (s : State) : StepResult :=
  withBlock s (.next ((s.setV vertical).setResult .ok))

/-- R132: `DCFG.VOP <- vop`. -/
def State.setVop (v : BitVec 7) (s : State) : State := { s with dcfg := { s.dcfg with vop := v } }

/-- R133: `DCFG.BIAS <- bias`. -/
def State.setBias (b : BitVec 3) (s : State) : State := { s with dcfg := { s.dcfg with bias := b } }

/-- R134: `DCFG.TC <- tc`. -/
def State.setTc (t : BitVec 2) (s : State) : State := { s with dcfg := { s.dcfg with tc := t } }

/-- R132 `setContrast`. -/
def execSetContrast (vop : Nat) (s : State) : StepResult :=
  withBlock s (match checkVop vop with
    | .error e => raise e s
    | .ok v => sendBracket emitVop (s.setVop v))

/-- R133 `setBias`. -/
def execSetBias (bias : Nat) (s : State) : StepResult :=
  withBlock s (match checkBias bias with
    | .error e => raise e s
    | .ok b => sendBracket emitBias (s.setBias b))

/-- R134 `setTemperatureCoefficient`. -/
def execSetTemperatureCoefficient (tc : Nat) (s : State) : StepResult :=
  withBlock s (match checkTc tc with
    | .error e => raise e s
    | .ok t => sendBracket emitTc (s.setTc t))

/-- R135 `setCursor`: the column, then the bank. -/
def execSetCursor (column bank : Nat) (s : State) : StepResult :=
  withBlock s (finish id ((emitColumn column s).bind (emitBank bank)))

/-- R136 `setPower`: `FS.PD <- (0 if on else 1)`, then the full function byte. -/
def execSetPower (on : Bool) (s : State) : StepResult :=
  withBlock s (finish id (emitPower (!on) s))

/-- R137 `setInverted`. -/
def execSetInverted (on : Bool) (s : State) : StepResult :=
  sendCmd (if on then s.cfg.par.codes.displayInverse else s.cfg.par.codes.displayNormal) s

/-- R138 `setBlanked`. -/
def execSetBlanked (on : Bool) (s : State) : StepResult :=
  sendCmd (if on then s.cfg.par.codes.displayBlank else s.cfg.par.codes.displayNormal) s

/-- R139 `setTestPattern`. -/
def execSetTestPattern (on : Bool) (s : State) : StepResult :=
  sendCmd (if on then s.cfg.par.codes.displayAllOn else s.cfg.par.codes.displayNormal) s

/-- R140 `rawCommand`: any byte, unchanged; the mirror is not written. -/
def execRawCommand (byte : Byte) (s : State) : StepResult := sendCmd byte s

/-- R141 `rawData`: the whole buffer in one frame. -/
def execRawData (bytes : List Byte) (s : State) : StepResult := sendData bytes s

end Sys2Proof.Machine
end

