-- ==== Sys2Proof/Machine/Sequencer.lean ====
section
/-! DEFINITION. The Initialization Sequencer (42_init_sequencer.md): `create`, `initialize` and `reset`. -/

namespace Sys2Proof.Machine

/-- R34, R160: the state a successful `create` leaves, of a block with the offered parameters. -/
def State.construct (hasCs hasRst : Bool) (s : State) : State :=
  { s with created := true,
           cfg := ⟨hasCs, hasRst, s.offered⟩,
           fs := ⟨s.offered.defaultPd, s.offered.defaultV, false⟩,
           dcfg := ⟨s.offered.defaultVop, s.offered.defaultBias, s.offered.defaultTc⟩,
           lines := ⟨none, none, none⟩ }

/-- R160, R231 `create`: without the bus or the data/command line no block exists and nothing is written (log entry 11). -/
def execCreate (hasBus hasDc hasCs hasRst : Bool) (s : State) : StepResult :=
  if !hasBus || !hasDc then raise .configurationError { s with created := false }
  else if s.offered.wf then .next ((s.construct hasCs hasRst).setResult .ok)
  else .refused .illFormedParameters

/-- R163 step 1: `FS.V <- (1 if addressingMode = vertical else 0)`. -/
def isVertical : AddressingMode → Bool
  | .horizontal => false
  | .vertical => true

/-- R163 step 1: the commit of the addressing mode and of the checked configuration. -/
def State.commit (mode : AddressingMode) (d : DisplayConfig) (s : State) : State :=
  { s.setV (isVertical mode) with dcfg := d }

/-- R163 steps 2 to 7. -/
def emitInitialisation (s : State) : Sending :=
  (((((((emitReset s).bind enterExt).bind emitTc).bind emitBias).bind emitVop).bind exitExt).bind (emitPower false)).bind
    (fun s => emitCmd s.cfg.par.codes.displayNormal s)

/-- R163 `initialize`. A failed transfer leaves the power-down bit as intended, cleared (R233). -/
def execInitialise (mode : AddressingMode) (contrast bias tc : Option Nat) (s : State) : StepResult :=
  withBlock s (match checkConfig contrast bias tc s.dcfg with
    | .error e => raise e s
    | .ok d => finish (State.setPd false) (emitInitialisation (s.commit mode d)))

/-- R170 `reset`: the pulse alone; the mirror is not written. -/
def execReset (s : State) : StepResult := withBlock s (finish id (emitReset s))

end Sys2Proof.Machine
end

