-- ==== Sys2Proof/Machine/Wire.lean ====
section
/-! DEFINITION. The wire instructions (R107, R109 to R119), each as the one frame that carries it: LCDENC emits the
frame, writes none of its mirror ("*Mirror state written*: none"), and the receiver takes the byte by its own latch
(R203 to R211; R210 where that latch is not the instruction's set). -/

namespace Sys2Proof.Machine

/-- R107, R204 `FUNCTION_SET`. -/
def execWireFunctionSet (pd v h : Bool) (s : State) : StepResult := sendCmd (fsbyte s.cfg.par.codes pd v h) s

/-- R111, R205 `DISPLAY_BLANK`. -/
def execWireDisplayBlank (s : State) : StepResult := sendCmd s.cfg.par.codes.displayBlank s

/-- R112, R205 `DISPLAY_ALL_ON`. -/
def execWireDisplayAllOn (s : State) : StepResult := sendCmd s.cfg.par.codes.displayAllOn s

/-- R109, R205 `DISPLAY_NORMAL`. -/
def execWireDisplayNormal (s : State) : StepResult := sendCmd s.cfg.par.codes.displayNormal s

/-- R110, R205 `DISPLAY_INVERSE`. -/
def execWireDisplayInverse (s : State) : StepResult := sendCmd s.cfg.par.codes.displayInverse s

/-- R114, R206 `SET_BANK`. -/
def execWireSetBank (bank : BitVec 6) (s : State) : StepResult := sendCmd (bankByte s.cfg.par.codes bank.toNat) s

/-- R113, R206 `SET_COLUMN`. -/
def execWireSetColumn (column : BitVec 7) (s : State) : StepResult := sendCmd (columnByte s.cfg.par.codes column.toNat) s

/-- R115, R207 `SET_TC`. -/
def execWireSetTc (tc : BitVec 2) (s : State) : StepResult := sendCmd (tcByte s.cfg.par.codes tc) s

/-- R116, R207 `SET_BIAS`. -/
def execWireSetBias (bias : BitVec 3) (s : State) : StepResult := sendCmd (biasByte s.cfg.par.codes bias) s

/-- R117, R207 `SET_VOP`. -/
def execWireSetVop (vop : BitVec 7) (s : State) : StepResult := sendCmd (vopByte s.cfg.par.codes vop) s

/-- R119, R208 `NOP`. -/
def execWireNop (s : State) : StepResult := sendCmd s.cfg.par.codes.nop s

/-- R118, R211: one data byte in a frame of its own. -/
def execWireDataByte (d : Byte) (s : State) : StepResult := sendData [d] s

end Sys2Proof.Machine
end

