-- ==== Sys2Proof/Machine/Writer.lean ====
section
/-! DEFINITION. The Pixel/Text Writer (43_pixel_text_writer.md): `fill`, `drawText` and `writeData`. -/

namespace Sys2Proof.Machine

/-- R180, R181: the buffers of `fill`'s data frames, 504 bytes in all. -/
def fillBuffers (p : Params) (on : Bool) : List (List Byte) :=
  (chunkSizes p.fillChunk Config.ddramBytes Config.ddramBytes).map (fun n => List.replicate n (fillByte on))

/-- R180 `fill`: all data, then column 0, then bank 0. -/
def execFill (on : Bool) (s : State) : StepResult :=
  withBlock s (finish id (((emitDatas (fillBuffers s.cfg.par on) s).bind (emitColumn 0)).bind (emitBank 0)))

/-- R183: the glyphs of a text, in text order. -/
def textBuffers (p : Params) (text : List Nat) : List (List Byte) :=
  text.map (fun c => fontGlyph p (glyphIndex c))

/-- R183 `drawText`: one data frame for each character. -/
def execDrawText (text : List Nat) (s : State) : StepResult :=
  withBlock s (finish id (emitDatas (textBuffers s.cfg.par text) s))

/-- R186 `writeData`: the whole buffer in one frame. -/
def execWriteData (bytes : List Byte) (s : State) : StepResult := sendData bytes s

end Sys2Proof.Machine
end

