-- ==== Sys2Proof/Machine/Dispatch.lean ====
section
/-! DEFINITION. The dispatch of every instruction to its meaning. -/

namespace Sys2Proof.Machine

def exec (i : Instr) (s : State) : Host.Outcome State Fault Refusal :=
  match i with
  | .wireFunctionSet pd v h => Sys2Proof.Machine.execWireFunctionSet pd v h s
  | .wireDisplayBlank => Sys2Proof.Machine.execWireDisplayBlank s
  | .wireDisplayAllOn => Sys2Proof.Machine.execWireDisplayAllOn s
  | .wireDisplayNormal => Sys2Proof.Machine.execWireDisplayNormal s
  | .wireDisplayInverse => Sys2Proof.Machine.execWireDisplayInverse s
  | .wireSetBank bank => Sys2Proof.Machine.execWireSetBank bank s
  | .wireSetColumn column => Sys2Proof.Machine.execWireSetColumn column s
  | .wireSetTc tc => Sys2Proof.Machine.execWireSetTc tc s
  | .wireSetBias bias => Sys2Proof.Machine.execWireSetBias bias s
  | .wireSetVop vop => Sys2Proof.Machine.execWireSetVop vop s
  | .wireNop => Sys2Proof.Machine.execWireNop s
  | .wireDataByte d => Sys2Proof.Machine.execWireDataByte d s
  | .create hasBus hasDc hasCs hasRst => Sys2Proof.Machine.execCreate hasBus hasDc hasCs hasRst s
  | .setAddressingMode vertical => Sys2Proof.Machine.execSetAddressingMode vertical s
  | .setContrast vop => Sys2Proof.Machine.execSetContrast vop s
  | .setBias bias => Sys2Proof.Machine.execSetBias bias s
  | .setTemperatureCoefficient tc => Sys2Proof.Machine.execSetTemperatureCoefficient tc s
  | .setCursor column bank => Sys2Proof.Machine.execSetCursor column bank s
  | .setPower on => Sys2Proof.Machine.execSetPower on s
  | .setInverted on => Sys2Proof.Machine.execSetInverted on s
  | .setBlanked on => Sys2Proof.Machine.execSetBlanked on s
  | .setTestPattern on => Sys2Proof.Machine.execSetTestPattern on s
  | .rawCommand byte => Sys2Proof.Machine.execRawCommand byte s
  | .rawData bytes => Sys2Proof.Machine.execRawData bytes s
  | .initialise mode contrast bias tc => Sys2Proof.Machine.execInitialise mode contrast bias tc s
  | .reset => Sys2Proof.Machine.execReset s
  | .fill on => Sys2Proof.Machine.execFill on s
  | .drawText text => Sys2Proof.Machine.execDrawText text s
  | .writeData bytes => Sys2Proof.Machine.execWriteData bytes s

end Sys2Proof.Machine
end

