-- ==== Sys2Proof/WellFormed.lean ====
section
/-! DEFINITION. Which terms of Instr are instructions. Every operand domain but one is enforced by its type (R9: the
numeric operands are unbounded naturals, bytes are 0..255); what is left to check is that a character is a code
point in 0..0x10FFFF. -/

namespace Sys2Proof

/-- R9: "A code point is in 0..`0x10FFFF`." -/
def Instr.wf : Instr → Bool
  | .wireFunctionSet _ _ _ => true
  | .wireDisplayBlank => true
  | .wireDisplayAllOn => true
  | .wireDisplayNormal => true
  | .wireDisplayInverse => true
  | .wireSetBank _ => true
  | .wireSetColumn _ => true
  | .wireSetTc _ => true
  | .wireSetBias _ => true
  | .wireSetVop _ => true
  | .wireNop => true
  | .wireDataByte _ => true
  | .create _ _ _ _ => true
  | .setAddressingMode _ => true
  | .setContrast _ => true
  | .setBias _ => true
  | .setTemperatureCoefficient _ => true
  | .setCursor _ _ => true
  | .setPower _ => true
  | .setInverted _ => true
  | .setBlanked _ => true
  | .setTestPattern _ => true
  | .rawCommand _ => true
  | .rawData _ => true
  | .initialise _ _ _ _ => true
  | .reset => true
  | .fill _ => true
  | .drawText text => text.all (· ≤ Config.codePointMax)
  | .writeData _ => true

end Sys2Proof
end

