-- ==== Sys2Proof/Decode.lean ====
section
/-! DEFINITION. From the bytes of a request to an instruction, total and rejecting by name, and back. A command byte is
read by the instruction table of R71 to R78 under the instruction-set latch; an operation by its select code (R81)
and then its operands. The spec gives operands no bytes ("operands are typed values, not bit fields"): their layout is
the model's own (log entry 2). -/

namespace Sys2Proof

open Sys2Proof.Machine

/-- Why a request spells no instruction. -/
inductive DecodeError where
  /-- The bytes end inside the instruction. -/
  | truncated
  /-- R81: "Select codes `0x11..0xFF` name no operation". -/
  | unknownSelect (sel : Byte)
  /-- A boolean operand is neither 0 nor 1. -/
  | badBool (b : Byte)
  /-- The addressing mode is neither 0 nor 1. -/
  | badMode (b : Byte)
  /-- The presence byte of an optional operand is neither 0 nor 1. -/
  | badPresence (b : Byte)
  /-- R9: a character above 0x10FFFF. -/
  | badCodePoint (n : Nat)
  /-- Bytes other than zero padding follow the instruction. -/
  | trailingBytes
  /-- R78: the byte is reserved or not listed in this instruction set. -/
  | undefinedCommand (b : Byte)
deriving DecidableEq, Repr

/-- What a reader of a byte sequence answers: a value and the bytes after it. -/
abbrev Reading (α : Type) := Except DecodeError (α × List Byte)

/-! ## Operands (log entry 2) -/

/-- One byte. -/
def readByte : List Byte → Reading Byte
  | [] => .error .truncated
  | b :: bs => .ok (b, bs)

/-- A boolean: one byte, 0 or 1. -/
def readBool : List Byte → Reading Bool
  | [] => .error .truncated
  | b :: bs => if b = 0#8 then .ok (false, bs) else if b = 1#8 then .ok (true, bs) else .error (.badBool b)

/-- An addressing mode: one byte, 0 horizontal, 1 vertical. -/
def readMode : List Byte → Reading AddressingMode
  | [] => .error .truncated
  | b :: bs =>
    if b = 0#8 then .ok (.horizontal, bs) else if b = 1#8 then .ok (.vertical, bs) else .error (.badMode b)

/-- A natural: seven bits a byte, the least significant first, bit 7 set on all but the last. -/
def readNat : List Byte → Reading Nat
  | [] => .error .truncated
  | b :: bs =>
    if b.toNat < 128 then .ok (b.toNat, bs)
    else match readNat bs with
      | .error e => .error e
      | .ok (n, rest) => .ok (b.toNat - 128 + 128 * n, rest)

/-- An optional natural: a presence byte, then the natural if it is 1. -/
def readOption : List Byte → Reading (Option Nat)
  | [] => .error .truncated
  | b :: bs =>
    if b = 0#8 then .ok (none, bs)
    else if b = 1#8 then
      match readNat bs with
      | .error e => .error e
      | .ok (n, rest) => .ok (some n, rest)
    else .error (.badPresence b)

/-- So many bytes. -/
def readBytesOf : Nat → List Byte → Reading (List Byte)
  | 0, bs => .ok ([], bs)
  | _ + 1, [] => .error .truncated
  | n + 1, b :: bs =>
    match readBytesOf n bs with
    | .error e => .error e
    | .ok (xs, rest) => .ok (b :: xs, rest)

/-- A byte sequence: its length, then its bytes. -/
def readBytes (bs : List Byte) : Reading (List Byte) :=
  match readNat bs with
  | .error e => .error e
  | .ok (n, rest) => readBytesOf n rest

/-- So many code points. -/
def readTextOf : Nat → List Byte → Reading (List Nat)
  | 0, bs => .ok ([], bs)
  | n + 1, bs =>
    match readNat bs with
    | .error e => .error e
    | .ok (c, rest) =>
      if c ≤ Config.codePointMax then
        match readTextOf n rest with
        | .error e => .error e
        | .ok (xs, rest') => .ok (c :: xs, rest')
      else .error (.badCodePoint c)

/-- A text: its length, then its code points. -/
def readText (bs : List Byte) : Reading (List Nat) :=
  match readNat bs with
  | .error e => .error e
  | .ok (n, rest) => readTextOf n rest

/-- A reading carried on with what it answered. -/
def Reading.andThen {α β : Type} (r : Reading α) (k : α → List Byte → Reading β) : Reading β :=
  match r with
  | .error e => .error e
  | .ok (a, rest) => k a rest

/-- An instruction made from the value of a reading. -/
def Reading.make {α β : Type} (r : Reading α) (f : α → β) : Reading β :=
  match r with
  | .error e => .error e
  | .ok (a, rest) => .ok (f a, rest)

/-! ## Operations -/

/-- R81: the select code names the operation; its operands follow in the order of the table. -/
def decodeOperation : List Byte → Reading Instr
  | [] => .error .truncated
  | sel :: bs =>
    match sel.toNat with
    | 0x00 => (readBool bs).andThen fun bus bs => (readBool bs).andThen fun dc bs =>
        (readBool bs).andThen fun cs bs => (readBool bs).make fun rst => .create bus dc cs rst
    | 0x01 => (readBool bs).make .setAddressingMode
    | 0x02 => (readNat bs).make .setContrast
    | 0x03 => (readNat bs).make .setBias
    | 0x04 => (readNat bs).make .setTemperatureCoefficient
    | 0x05 => (readNat bs).andThen fun column bs => (readNat bs).make fun bank => .setCursor column bank
    | 0x06 => (readBool bs).make .setPower
    | 0x07 => (readBool bs).make .setInverted
    | 0x08 => (readBool bs).make .setBlanked
    | 0x09 => (readBool bs).make .setTestPattern
    | 0x0A => (readByte bs).make .rawCommand
    | 0x0B => (readBytes bs).make .rawData
    | 0x0C => (readMode bs).andThen fun mode bs => (readOption bs).andThen fun contrast bs =>
        (readOption bs).andThen fun bias bs => (readOption bs).make fun tc => .initialise mode contrast bias tc
    | 0x0D => .ok (.reset, bs)
    | 0x0E => (readBool bs).make .fill
    | 0x0F => (readText bs).make .drawText
    | 0x10 => (readBytes bs).make .writeData
    | _ => .error (.unknownSelect sel)

/-! ## Command bytes -/

/-- R71 to R78: the instruction a command byte spells, `h` the instruction-set latch. The bank has its six bits (R75, C6);
which of them the controller knows is the receiver's affair (R206). -/
def decodeCommand (c : Codes) (h : Bool) (b : Byte) : Except DecodeError Instr :=
  if b = c.nop then .ok .wireNop
  else if b &&& ~~~c.flagMask = c.functionSet then
    .ok (.wireFunctionSet (b.getLsbD c.bitPd) (b.getLsbD c.bitV) (b.getLsbD c.bitH))
  else if h then
    if b &&& 0x80#8 = c.setVop then .ok (.wireSetVop (b.setWidth 7))
    else if b &&& 0xFC#8 = c.setTc then .ok (.wireSetTc (b.setWidth 2))
    else if b &&& 0xF8#8 = c.setBias then .ok (.wireSetBias (b.setWidth 3))
    else .error (.undefinedCommand b)
  else
    if b = c.displayBlank then .ok .wireDisplayBlank
    else if b = c.displayAllOn then .ok .wireDisplayAllOn
    else if b = c.displayNormal then .ok .wireDisplayNormal
    else if b = c.displayInverse then .ok .wireDisplayInverse
    else if b &&& 0xC0#8 = c.setBank then .ok (.wireSetBank (b.setWidth 6))
    else if b &&& 0x80#8 = c.setColumn then .ok (.wireSetColumn (b.setWidth 7))
    else .error (.undefinedCommand b)

/-- The instruction a request spells. Zero bytes after an operation are padding (log entry 2). -/
def decode (c : Codes) (h : Bool) : Request → Except DecodeError Instr
  | .operation bytes =>
    match decodeOperation bytes with
    | .error e => .error e
    | .ok (i, rest) => if rest.all (· == 0#8) then .ok i else .error .trailingBytes
  | .command b => decodeCommand c h b
  | .data b => .ok (.wireDataByte b)

/-! ## The encoder -/

/-- A boolean operand. -/
def putBool (b : Bool) : List Byte := [if b then 1#8 else 0#8]

/-- An addressing mode. -/
def putMode : AddressingMode → List Byte
  | .horizontal => [0#8]
  | .vertical => [1#8]

/-- A natural, in at most `fuel + 1` bytes. -/
def putNatIn : Nat → Nat → List Byte
  | 0, n => [BitVec.ofNat 8 (n % 128)]
  | fuel + 1, n =>
    if n < 128 then [BitVec.ofNat 8 n] else BitVec.ofNat 8 (128 + n % 128) :: putNatIn fuel (n / 128)

/-- A natural. -/
def putNat (n : Nat) : List Byte := putNatIn n n

/-- An optional natural. -/
def putOption : Option Nat → List Byte
  | none => [0#8]
  | some n => 1#8 :: putNat n

/-- A byte sequence. -/
def putBytes (bs : List Byte) : List Byte := putNat bs.length ++ bs

/-- A text. -/
def putText (text : List Nat) : List Byte := putNat text.length ++ text.flatMap putNat

/-- The request an instruction is spelled by. -/
def encode (c : Codes) : Instr → Request
  | .wireFunctionSet pd v h => .command (fsbyte c pd v h)
  | .wireDisplayBlank => .command c.displayBlank
  | .wireDisplayAllOn => .command c.displayAllOn
  | .wireDisplayNormal => .command c.displayNormal
  | .wireDisplayInverse => .command c.displayInverse
  | .wireSetBank bank => .command (bankByte c bank.toNat)
  | .wireSetColumn column => .command (columnByte c column.toNat)
  | .wireSetTc tc => .command (tcByte c tc)
  | .wireSetBias bias => .command (biasByte c bias)
  | .wireSetVop vop => .command (vopByte c vop)
  | .wireNop => .command c.nop
  | .wireDataByte d => .data d
  | .create bus dc cs rst => .operation (0x00#8 :: (putBool bus ++ putBool dc ++ putBool cs ++ putBool rst))
  | .setAddressingMode vertical => .operation (0x01#8 :: putBool vertical)
  | .setContrast vop => .operation (0x02#8 :: putNat vop)
  | .setBias bias => .operation (0x03#8 :: putNat bias)
  | .setTemperatureCoefficient tc => .operation (0x04#8 :: putNat tc)
  | .setCursor column bank => .operation (0x05#8 :: (putNat column ++ putNat bank))
  | .setPower on => .operation (0x06#8 :: putBool on)
  | .setInverted on => .operation (0x07#8 :: putBool on)
  | .setBlanked on => .operation (0x08#8 :: putBool on)
  | .setTestPattern on => .operation (0x09#8 :: putBool on)
  | .rawCommand byte => .operation [0x0A#8, byte]
  | .rawData bytes => .operation (0x0B#8 :: putBytes bytes)
  | .initialise mode contrast bias tc =>
    .operation (0x0C#8 :: (putMode mode ++ putOption contrast ++ putOption bias ++ putOption tc))
  | .reset => .operation [0x0D#8]
  | .fill on => .operation (0x0E#8 :: putBool on)
  | .drawText text => .operation (0x0F#8 :: putText text)
  | .writeData bytes => .operation (0x10#8 :: putBytes bytes)

/-- The instruction-set latch under which the wire instruction is read back (R71); `h` where either will do. -/
def Instr.latch (h : Bool) : Instr → Bool
  | .wireSetTc _ | .wireSetBias _ | .wireSetVop _ => true
  | .wireDisplayBlank | .wireDisplayAllOn | .wireDisplayNormal | .wireDisplayInverse
  | .wireSetBank _ | .wireSetColumn _ => false
  | .wireFunctionSet _ _ _ | .wireNop | .wireDataByte _
  | .create _ _ _ _ | .setAddressingMode _ | .setContrast _ | .setBias _ | .setTemperatureCoefficient _
  | .setCursor _ _ | .setPower _ | .setInverted _ | .setBlanked _ | .setTestPattern _ | .rawCommand _ | .rawData _
  | .initialise _ _ _ _ | .reset | .fill _ | .drawText _ | .writeData _ => h

/-! ## The words of the opcode table -/

/-- The low `n` bytes of a number, the least significant first. -/
def tableBytes (w : Nat) : Nat → List Byte
  | 0 => []
  | n + 1 => BitVec.ofNat 8 w :: tableBytes (w / 256) n

/-- The request that lays out a word of the opcode table. Its first byte is a select code where R81 numbers an
operation so (the operand bytes it is given no bits for are zeros), and a command byte elsewhere (log entry 3: seven
bytes are both, and are then read as the operation). -/
def tableRequest (nbits w : Nat) : Request :=
  if w % 256 ≤ 0x10 then .operation (tableBytes w (max 1 (nbits / 8)) ++ List.replicate 8 0#8)
  else .command (BitVec.ofNat 8 w)

/-- The instruction the decoder reads from a word of the opcode table, under the reference constants and in the basic
set, as the machine is after reset. -/
def decodeTableWord (nbits w : Nat) : Option Instr :=
  match decode Codes.reference false (tableRequest nbits w) with
  | .ok i => some i
  | .error _ => none

end Sys2Proof
end

