-- ==== Sys2Proof/Machine/Fetch.lean ====
section
/-! DEFINITION. Reading a request: under the constants of the block and the instruction set of the moment, and what
becomes of a request that spells no instruction. -/

namespace Sys2Proof.Machine

/-- The instruction a request spells in a state (R72, R78). -/
def fetch (s : State) (r : Request) : Except DecodeError Instr := decode s.cfg.par.codes s.instructionSet r

/-- A request that spells no instruction: an undefined command byte is sent, anything else is not accepted (R80, R81). -/
def unaccepted (e : DecodeError) (s : State) : StepResult :=
  match e with
  | .undefinedCommand b => sendUndefined b s
  | .truncated | .unknownSelect _ | .badBool _ | .badMode _ | .badPresence _ | .badCodePoint _ | .trailingBytes =>
    notAccepted s

end Sys2Proof.Machine
end

