-- ==== Sys2Proof/Machine/Step.lean ====
section
/-! DEFINITION. One step of the machine: the oldest request is taken, decoded and run to its end (R12, D24: an operation
is one atomic transition). -/

namespace Sys2Proof.Machine

/-- R12: the next operation is accepted only when the one before it has ended; with none pending the machine waits. -/
def step (s : State) : Host.Outcome State Fault Refusal :=
  match s.requests with
  | [] => idle s
  | r :: rs =>
    match fetch s r with
    | .ok i => exec i (s.withRequests rs)
    | .error e => unaccepted e (s.withRequests rs)

/-- The state with a word of the opcode table as its oldest request: the owner hands it over (log entry 10). -/
def State.withFetchWord (s : State) (nbits w : Nat) : State :=
  { s with requests := tableRequest nbits w :: s.requests }

end Sys2Proof.Machine
end

