-- ==== Sys2Proof/Safety.lean ====
section
/-! DEFINITION. The terms claims are stated in: when an operation can be issued and the transport cannot fail, what it
means that an operation sent exactly these frames, what holds of the machine at every operation boundary, and the
relation of the mirror to the receiver (R214). -/

namespace Sys2Proof

/-- R140, R81: the operations that are semantic and issued to an existing block: all but `create` and `rawCommand`, and
none of the wire instructions. -/
def Instr.semantic : Instr → Bool
  | .setAddressingMode _ | .setContrast _ | .setBias _ | .setTemperatureCoefficient _ | .setCursor _ _ | .setPower _
  | .setInverted _ | .setBlanked _ | .setTestPattern _ | .rawData _ | .initialise _ _ _ _ | .reset | .fill _
  | .drawText _ | .writeData _ => true
  | .create _ _ _ _ | .rawCommand _ | .wireFunctionSet _ _ _ | .wireDisplayBlank | .wireDisplayAllOn
  | .wireDisplayNormal | .wireDisplayInverse | .wireSetBank _ | .wireSetColumn _ | .wireSetTc _ | .wireSetBias _
  | .wireSetVop _ | .wireNop | .wireDataByte _ => false

/-- The instruction is `create`. -/
def Instr.isCreate : Instr → Bool
  | .create _ _ _ _ => true
  | .setAddressingMode _ | .setContrast _ | .setBias _ | .setTemperatureCoefficient _ | .setCursor _ _ | .setPower _
  | .setInverted _ | .setBlanked _ | .setTestPattern _ | .rawData _ | .initialise _ _ _ _ | .reset | .fill _
  | .drawText _ | .writeData _ | .rawCommand _ | .wireFunctionSet _ _ _ | .wireDisplayBlank | .wireDisplayAllOn
  | .wireDisplayNormal | .wireDisplayInverse | .wireSetBank _ | .wireSetColumn _ | .wireSetTc _ | .wireSetBias _
  | .wireSetVop _ | .wireNop | .wireDataByte _ => false

/-- R50: the instructions that send data bytes, the only ones that store into the display memory. -/
def Instr.storesData : Instr → Bool
  | .wireDataByte _ | .rawData _ | .writeData _ | .fill _ | .drawText _ => true
  | .create _ _ _ _ | .setAddressingMode _ | .setContrast _ | .setBias _ | .setTemperatureCoefficient _ | .setCursor _ _
  | .setPower _ | .setInverted _ | .setBlanked _ | .setTestPattern _ | .initialise _ _ _ _ | .reset | .rawCommand _
  | .wireFunctionSet _ _ _ | .wireDisplayBlank | .wireDisplayAllOn | .wireDisplayNormal | .wireDisplayInverse
  | .wireSetBank _ | .wireSetColumn _ | .wireSetTc _ | .wireSetBias _ | .wireSetVop _ | .wireNop => false

/-- R35: the instructions that drive the reset line, if there is one. -/
def Instr.pulses : Instr → Bool
  | .initialise _ _ _ _ | .reset => true
  | .create _ _ _ _ | .setAddressingMode _ | .setContrast _ | .setBias _ | .setTemperatureCoefficient _ | .setCursor _ _
  | .setPower _ | .setInverted _ | .setBlanked _ | .setTestPattern _ | .rawCommand _ | .rawData _ | .fill _ | .drawText _
  | .writeData _ | .wireFunctionSet _ _ _ | .wireDisplayBlank | .wireDisplayAllOn | .wireDisplayNormal
  | .wireDisplayInverse | .wireSetBank _ | .wireSetColumn _ | .wireSetTc _ | .wireSetBias _ | .wireSetVop _ | .wireNop
  | .wireDataByte _ => false

/-- R71: the instruction set a command is sent for. -/
inductive CommandSet where
  /-- Function set and no-operation, in both sets. -/
  | either
  | basic
  | extended
deriving DecidableEq, Repr

/-- The latch `h` decodes commands of this set. -/
def CommandSet.admits (h : Bool) : CommandSet → Bool
  | .either => true
  | .basic => !h
  | .extended => h

/-- The sets of the commands a semantic operation emits, in order (opcode_table.json, "emits_commands"): a bracket is a
function-set command, its extended writes and a function-set command (R108); the raw operations and the wire
instructions send for no set of their own. -/
def Instr.commandSets : Instr → List CommandSet
  | .setContrast _ | .setBias _ | .setTemperatureCoefficient _ => [.either, .extended, .either]
  | .setCursor _ _ | .fill _ => [.basic, .basic]
  | .setPower _ => [.either]
  | .setInverted _ | .setBlanked _ | .setTestPattern _ => [.basic]
  | .initialise _ _ _ _ => [.either, .extended, .extended, .extended, .either, .either, .basic]
  | .create _ _ _ _ | .setAddressingMode _ | .reset | .drawText _ | .writeData _ | .rawData _ | .rawCommand _
  | .wireFunctionSet _ _ _ | .wireDisplayBlank | .wireDisplayAllOn | .wireDisplayNormal | .wireDisplayInverse
  | .wireSetBank _ | .wireSetColumn _ | .wireSetTc _ | .wireSetBias _ | .wireSetVop _ | .wireNop | .wireDataByte _ => []

end Sys2Proof

namespace Sys2Proof.Machine

/-- R203: the set whose instruction the receiver took a command for; none for an undefined one. -/
def CtlInstr.commandSet : CtlInstr → Option CommandSet
  | .nop | .functionSet _ _ _ => some .either
  | .display _ | .setBank _ | .setColumn _ => some .basic
  | .setVop _ | .setTc _ | .setBias _ => some .extended
  | .undefined => none

/-- R101: the frame is a command frame. -/
def Frame.isCommand : Frame → Bool
  | .cmd _ => true
  | .data _ | .resetPulse => false

/-- R106: the frame holds a transfer, which may fail. -/
def Frame.isTransfer : Frame → Bool
  | .cmd _ | .data _ => true
  | .resetPulse => false

/-- A block exists (R160) and its transport is infallible, as in every normative rule (R106). -/
structure Ready (s : State) : Prop where
  created    : s.created = true
  infallible : s.cfg.par.transportFallible = false

/-- Frames that were delivered. -/
def delivered (fs : List Frame) : List Sent := fs.map fun f => ⟨f, true⟩

/-- Between `s` and `t` exactly the frames `fs` were sent and delivered, in this order: the frame trace and the pin trace
grew by them (R10, R62), the latches hold what their `PIN` events drove last (R28), the receiver took them one after the
other (R201), and nothing was created, configured, requested or answered. What became of `FS`, `DCFG` and the result is
not said. -/
structure Sends (s t : State) (fs : List Frame) : Prop where
  frames   : t.frames = s.frames ++ delivered fs
  events   : t.events = s.events ++ (delivered fs).flatMap (Sent.events s.cfg)
  lines    : t.lines = ((delivered fs).flatMap (Sent.events s.cfg)).foldl Lines.drive s.lines
  rx       : t.rx = (delivered fs).foldl (Receiver.take s.cfg.par) s.rx
  created  : t.created = s.created
  cfg      : t.cfg = s.cfg
  offered  : t.offered = s.offered
  requests : t.requests = s.requests
  answers  : t.answers = s.answers

/-- The operation completes with `Ok`, having sent exactly the frames `fs`, and leaves the mirror as `fs'` and `dcfg'`. -/
def Completes (i : Instr) (s : State) (fs : List Frame) (fs' : FunctionState) (dcfg' : DisplayConfig) : Prop :=
  ∃ t, exec i s = .next t ∧ Sends s t fs ∧ t.result = some .ok ∧ t.fs = fs' ∧ t.dcfg = dcfg'

/-- What holds at every operation boundary: the block is in the basic set (R23), its parameter record is well formed
(R160), chip-select is deasserted or has never been driven and never driven where the line is absent (R28, R103), the
reset line is high or has never been driven likewise (R28, R105), and the display memory is in its canonical form. -/
structure AtRest (s : State) : Prop where
  basicSet : s.fs.h = false
  params   : s.cfg.par.wf = true
  csIdle   : s.lines.cs = none ∨ (s.cfg.hasCs = true ∧ s.lines.cs = some (!s.cfg.par.lvlCsAssert))
  rstIdle  : s.lines.rst = none ∨ (s.cfg.hasRst = true ∧ s.lines.rst = some true)
  ddram    : ∀ c, s.rx = .defined c → Memory.wf c.ddram

/-- R214 `SyncModV(S, CTL)`. -/
structure SyncModV (s : State) (c : Ctl) : Prop where
  pd  : c.pd = s.fs.pd
  h   : c.h = s.fs.h
  tc  : c.tc = s.dcfg.tc
  bs  : c.bs = s.dcfg.bias
  vop : c.vop = s.dcfg.vop

/-- R214 `Sync(S, CTL)`. The clause `CTL.status = Defined` is that the receiver has fields to compare. -/
structure Sync (s : State) (c : Ctl) : Prop extends SyncModV s c where
  v : c.v = s.fs.v

/-- The same machine with an infallible transport (R106). -/
def State.infallible (s : State) : State :=
  { s with cfg := { s.cfg with par := { s.cfg.par with transportFallible := false } } }

/-- The same machine without a chip-select line (R27). -/
def State.withoutCs (s : State) : State := { s with cfg := { s.cfg with hasCs := false } }

/-- The event is not one of the chip-select line. -/
def Event.notCs : Event → Bool
  | .pin .cs _ => false
  | .pin .dc _ | .pin .rst _ | .xfer _ _ | .wait _ => true

/-- R103: where the chip-select line stands inside a trace. -/
inductive Select where
  /-- Deasserted. -/
  | idle
  /-- Asserted, the transfer still to come. -/
  | selected
  /-- Asserted, the one transfer done. -/
  | transferred
deriving DecidableEq, Repr

/-- R103 (a), (b), (d): one event under the chip-select discipline, `assert` being the asserted level; `none` is a breach
of it. -/
def Select.next (assert : Level) (q : Select) (e : Event) : Option Select :=
  match q, e with
  | .idle, .pin .cs l => if l = assert then some .selected else none
  | .idle, .pin .dc _ => some .idle
  | .idle, .pin .rst _ => some .idle
  | .idle, .wait _ => some .idle
  | .idle, .xfer _ _ => none
  | .selected, .xfer bs _ => if bs = [] then none else some .transferred
  | .selected, .pin _ _ => none
  | .selected, .wait _ => none
  | .transferred, .pin .cs l => if l = assert then none else some .idle
  | .transferred, .pin .dc _ => none
  | .transferred, .pin .rst _ => none
  | .transferred, .wait _ => none
  | .transferred, .xfer _ _ => none

/-- A trace under the chip-select discipline. -/
def Select.run (assert : Level) (q : Select) : List Event → Option Select
  | [] => some q
  | e :: es =>
    match q.next assert e with
    | none => none
    | some q' => Select.run assert q' es

/-- The byte of a command frame that is a function-set instruction (R71). -/
def Sent.functionSetByte (c : Codes) (f : Sent) : Option Byte :=
  match f.frame with
  | .cmd b => if isFunctionSet c b then some b else none
  | .data _ => none
  | .resetPulse => none

end Sys2Proof.Machine
end

