-- ==== Sys2Proof/Certificates/Slice0/Obligations.lean ====
section
/-! DEFINITION. The statements for the provers. Each docstring names the rule of spec/ it formalises. "Reference
constants" is `s.cfg.par.codes = Codes.reference`, the premise the spec asks for wherever concrete bytes or the
receiver's decoding are spoken of (R72, R214). -/

open Sys2Proof Sys2Proof.Machine

/-! ## Encoding and decoding -/

/-- R81, R72 (sample): words written out bit by bit from the tables decode to the instructions they stand for. -/
def Obligations.SampleWordsDecode : Prop :=
  decode Codes.reference false (.command 0b00100101#8) = .ok (.wireFunctionSet true false true) ∧
  decode Codes.reference false (.command 0b00001101#8) = .ok .wireDisplayInverse ∧
  decode Codes.reference false (.command 0b01000011#8) = .ok (.wireSetBank 3#6) ∧
  decode Codes.reference false (.command 0b10010100#8) = .ok (.wireSetColumn 20#7) ∧
  decode Codes.reference true (.command 0b10010100#8) = .ok (.wireSetVop 20#7) ∧
  decode Codes.reference true (.command 0b00010100#8) = .ok (.wireSetBias 4#3) ∧
  decode Codes.reference true (.command 0b00000110#8) = .ok (.wireSetTc 2#2) ∧
  decode Codes.reference false (.operation [0x06#8, 0x01#8]) = .ok (.setPower true) ∧
  decode Codes.reference false (.operation [0x0D#8]) = .ok .reset ∧
  decode Codes.reference false (.operation [0x11#8]) = .error (.unknownSelect 0x11#8)

/-- R71, R81: every well-formed instruction, at every value of its operands, is read back from its encoding (a wire
instruction under the latch of its set). The operand bytes of operations are the model's own layout (log entry 2). -/
def Obligations.EncodedInstructionDecodesBack : Prop :=
  ∀ (i : Instr) (h : Bool), i.wf = true →
    decode Codes.reference (i.latch h) (encode Codes.reference i) = .ok i

/-- R73: the formula, the eight bytes under the reference values, and, for every well-formed record of constants, three
distinct positions with zeros of the opcode there, so that the byte carries all three flags. -/
def Obligations.FunctionSetByteCarriesAllThreeFlags : Prop :=
  (∀ (c : Codes) (pd v h : Bool), fsbyte c pd v h =
    c.functionSet ||| ((if pd then 1#8 else 0#8) <<< c.bitPd) ||| ((if v then 1#8 else 0#8) <<< c.bitV)
      ||| ((if h then 1#8 else 0#8) <<< c.bitH)) ∧
  [fsbyte Codes.reference false false false, fsbyte Codes.reference false false true,
   fsbyte Codes.reference false true false, fsbyte Codes.reference false true true,
   fsbyte Codes.reference true false false, fsbyte Codes.reference true false true,
   fsbyte Codes.reference true true false, fsbyte Codes.reference true true true]
    = [0x20#8, 0x21#8, 0x22#8, 0x23#8, 0x24#8, 0x25#8, 0x26#8, 0x27#8] ∧
  ∀ c : Codes, c.wf = true →
    (c.bitPd ≠ c.bitV ∧ c.bitPd ≠ c.bitH ∧ c.bitV ≠ c.bitH) ∧
    (c.functionSet.getLsbD c.bitPd = false ∧ c.functionSet.getLsbD c.bitV = false ∧
      c.functionSet.getLsbD c.bitH = false) ∧
    ∀ pd v h pd' v' h' : Bool, fsbyte c pd v h = fsbyte c pd' v' h' → pd = pd' ∧ v = v' ∧ h = h'

/-- R203: the table of `classify` under the reference constants, row by row from the top. Its numerals and which bytes are
undefined are the spec's general knowledge, PRESUMED (log entry 4). -/
def Obligations.ReceiverClassifiesByTheTable : Prop :=
  ∀ b : Byte,
    classify Codes.reference false b =
      (if b = 0x00#8 then .nop
       else if b &&& 0xF8#8 = 0x20#8 then .functionSet (b.getLsbD 2) (b.getLsbD 1) (b.getLsbD 0)
       else if b = 0x08#8 then .display .blank
       else if b = 0x09#8 then .display .allOn
       else if b = 0x0C#8 then .display .normal
       else if b = 0x0D#8 then .display .inverse
       else if b &&& 0xF8#8 = 0x40#8 then .setBank (b.extractLsb' 0 3)
       else if b &&& 0x80#8 = 0x80#8 then .setColumn (b.extractLsb' 0 7)
       else .undefined) ∧
    classify Codes.reference true b =
      (if b = 0x00#8 then .nop
       else if b &&& 0xF8#8 = 0x20#8 then .functionSet (b.getLsbD 2) (b.getLsbD 1) (b.getLsbD 0)
       else if b &&& 0x80#8 = 0x80#8 then .setVop (b.extractLsb' 0 7)
       else if b &&& 0xFC#8 = 0x04#8 then .setTc (b.extractLsb' 0 2)
       else if b &&& 0xF8#8 = 0x10#8 then .setBias (b.extractLsb' 0 3)
       else .undefined)

/-! ## The step -/

/-- R12, R62: the oldest request, when it spells an instruction, is taken off and that instruction is run; with no request
nothing happens. -/
def Obligations.StepRunsTheDecodedRequest : Prop :=
  (∀ (s : State) (r : Request) (rs : List Request) (i : Instr), s.requests = r :: rs → fetch s r = .ok i →
    step s = exec i { s with requests := rs }) ∧
  (∀ s : State, s.requests = [] → step s = .next s)

/-- R81: a select code above 0x10 names no operation and is not accepted: no state change, no trace. -/
def Obligations.UnnamedSelectCodeIsNotAccepted : Prop :=
  ∀ (s : State) (sel : Byte) (bs : List Byte) (rs : List Request), 0x10 < sel.toNat →
    s.requests = .operation (sel :: bs) :: rs → step s = .next { s with requests := rs }

/-- R80, R209: a command byte that the receiver's set does not define is sent all the same and leaves the receiver
unpredictable; the mirror is unchanged. That such a byte can be handed over as a request of its own is the model's
choice (log entry 3); which bytes are undefined is the spec's general knowledge, PRESUMED (log entry 4). -/
def Obligations.UndefinedCommandByteIsSent : Prop :=
  ∀ (s : State) (b : Byte) (rs : List Request) (c : Ctl), Ready s → s.rx = .defined c →
    decodeCommand s.cfg.par.codes c.h b = .error (.undefinedCommand b) → s.requests = .command b :: rs →
    ∃ t, step s = .next t ∧ Sends { s with requests := rs } t [.cmd b] ∧ t.fs = s.fs ∧ t.dcfg = s.dcfg ∧
      (s.cfg.par.codes = Codes.reference → t.rx = .unpredictable c.draws)

/-! ## Frames -/

/-- R101: the events of a command frame, with and without a chip-select line. -/
def Obligations.CommandFrameEvents : Prop :=
  ∀ (s : State) (b : Byte), Ready s → ∃ t, exec (.rawCommand b) s = .next t ∧
    t.events = s.events ++
      (if s.cfg.hasCs then
        [.pin .dc s.cfg.par.lvlCmd, .pin .cs s.cfg.par.lvlCsAssert, .xfer [b] true, .pin .cs (!s.cfg.par.lvlCsAssert)]
      else [.pin .dc s.cfg.par.lvlCmd, .xfer [b] true]) ∧
    t.lines = ⟨some s.cfg.par.lvlCmd, if s.cfg.hasCs then some (!s.cfg.par.lvlCsAssert) else s.lines.cs, s.lines.rst⟩

/-- R102: the events of a data frame: all bytes in one transfer, none at all for zero bytes; and the two DC levels differ
in every well-formed record. -/
def Obligations.DataFrameEvents : Prop :=
  (∀ (s : State) (bs : List Byte), Ready s → ∃ t, exec (.writeData bs) s = .next t ∧
    t.events = s.events ++
      (if bs = [] then []
      else if s.cfg.hasCs then
        [.pin .dc s.cfg.par.lvlData, .pin .cs s.cfg.par.lvlCsAssert, .xfer bs true, .pin .cs (!s.cfg.par.lvlCsAssert)]
      else [.pin .dc s.cfg.par.lvlData, .xfer bs true])) ∧
  (∀ p : Params, p.wf = true → p.lvlData ≠ p.lvlCmd)

/-- R105: the events of a reset pulse: six with a reset line, none without, and the bounds of the low time in every
well-formed record. Neither DC nor CS is touched. -/
def Obligations.ResetPulseEvents : Prop :=
  (∀ s : State, s.created = true → ∃ t, exec .reset s = .next t ∧
    t.events = s.events ++
      (if s.cfg.hasRst then
        [.pin .rst true, .wait s.cfg.par.tSetup, .pin .rst false, .wait s.cfg.par.tPulse, .pin .rst true,
         .wait s.cfg.par.tSettle]
      else []) ∧
    t.lines = ⟨s.lines.dc, s.lines.cs, if s.cfg.hasRst then some true else s.lines.rst⟩) ∧
  (∀ p : Params, p.wf = true → 100 < p.tPulse ∧ p.tPulse < 100000000)

/-! ## Construction -/

/-- R160: the first `create`, with the bus and the data/command line, builds the block with the offered parameters and the
reset values of R34, drives no line and sends nothing; without one of them no block exists and nothing is written; an
ill-formed record is refused; and without a block no operation runs. A `create` where a block exists, and one that
fails with an ill-formed record, are the next statement's. -/
def Obligations.CreateConstructsTheBlock : Prop :=
  (∀ (s : State) (hasCs hasRst : Bool), s.created = false → s.offered.wf = true →
    exec (.create true true hasCs hasRst) s = .next
      { s with created := true, cfg := ⟨hasCs, hasRst, s.offered⟩,
               fs := ⟨s.offered.defaultPd, s.offered.defaultV, false⟩,
               dcfg := ⟨s.offered.defaultVop, s.offered.defaultBias, s.offered.defaultTc⟩,
               lines := ⟨none, none, none⟩, result := some .ok }) ∧
  (∀ (s : State) (hasBus hasDc hasCs hasRst : Bool), hasBus = false ∨ hasDc = false → s.created = false →
    s.offered.wf = true →
    exec (.create hasBus hasDc hasCs hasRst) s = .next { s with result := some .configurationError }) ∧
  (∀ (s : State) (hasCs hasRst : Bool), s.created = false → s.offered.wf = false →
    exec (.create true true hasCs hasRst) s = .refused .illFormedParameters) ∧
  (∀ (s : State) (i : Instr), i.isCreate = false → s.created = false → exec i s = .fault .noBlock)

/-- R231, R35, R34: whether or not a block exists and whatever record is offered, a `create` without the bus or the
data/command line leaves no block, and every register, line, frame and receiver field as it was; with both, a well-formed
record gives exactly the new block and an ill-formed one is refused. What happens where a block exists, and that the
missing line is looked at before the record, are the model's choice (log entry 11). -/
def Obligations.CreateLeavesTheNewBlockOrNone : Prop :=
  (∀ (s : State) (hasBus hasDc hasCs hasRst : Bool), hasBus = false ∨ hasDc = false →
    exec (.create hasBus hasDc hasCs hasRst) s =
      .next { s with created := false, result := some .configurationError }) ∧
  (∀ (s : State) (hasCs hasRst : Bool),
    exec (.create true true hasCs hasRst) s =
      if s.offered.wf then
        .next { s with created := true, cfg := ⟨hasCs, hasRst, s.offered⟩,
                       fs := ⟨s.offered.defaultPd, s.offered.defaultV, false⟩,
                       dcfg := ⟨s.offered.defaultVop, s.offered.defaultBias, s.offered.defaultTc⟩,
                       lines := ⟨none, none, none⟩, result := some .ok }
      else .refused .illFormedParameters)

/-- R34: the reset state has the reference values of R7 in every register, no level on any line, and sends nothing. The
values the spec leaves open are the model's choice (log entries 1, 4 and 10). -/
def Obligations.ResetStateHoldsTheReferenceValues : Prop :=
  State.reset.fs = ⟨true, false, false⟩ ∧ State.reset.dcfg = ⟨0x3F#7, 4#3, 2#2⟩ ∧
  State.reset.lines = ⟨none, none, none⟩ ∧ State.reset.frames = [] ∧ State.reset.events = [] ∧
  exec (.create true true true true) State.reset = .next { State.reset with result := some .ok }

/-! ## Protocol Encoder operations -/

/-- R131: `setAddressingMode` writes `FS.V` and nothing else, and transmits nothing. -/
def Obligations.AddressingModeIsStoredNotSent : Prop :=
  ∀ (s : State) (vertical : Bool), s.created = true →
    exec (.setAddressingMode vertical) s =
      .next { s with fs := { s.fs with v := vertical }, result := some .ok }

/-- R132: `setContrast`: validate, store, bracket; out of range leaves no effect. -/
def Obligations.SetContrastBracketsTheOperatingVoltage : Prop :=
  (∀ (s : State) (vop : Nat), Ready s → vop ≤ 127 →
    Completes (.setContrast vop) s
      [.cmd (fsbyte s.cfg.par.codes s.fs.pd s.fs.v true),
       .cmd (s.cfg.par.codes.setVop ||| BitVec.ofNat 8 (vop &&& 0x7F)),
       .cmd (fsbyte s.cfg.par.codes s.fs.pd s.fs.v false)]
      { s.fs with h := false } { s.dcfg with vop := BitVec.ofNat 7 vop }) ∧
  (∀ (s : State) (vop : Nat), s.created = true → 128 ≤ vop →
    exec (.setContrast vop) s = .next { s with result := some (.outOfRange .contrast vop) })

/-- R133: `setBias`: validate, store, bracket; out of range leaves no effect. -/
def Obligations.SetBiasBracketsTheBias : Prop :=
  (∀ (s : State) (bias : Nat), Ready s → bias ≤ 7 →
    Completes (.setBias bias) s
      [.cmd (fsbyte s.cfg.par.codes s.fs.pd s.fs.v true),
       .cmd (s.cfg.par.codes.setBias ||| BitVec.ofNat 8 (bias &&& 0x07)),
       .cmd (fsbyte s.cfg.par.codes s.fs.pd s.fs.v false)]
      { s.fs with h := false } { s.dcfg with bias := BitVec.ofNat 3 bias }) ∧
  (∀ (s : State) (bias : Nat), s.created = true → 8 ≤ bias →
    exec (.setBias bias) s = .next { s with result := some (.outOfRange .bias bias) })

/-- R134: `setTemperatureCoefficient`: validate, store, bracket; out of range leaves no effect. -/
def Obligations.SetTemperatureCoefficientBracketsTheCoefficient : Prop :=
  (∀ (s : State) (tc : Nat), Ready s → tc ≤ 3 →
    Completes (.setTemperatureCoefficient tc) s
      [.cmd (fsbyte s.cfg.par.codes s.fs.pd s.fs.v true),
       .cmd (s.cfg.par.codes.setTc ||| BitVec.ofNat 8 (tc &&& 0x03)),
       .cmd (fsbyte s.cfg.par.codes s.fs.pd s.fs.v false)]
      { s.fs with h := false } { s.dcfg with tc := BitVec.ofNat 2 tc }) ∧
  (∀ (s : State) (tc : Nat), s.created = true → 4 ≤ tc →
    exec (.setTemperatureCoefficient tc) s = .next { s with result := some (.outOfRange .temperatureCoefficient tc) })

/-- R135: `setCursor` sends the column wrapped to 7 bits and then the bank wrapped to 6, for every operand, and writes
nothing; under the reference constants column 84 and bank 6 go out unchanged and 128 and 64 wrap to 0. -/
def Obligations.SetCursorWrapsNeverRejects : Prop :=
  (∀ (s : State) (column bank : Nat), Ready s →
    Completes (.setCursor column bank) s
      [.cmd (s.cfg.par.codes.setColumn ||| BitVec.ofNat 8 (column % 128)),
       .cmd (s.cfg.par.codes.setBank ||| BitVec.ofNat 8 (bank % 64))] s.fs s.dcfg) ∧
  (∀ s : State, Ready s → s.cfg.par.codes = Codes.reference →
    Completes (.setCursor 84 6) s [.cmd 0xD4#8, .cmd 0x46#8] s.fs s.dcfg ∧
    Completes (.setCursor 148 70) s [.cmd 0x94#8, .cmd 0x46#8] s.fs s.dcfg ∧
    Completes (.setCursor 128 64) s [.cmd 0x80#8, .cmd 0x40#8] s.fs s.dcfg)

/-- R136: `setPower` writes `FS.PD` and re-sends the full function byte, with the mirror's `V` and, at an operation
boundary, H = 0. -/
def Obligations.SetPowerResendsTheFunctionByte : Prop :=
  ∀ (s : State) (on : Bool), Ready s → s.fs.h = false →
    Completes (.setPower on) s [.cmd (fsbyte s.cfg.par.codes (!on) s.fs.v false)] { s.fs with pd := !on } s.dcfg

/-- R137, R138, R139: each display-mode operation sends one command and stores nothing. -/
def Obligations.DisplayModeOperationsSendOneCommand : Prop :=
  ∀ s : State, Ready s →
    Completes (.setInverted true) s [.cmd s.cfg.par.codes.displayInverse] s.fs s.dcfg ∧
    Completes (.setInverted false) s [.cmd s.cfg.par.codes.displayNormal] s.fs s.dcfg ∧
    Completes (.setBlanked true) s [.cmd s.cfg.par.codes.displayBlank] s.fs s.dcfg ∧
    Completes (.setBlanked false) s [.cmd s.cfg.par.codes.displayNormal] s.fs s.dcfg ∧
    Completes (.setTestPattern true) s [.cmd s.cfg.par.codes.displayAllOn] s.fs s.dcfg ∧
    Completes (.setTestPattern false) s [.cmd s.cfg.par.codes.displayNormal] s.fs s.dcfg

/-- R140: `rawCommand` sends any byte unchanged and writes no mirror state, whatever the byte. -/
def Obligations.RawCommandBypassesTheMirror : Prop :=
  ∀ (s : State) (b : Byte), Ready s → Completes (.rawCommand b) s [.cmd b] s.fs s.dcfg

/-- R141, R186: `rawData` and `writeData` send the whole buffer in one frame, nothing for an empty one. -/
def Obligations.BuffersAreSentWhole : Prop :=
  ∀ (s : State) (bs : List Byte), Ready s →
    Completes (.rawData bs) s (if bs = [] then [] else [.data bs]) s.fs s.dcfg ∧
    Completes (.writeData bs) s (if bs = [] then [] else [.data bs]) s.fs s.dcfg

/-! ## Initialization Sequencer -/

/-- R163: a successful `initialize`: the optional pulse, the bracket with the old power bit and the new addressing mode
around the three configuration writes, power on, display normal. -/
def Obligations.InitialiseRunsTheFixedSequence : Prop :=
  ∀ (s : State) (mode : AddressingMode) (contrast bias tc : Option Nat), Ready s →
    (∀ n ∈ contrast, n ≤ 127) → (∀ n ∈ bias, n ≤ 7) → (∀ n ∈ tc, n ≤ 3) →
    let c := s.cfg.par.codes
    let v := decide (mode = .vertical)
    let d : DisplayConfig :=
      ⟨contrast.elim s.dcfg.vop (BitVec.ofNat 7), bias.elim s.dcfg.bias (BitVec.ofNat 3),
        tc.elim s.dcfg.tc (BitVec.ofNat 2)⟩
    Completes (.initialise mode contrast bias tc) s
      ((if s.cfg.hasRst then [.resetPulse] else []) ++
        [.cmd (fsbyte c s.fs.pd v true),
         .cmd (c.setTc ||| BitVec.ofNat 8 (d.tc.toNat &&& 0x03)),
         .cmd (c.setBias ||| BitVec.ofNat 8 (d.bias.toNat &&& 0x07)),
         .cmd (c.setVop ||| BitVec.ofNat 8 (d.vop.toNat &&& 0x7F)),
         .cmd (fsbyte c s.fs.pd v false),
         .cmd (fsbyte c false v false),
         .cmd c.displayNormal])
      ⟨false, v, false⟩ d

/-- R162: the first override out of range, in the order contrast, bias, temperature coefficient, ends `initialize` with
nothing stored, not even the addressing mode, and nothing sent. -/
def Obligations.InitialiseChecksBeforeItStores : Prop :=
  ∀ (s : State) (mode : AddressingMode) (contrast bias tc : Option Nat), s.created = true →
    (∀ n, contrast = some n → 127 < n →
      exec (.initialise mode contrast bias tc) s = .next { s with result := some (.outOfRange .contrast n) }) ∧
    (∀ n, (∀ m ∈ contrast, m ≤ 127) → bias = some n → 7 < n →
      exec (.initialise mode contrast bias tc) s = .next { s with result := some (.outOfRange .bias n) }) ∧
    (∀ n, (∀ m ∈ contrast, m ≤ 127) → (∀ m ∈ bias, m ≤ 7) → tc = some n → 3 < n →
      exec (.initialise mode contrast bias tc) s =
        .next { s with result := some (.outOfRange .temperatureCoefficient n) })

/-- R170: `reset` sends the pulse alone, nothing without a reset line, and leaves the mirror as it was. It needs no
transport. -/
def Obligations.ResetPulsesAndKeepsTheMirror : Prop :=
  ∀ s : State, s.created = true →
    Completes .reset s (if s.cfg.hasRst then [.resetPulse] else []) s.fs s.dcfg

/-! ## Pixel/Text Writer -/

/-- R180, R181: `fill` sends 504 copies of the byte in frames of `FILL_CHUNK` bytes, the last one holding the remainder,
none empty, then column 0 and bank 0. -/
def Obligations.FillStreamsTheWholeMemory : Prop :=
  ∀ (s : State) (on : Bool), Ready s → s.cfg.par.wf = true →
    ∃ ds : List (List Byte),
      Completes (.fill on) s
        (ds.map .data ++ [.cmd (s.cfg.par.codes.setColumn ||| 0#8), .cmd (s.cfg.par.codes.setBank ||| 0#8)]) s.fs s.dcfg ∧
      ds.flatten = List.replicate 504 (if on then 0xFF#8 else 0x00#8) ∧
      ds.length = (504 + s.cfg.par.fillChunk - 1) / s.cfg.par.fillChunk ∧
      (∀ d ∈ ds, d ≠ [] ∧ d.length ≤ s.cfg.par.fillChunk) ∧
      (∀ d ∈ ds.dropLast, d.length = s.cfg.par.fillChunk)

/-- R183, R184: `drawText` sends one frame of the glyph's 8 bytes for each character in order: the glyph at `c - 32` for
32..127, the one at 95 for every other code point. -/
def Obligations.DrawTextSendsOneGlyphPerCharacter : Prop :=
  ∃ g : Nat → Fin 96, (∀ c, (g c).val = if 32 ≤ c ∧ c ≤ 127 then c - 32 else 95) ∧
    ∀ (s : State) (text : List Nat), Ready s →
      Completes (.drawText text) s (text.map fun c => .data (s.cfg.par.font.get (g c)).toList) s.fs s.dcfg

/-! ## Wire instructions -/

/-- R107, R109 to R117, R119: each command of the wire level goes out as one command frame with its opcode and its
masked parameter, and writes nothing of the mirror. That it can be requested on its own is the model's choice (log
entry 3). -/
def Obligations.WireCommandsSendOneFrame : Prop :=
  ∀ s : State, Ready s →
    (∀ pd v h, Completes (.wireFunctionSet pd v h) s [.cmd (fsbyte s.cfg.par.codes pd v h)] s.fs s.dcfg) ∧
    Completes .wireDisplayNormal s [.cmd s.cfg.par.codes.displayNormal] s.fs s.dcfg ∧
    Completes .wireDisplayInverse s [.cmd s.cfg.par.codes.displayInverse] s.fs s.dcfg ∧
    Completes .wireDisplayBlank s [.cmd s.cfg.par.codes.displayBlank] s.fs s.dcfg ∧
    Completes .wireDisplayAllOn s [.cmd s.cfg.par.codes.displayAllOn] s.fs s.dcfg ∧
    (∀ x : BitVec 7, Completes (.wireSetColumn x) s
      [.cmd (s.cfg.par.codes.setColumn ||| x.setWidth 8)] s.fs s.dcfg) ∧
    (∀ y : BitVec 6, Completes (.wireSetBank y) s [.cmd (s.cfg.par.codes.setBank ||| y.setWidth 8)] s.fs s.dcfg) ∧
    (∀ t : BitVec 2, Completes (.wireSetTc t) s [.cmd (s.cfg.par.codes.setTc ||| t.setWidth 8)] s.fs s.dcfg) ∧
    (∀ b : BitVec 3, Completes (.wireSetBias b) s [.cmd (s.cfg.par.codes.setBias ||| b.setWidth 8)] s.fs s.dcfg) ∧
    (∀ v : BitVec 7, Completes (.wireSetVop v) s [.cmd (s.cfg.par.codes.setVop ||| v.setWidth 8)] s.fs s.dcfg) ∧
    Completes .wireNop s [.cmd s.cfg.par.codes.nop] s.fs s.dcfg

/-- R118: a data byte goes out as it is, in a data frame, and writes nothing of the mirror. -/
def Obligations.WireDataByteSendsOneFrame : Prop :=
  ∀ (s : State) (d : Byte), Ready s → Completes (.wireDataByte d) s [.data [d]] s.fs s.dcfg

/-! ## The receiver -/

/-- R202: a pulse of a well-formed width brings the receiver from any status to its reset values and draws every DDRAM
byte afresh, a free value of a draw whose number no later pulse takes again, since nothing the receiver takes lowers the
count and every such pulse raises it. The reset values are those of log entry 4, the form of the free value that of
log entry 7. -/
def Obligations.ResetPulseResetsTheReceiver : Prop :=
  (∀ s : State, s.created = true → s.cfg.hasRst = true → 100 < s.cfg.par.tPulse → s.cfg.par.tPulse < 100000000 →
    ∃ t c, exec .reset s = .next t ∧ t.rx = .defined c ∧ c.pd = true ∧ c.v = false ∧ c.h = false ∧ c.de = .blank ∧
      c.x = 0 ∧ c.y = 0 ∧ c.tc = 0#2 ∧ c.bs = 0#3 ∧ c.vop = 0#7 ∧ c.draws = s.rx.draws + 1 ∧
      ∀ a, Memory.read c.ddram a = if a < 504 then some (Config.ddramByte s.rx.draws a) else none) ∧
  (∀ (p : Params) (rx : Receiver) (f : Sent), rx.draws ≤ (rx.take p f).draws)

/-- R204, R208: in either set a function-set command overwrites all three latches together and nothing else, and the
no-operation changes nothing. A wire instruction requested on its own is the model's choice (log entry 3); the decoding
is PRESUMED (log entry 4). -/
def Obligations.FunctionSetAndNopWorkInBothSets : Prop :=
  ∀ (s : State) (c : Ctl), Ready s → s.cfg.par.codes = Codes.reference → s.rx = .defined c →
    (∀ pd v h, ∃ t, exec (.wireFunctionSet pd v h) s = .next t ∧ t.rx = .defined { c with pd := pd, v := v, h := h }) ∧
    (∃ t, exec .wireNop s = .next t ∧ t.rx = .defined c)

/-- R205: in the basic set each display command selects its mode and changes nothing else. A wire instruction requested
on its own is the model's choice (log entry 3); the decoding is PRESUMED (log entry 4). -/
def Obligations.DisplayCommandsSelectTheMode : Prop :=
  ∀ (s : State) (c : Ctl), Ready s → s.cfg.par.codes = Codes.reference → s.rx = .defined c → c.h = false →
    (∃ t, exec .wireDisplayBlank s = .next t ∧ t.rx = .defined { c with de := .blank }) ∧
    (∃ t, exec .wireDisplayNormal s = .next t ∧ t.rx = .defined { c with de := .normal }) ∧
    (∃ t, exec .wireDisplayAllOn s = .next t ∧ t.rx = .defined { c with de := .allOn }) ∧
    (∃ t, exec .wireDisplayInverse s = .next t ∧ t.rx = .defined { c with de := .inverse })

/-- R206: in the basic set an address that names a location is taken, one that names none (a bank byte with any of bits
5:3 set among them) leaves the receiver unpredictable. A wire instruction requested on its own is the model's choice
(log entry 3); the decoding is PRESUMED (log entry 4). -/
def Obligations.AddressCommandsMoveTheCursor : Prop :=
  ∀ (s : State) (c : Ctl), Ready s → s.cfg.par.codes = Codes.reference → s.rx = .defined c → c.h = false →
    (∀ x : BitVec 7, ∃ t, exec (.wireSetColumn x) s = .next t ∧
      if hx : x.toNat < 84 then t.rx = .defined { c with x := ⟨x.toNat, hx⟩ } else t.rx = .unpredictable c.draws) ∧
    (∀ y : BitVec 6, ∃ t, exec (.wireSetBank y) s = .next t ∧
      if hy : y.toNat < 6 then t.rx = .defined { c with y := ⟨y.toNat, hy⟩ } else t.rx = .unpredictable c.draws)

/-- R207: in the extended set each configuration command overwrites its register and nothing else. A wire instruction
requested on its own is the model's choice (log entry 3); the decoding is PRESUMED (log entry 4). -/
def Obligations.ConfigurationCommandsOverwriteOneRegister : Prop :=
  ∀ (s : State) (c : Ctl), Ready s → s.cfg.par.codes = Codes.reference → s.rx = .defined c → c.h = true →
    (∀ v, ∃ t, exec (.wireSetTc v) s = .next t ∧ t.rx = .defined { c with tc := v }) ∧
    (∀ v, ∃ t, exec (.wireSetBias v) s = .next t ∧ t.rx = .defined { c with bs := v }) ∧
    (∀ v, ∃ t, exec (.wireSetVop v) s = .next t ∧ t.rx = .defined { c with vop := v })

/-- R209: a command byte that classifies as undefined leaves the receiver unpredictable, and from there no command or data
frame leads back; only a reset pulse does. The status is the spec's own addition (R209); which bytes are undefined is
PRESUMED (log entry 4). -/
def Obligations.UnpredictableUntilAResetPulse : Prop :=
  (∀ (s : State) (c : Ctl) (b : Byte), Ready s → s.rx = .defined c →
    classify s.cfg.par.codes c.h b = .undefined →
    ∃ t, exec (.rawCommand b) s = .next t ∧ t.rx = .unpredictable c.draws ∧ t.fs = s.fs ∧ t.dcfg = s.dcfg) ∧
  (∀ (i : Instr) (s t : State) (n : Nat), s.rx = .unpredictable n → exec i s = .next t →
    i.pulses = false ∨ s.cfg.hasRst = false → t.rx = .unpredictable n) ∧
  (∀ (s : State) (n : Nat), s.created = true → s.rx = .unpredictable n → s.cfg.hasRst = true → s.cfg.par.wf = true →
    ∃ t c, exec .reset s = .next t ∧ t.rx = .defined c)

/-- R210: what a byte sent for one instruction set becomes in the other. The bytes are told through wire instructions
requested on their own, which is the model's choice (log entry 3); the decoding is the spec's general knowledge
(log entry 4). -/
def Obligations.BytesOfTheOtherSetAreMisread : Prop :=
  ∀ (s : State) (c : Ctl), Ready s → s.cfg.par.codes = Codes.reference → s.rx = .defined c →
    (c.h = true →
      (∀ x, ∃ t, exec (.wireSetColumn x) s = .next t ∧ t.rx = .defined { c with vop := x }) ∧
      (∀ y, ∃ t, exec (.wireSetBank y) s = .next t ∧ t.rx = .unpredictable c.draws) ∧
      (∀ i ∈ [Instr.wireDisplayBlank, .wireDisplayAllOn, .wireDisplayNormal, .wireDisplayInverse],
        ∃ t, exec i s = .next t ∧ t.rx = .unpredictable c.draws)) ∧
    (∀ pd v h, ∃ t, exec (.wireFunctionSet pd v h) s = .next t ∧ t.rx = .defined { c with pd := pd, v := v, h := h }) ∧
    (c.h = false →
      (∀ v : BitVec 7, ∃ t, exec (.wireSetVop v) s = .next t ∧
        if hv : v.toNat < 84 then t.rx = .defined { c with x := ⟨v.toNat, hv⟩ }
        else t.rx = .unpredictable c.draws) ∧
      (∀ b, ∃ t, exec (.wireSetBias b) s = .next t ∧ t.rx = .unpredictable c.draws) ∧
      (∀ tc, ∃ t, exec (.wireSetTc tc) s = .next t ∧ t.rx = .unpredictable c.draws)) ∧
    (∀ d, ∃ t t', exec (.wireDataByte d) s = .next t ∧
      exec (.wireDataByte d) { s with rx := .defined { c with h := !c.h } } = .next t' ∧
      ∃ c', t.rx = .defined c' ∧ t'.rx = .defined { c' with h := !c.h })

/-- R211: a data byte is stored at the cursor, every other location keeps its byte, and the cursor advances along the bank
(V = 0) or down the column (V = 1); the other fields, whatever `H`, `PD` and `DE` are, stay. The independence of the
latches (G12, G13) and the wrap from (83, 5) to (0, 0) (R212, G10) are the spec's general knowledge, PRESUMED (log
entry 4); a data byte requested on its own is the model's choice (log entry 3). -/
def Obligations.DataByteIsStoredAtTheCursor : Prop :=
  ∀ (s : State) (c : Ctl) (d : Byte), Ready s → s.rx = .defined c →
    ∃ t c', exec (.wireDataByte d) s = .next t ∧ t.rx = .defined c' ∧
      Memory.read c'.ddram (c.y.val * 84 + c.x.val) = some d ∧
      (∀ a, a ≠ c.y.val * 84 + c.x.val → Memory.read c'.ddram a = Memory.read c.ddram a) ∧
      (c.v = false → c.x.val < 83 → c'.x.val = c.x.val + 1 ∧ c'.y = c.y) ∧
      (c.v = false → c.x.val = 83 → c'.x.val = 0 ∧ c'.y.val = if c.y.val < 5 then c.y.val + 1 else 0) ∧
      (c.v = true → c.y.val < 5 → c'.y.val = c.y.val + 1 ∧ c'.x = c.x) ∧
      (c.v = true → c.y.val = 5 → c'.y.val = 0 ∧ c'.x.val = if c.x.val < 83 then c.x.val + 1 else 0) ∧
      c'.pd = c.pd ∧ c'.v = c.v ∧ c'.h = c.h ∧ c'.de = c.de ∧ c'.tc = c.tc ∧ c'.bs = c.bs ∧ c'.vop = c.vop

/-- R212: the scan is a cycle of exactly 504 locations in either mode: after the last location the cursor is at (0, 0), 504
steps from any cursor lead back to it, and on the way every location is visited exactly once. All of it rests on the
wrap from (83, 5) to (0, 0), which is the spec's general knowledge and decision (G10, D17), PRESUMED (log entry 4). -/
def Obligations.CursorScanIsA504Cycle : Prop :=
  ∀ v : Bool, advance v (83, 5) = (0, 0) ∧
    ∀ p : Fin 84 × Fin 6, (advance v)^[504] p = p ∧ ∀ q, ∃! k, k < 504 ∧ (advance v)^[k] p = q

/-- R187, R211, R212: the bytes of a buffer, and the glyphs of a text one after the other, go in order to the locations
the cursor visits from where it stands; every other location keeps its byte; the cursor ends as many places on, and no
other field changes. That up to 504 bytes each stay where they went rests on the wrap of R212 (G10, D17), that they land
whatever `H` and `PD` are on G12 and G13, all the spec's general knowledge, PRESUMED (log entry 4). -/
def Obligations.BuffersLandAlongTheScan : Prop :=
  ∀ (s : State) (c : Ctl) (bs : List Byte) (i : Instr), Ready s → s.rx = .defined c →
    (i = .rawData bs ∨ i = .writeData bs ∨
      ∃ text, i = .drawText text ∧ bs = text.flatMap fun k => (s.cfg.par.font.get (glyphIndex k)).toList) →
    ∃ t c', exec i s = .next t ∧ t.rx = .defined c' ∧
      c'.cursor = (advance c.v)^[bs.length] c.cursor ∧
      (∀ a, (∀ k < bs.length, a ≠ ddramIndex ((advance c.v)^[k] c.cursor).1 ((advance c.v)^[k] c.cursor).2) →
        Memory.read c'.ddram a = Memory.read c.ddram a) ∧
      (bs.length ≤ 504 → ∀ k (hk : k < bs.length),
        Memory.read c'.ddram (ddramIndex ((advance c.v)^[k] c.cursor).1 ((advance c.v)^[k] c.cursor).2) = some bs[k]) ∧
      { c' with x := c.x, y := c.y, ddram := c.ddram } = c

/-- R50, R53: an instruction that sends no data byte stores nothing: while the receiver stays defined, every byte of the
display memory reads as before, unless a reset pulse made it unknown. That no command byte stores is the receiver's
decoding, the spec's general knowledge, PRESUMED (log entry 4). -/
def Obligations.OnlyDataBytesStore : Prop :=
  ∀ (i : Instr) (s t : State) (c c' : Ctl), i.storesData = false → i.pulses = false ∨ s.cfg.hasRst = false →
    exec i s = .next t → s.rx = .defined c → t.rx = .defined c' → ∀ a, Memory.read c'.ddram a = Memory.read c.ddram a

/-- R213, R65: consecutive data frames have the effect of one frame with the concatenation of their bytes.
The rule is the spec's inference from its receiver (R201, D27), whose taking of data is PRESUMED (log entry 4). -/
def Obligations.ChunkingDoesNotMatter : Prop :=
  ∀ (p : Params) (rx : Receiver) (ds ds' : List (List Byte)), ds.flatten = ds'.flatten →
    (delivered (ds.map .data)).foldl (Receiver.take p) rx = (delivered (ds'.map .data)).foldl (Receiver.take p) rx

/-- R216: the receiver after a successful `initialize`, from any defined state, with and without a reset line; and the
mirror agrees with it (R214 (a)). The cursor and the memory after the pulse are those of log entries 4 and 7. -/
def Obligations.InitialiseConfiguresTheReceiver : Prop :=
  ∀ (s : State) (c : Ctl) (mode : AddressingMode) (contrast bias tc : Option Nat), Ready s →
    s.cfg.par.codes = Codes.reference → s.cfg.par.wf = true → s.rx = .defined c →
    (∀ n ∈ contrast, n ≤ 127) → (∀ n ∈ bias, n ≤ 7) → (∀ n ∈ tc, n ≤ 3) →
    ∃ t c', exec (.initialise mode contrast bias tc) s = .next t ∧ t.rx = .defined c' ∧
      c'.pd = false ∧ c'.v = decide (mode = .vertical) ∧ c'.h = false ∧ c'.de = .normal ∧
      c'.tc = t.dcfg.tc ∧ c'.bs = t.dcfg.bias ∧ c'.vop = t.dcfg.vop ∧
      (s.cfg.hasRst = true → c'.x = 0 ∧ c'.y = 0 ∧ c'.draws = c.draws + 1 ∧
        ∀ a < 504, Memory.read c'.ddram a = some (Config.ddramByte c.draws a)) ∧
      (s.cfg.hasRst = false → c'.x = c.x ∧ c'.y = c.y ∧ c'.ddram = c.ddram) ∧
      Sync t c'

/-- R214 (b): the operations that send a function byte deliver a pending addressing mode (reference constants,
infallible transport, `FS.H` = 0). The receiver's decoding is PRESUMED (log entry 4). -/
def Obligations.FunctionByteRestoresSync : Prop :=
  ∀ (s : State) (c : Ctl) (i : Instr), Ready s → s.cfg.par.codes = Codes.reference → s.rx = .defined c →
    s.fs.h = false → SyncModV s c →
    (∃ on, i = .setPower on) ∨ (∃ n ≤ 127, i = .setContrast n) ∨ (∃ n ≤ 7, i = .setBias n) ∨
      (∃ n ≤ 3, i = .setTemperatureCoefficient n) →
    ∃ t c', exec i s = .next t ∧ t.rx = .defined c' ∧ Sync t c'

/-- R214 (c), (d): the operations that write no register preserve the agreement of mirror and receiver, and
`setAddressingMode` preserves it but for `V`, and wholly only where the value does not change (reference constants,
infallible transport, `FS.H` = 0). The receiver's decoding is PRESUMED (log entry 4). -/
def Obligations.SyncIsPreserved : Prop :=
  ∀ (s : State) (c : Ctl), Ready s → s.cfg.par.codes = Codes.reference → s.rx = .defined c → s.fs.h = false →
    SyncModV s c →
    (∀ i : Instr, (∃ column bank, column % 128 ≤ 83 ∧ bank % 64 ≤ 5 ∧ i = .setCursor column bank) ∨
        (∃ on, i = .setInverted on) ∨ (∃ on, i = .setBlanked on) ∨ (∃ on, i = .setTestPattern on) ∨
        (∃ on, i = .fill on) ∨ (∃ text, i = .drawText text) ∨ (∃ bs, i = .writeData bs) ∨ (∃ bs, i = .rawData bs) →
      ∃ t c', exec i s = .next t ∧ t.rx = .defined c' ∧ SyncModV t c' ∧ (Sync s c → Sync t c')) ∧
    (∀ vertical, ∃ t, exec (.setAddressingMode vertical) s = .next t ∧ t.rx = .defined c ∧ SyncModV t c ∧
      (Sync s c → (Sync t c ↔ vertical = s.fs.v)))

/-- R214 (e), (f), (g): `reset` with a line does not touch the mirror, so a mirror that says powered on no longer agrees;
a raw function-set byte with H = 1 breaks the agreement; a cursor outside the display leaves the receiver
unpredictable. The premises are those of R214: the reference constants and an infallible transport, with `FS.H` = 0, and
for the reset a well-formed record. That the pulse leaves V = 0, TC = 0, BS = 0 and VOP = 0 (R202, G7) and how the
receiver decodes the bytes are the spec's general knowledge, PRESUMED (log entry 4); PD = 1 is the source's. -/
def Obligations.SyncIsLost : Prop :=
  ∀ (s : State) (c : Ctl), Ready s → s.cfg.par.codes = Codes.reference → s.rx = .defined c → s.fs.h = false →
    (s.cfg.hasRst = true → s.cfg.par.wf = true →
      ∃ t c', exec .reset s = .next t ∧ t.rx = .defined c' ∧ t.fs = s.fs ∧ t.dcfg = s.dcfg ∧ c'.pd = true ∧
        c'.v = false ∧ c'.tc = 0#2 ∧ c'.bs = 0#3 ∧ c'.vop = 0#7 ∧ (s.fs.pd = false → ¬ SyncModV t c')) ∧
    (∃ t c', exec (.rawCommand 0x21#8) s = .next t ∧ t.rx = .defined c' ∧ ¬ SyncModV t c') ∧
    (c.h = false → ∀ column bank, 83 < column % 128 ∨ 5 < bank % 64 →
      ∃ t, exec (.setCursor column bank) s = .next t ∧ t.rx = .unpredictable c.draws)

/-- R215: a semantic operation that finds the receiver in the basic set leaves it there, and on the way every basic-set
command it emits is decoded with the receiver's H = 0 and every extended-set command with H = 1, as an instruction of
that set if as any. The decoding is PRESUMED (log entry 4). -/
def Obligations.SemanticOperationsReturnToTheBasicSet : Prop :=
  ∀ (i : Instr) (s t : State) (c : Ctl), i.semantic = true → s.cfg.par.codes = Codes.reference →
    s.cfg.par.transportFallible = false → s.fs.h = false → s.rx = .defined c → c.h = false → exec i s = .next t →
    (∀ c', t.rx = .defined c' → c'.h = false) ∧
    ∀ (before after : List Sent) (b : Byte) (k : Ctl),
      t.frames = s.frames ++ (before ++ ⟨.cmd b, true⟩ :: after) →
      before.foldl (Receiver.take s.cfg.par) s.rx = .defined k →
      ∃ set, i.commandSets[(before.filter (·.frame.isCommand)).length]? = some set ∧ set.admits k.h = true ∧
        ∀ set', (classify s.cfg.par.codes k.h b).commandSet = some set' → set' = set

/-- S4, R180, D17: after `fill` on a receiver in the basic set, wherever its cursor stood, every location of the display
memory holds the fill byte, the cursor is at (0, 0), and no other field has changed. The coverage rests on the wrap of
R212 (G10, D17), the landing of data whatever `PD` is on G13, the decoding of the two commands on the reference
constants: all PRESUMED (log entry 4). -/
def Obligations.FillPaintsEveryLocation : Prop :=
  ∀ (s : State) (c : Ctl) (on : Bool), Ready s → s.cfg.par.codes = Codes.reference → s.cfg.par.wf = true →
    s.rx = .defined c → c.h = false →
    ∃ t c', exec (.fill on) s = .next t ∧ t.rx = .defined c' ∧ c'.x = 0 ∧ c'.y = 0 ∧
      (∀ x y, Memory.read c'.ddram (ddramIndex x y) = some (if on then 0xFF#8 else 0x00#8)) ∧
      { c' with x := c.x, y := c.y, ddram := c.ddram } = c

/-! ## The whole machine -/

/-- R130 (f), R234: where a block exists every instruction but `create` ends with a result and runs to a next state,
whatever its operands, the state and the transport's answers. -/
def Obligations.EveryOperationCompletes : Prop :=
  ∀ (i : Instr) (s : State), i.isCreate = false → s.created = true →
    ∃ t, exec i s = .next t ∧ t.result ≠ none ∧ t.result ≠ some .configurationError ∧
      (s.cfg.par.transportFallible = false → t.result ≠ some .transportError)

/-- R23, R26, R28, R103, R160: what holds at an operation boundary holds at the next one. -/
def Obligations.StepKeepsTheBoundaryInvariant : Prop :=
  ∀ s t : State, AtRest s → step s = .next t → AtRest t

/-- R34: the boundary invariant holds at reset. -/
def Obligations.ResetIsAtRest : Prop := AtRest State.reset

/-- R24, R35: which instructions can change a register of the mirror or the configuration; all others leave it. -/
def Obligations.OnlyTheNamedOperationsWriteTheMirror : Prop :=
  ∀ (i : Instr) (s t : State), exec i s = .next t → i.isCreate = false →
    t.cfg = s.cfg ∧ t.created = s.created ∧ t.offered = s.offered ∧ t.requests = s.requests ∧
    (t.fs.pd ≠ s.fs.pd → (∃ m c b tc, i = .initialise m c b tc) ∨ ∃ on, i = .setPower on) ∧
    (t.fs.v ≠ s.fs.v → (∃ m c b tc, i = .initialise m c b tc) ∨ ∃ v, i = .setAddressingMode v) ∧
    (t.fs.h ≠ s.fs.h → t.fs.h = false) ∧
    (t.dcfg.vop ≠ s.dcfg.vop → (∃ m n b tc, i = .initialise m (some n) b tc) ∨ ∃ n, i = .setContrast n) ∧
    (t.dcfg.bias ≠ s.dcfg.bias → (∃ m c n tc, i = .initialise m c (some n) tc) ∨ ∃ n, i = .setBias n) ∧
    (t.dcfg.tc ≠ s.dcfg.tc → (∃ m c b n, i = .initialise m c b (some n)) ∨ ∃ n, i = .setTemperatureCoefficient n) ∧
    (t.lines.rst ≠ s.lines.rst → i.pulses = true ∧ s.cfg.hasRst = true) ∧
    (t.lines.cs ≠ s.lines.cs → s.cfg.hasCs = true)

/-- R22: after a semantic operation other than `setAddressingMode` that ended with `Ok`, the last function-set byte it
emitted, if it emitted one, is the one built from the mirror it leaves. Which command bytes are function sets is told by
the reference constants, PRESUMED (log entry 4). -/
def Obligations.LastFunctionByteIsTheMirrors : Prop :=
  ∀ (i : Instr) (s t : State) (b : Byte), i.semantic = true → (∀ v, i ≠ .setAddressingMode v) →
    s.cfg.par.codes = Codes.reference → s.fs.h = false → exec i s = .next t → t.result = some .ok →
    ((t.frames.drop s.frames.length).filterMap (Sent.functionSetByte s.cfg.par.codes)).getLast? = some b →
    b = fsbyte s.cfg.par.codes t.fs.pd t.fs.v t.fs.h

/-- R232: an operation that ends with `OutOfRange` has no effect but the result. -/
def Obligations.OutOfRangeHasNoEffect : Prop :=
  ∀ (i : Instr) (s t : State) (which : Operand) (value : Nat), exec i s = .next t →
    t.result = some (.outOfRange which value) → t = { s with result := some (.outOfRange which value) }

/-- R233: a failed transfer cuts the trace there and is the one thing that ends an operation with `TransportError`; its
frame is closed as any other, it leaves the receiver unpredictable, and it leaves the mirror exactly as the same operation
would have left it with a transport that does not fail. -/
def Obligations.TransportErrorLeavesTheIntendedMirror : Prop :=
  (∀ (i : Instr) (s t : State) (gs : List Sent), exec i s = .next t → t.frames = s.frames ++ gs →
    (∀ g ∈ gs.dropLast, g.delivered = true) ∧
    (t.result = some .transportError ↔ ∃ g ∈ gs, g.delivered = false)) ∧
  ∀ (i : Instr) (s t : State), s.fs.h = false → exec i s = .next t → t.result = some .transportError →
    (∃ n, t.rx = .unpredictable n) ∧ t.fs.h = false ∧
    ∃ (u : State) (gs : List Frame) (f : Frame) (rest : List Frame),
      exec i s.infallible = .next u ∧ u.result = some .ok ∧ t.fs = u.fs ∧ t.dcfg = u.dcfg ∧
      u.frames = s.frames ++ delivered (gs ++ f :: rest) ∧
      t.frames = s.frames ++ delivered gs ++ [Sent.mk f false] ∧
      t.events = s.events ++ (delivered gs ++ [Sent.mk f false]).flatMap (Sent.events s.cfg)

/-- R201, R62, R10: a step only adds to the traces, the pin trace by the expansion of the frames it adds, and the receiver
is the left fold of its step over those frames. -/
def Obligations.ReceiverFoldsOverTheTrace : Prop :=
  ∀ s t : State, step s = .next t →
    ∃ gs : List Sent, t.frames = s.frames ++ gs ∧ t.events = s.events ++ gs.flatMap (Sent.events s.cfg) ∧
      t.rx = gs.foldl (Receiver.take s.cfg.par) s.rx

/-- R103: what a step adds to the pin trace keeps the chip-select discipline and ends deasserted, or holds no chip-select
event at all where the line is absent; every bracket is one transfer. -/
def Obligations.ChipSelectBracketsOneTransfer : Prop :=
  ∀ s t : State, step s = .next t → ∃ es, t.events = s.events ++ es ∧
    (s.cfg.hasCs = true → Select.run s.cfg.par.lvlCsAssert .idle es = some .idle) ∧
    (s.cfg.hasCs = false → ∀ e ∈ es, Event.notCs e = true)

/-- R27: without the chip-select line an operation does everything it does with it, less the `PIN` events of that line. -/
def Obligations.AbsentChipSelectRemovesOnlyItsEvents : Prop :=
  ∀ (i : Instr) (s t : State), i.isCreate = false → s.cfg.hasCs = true → exec i s = .next t →
    ∃ u es, exec i s.withoutCs = .next u ∧ t.events = s.events ++ es ∧ u.events = s.events ++ es.filter Event.notCs ∧
      u.lines.cs = s.lines.cs ∧ u.lines.dc = t.lines.dc ∧ u.lines.rst = t.lines.rst ∧
      { u with events := t.events, lines := t.lines, cfg := t.cfg } = t

/-- R209: LCDENC does not depend on the receiver: with any other receiver the same operation answers the same state but
for the receiver. -/
def Obligations.BlockIgnoresTheReceiver : Prop :=
  ∀ (i : Instr) (s t : State) (rx : Receiver), exec i s = .next t →
    ∃ rx', exec i { s with rx := rx } = .next { t with rx := rx' }

/-- R140, R141 and log entry 3: a wire instruction requested on its own does what the raw operation with its byte does. -/
def Obligations.WireInstructionIsItsRawByte : Prop :=
  ∀ (i : Instr) (s : State) (b : Byte),
    (encode s.cfg.par.codes i = .command b → exec i s = exec (.rawCommand b) s) ∧
    (encode s.cfg.par.codes i = .data b → exec i s = exec (.rawData [b]) s)

/-- R106: with a transport that may fail, the transfers of an operation take the listed answers in order, one each, and a
free value once none is left; a reset pulse takes none and cannot fail; and where every transfer succeeds the operation
does what it does on a transport that cannot fail. That the answers are a list is the model's choice (log entry 8). -/
def Obligations.TransfersTakeTheAnswersInOrder : Prop :=
  ∀ (i : Instr) (s t : State) (gs : List Sent), i.isCreate = false → s.cfg.par.transportFallible = true →
    exec i s = .next t → t.frames = s.frames ++ gs →
    t.answers = s.answers.drop (gs.filter (·.frame.isTransfer)).length ∧
    (∀ before g after, gs = before ++ g :: after →
      g.delivered =
        if g.frame.isTransfer then
          s.answers[(before.filter (·.frame.isTransfer)).length]?.getD
            (Config.transportAnswer (s.frames.length + before.length))
        else true) ∧
    ((∀ g ∈ gs, g.delivered = true) →
      exec i s.infallible = .next { t with cfg := s.infallible.cfg, answers := s.answers })
end

