-- ==== Sys2Proof/Laws/Operands.lean ====
section
/-! SUPPORT. The operand policies: what a check accepts and refuses, what a mask leaves, where a glyph is, and how `fill`
cuts its bytes. -/

namespace Sys2Proof.Machine

/-! ## Validate -/

theorem checkVop_ok {n : Nat} (h : n ≤ 127) : checkVop n = .ok (BitVec.ofNat 7 n) :=
  if_neg (Nat.not_lt.2 h)

theorem checkVop_error {n : Nat} (h : 127 < n) : checkVop n = .error (.outOfRange .contrast n) := if_pos h

theorem checkBias_ok {n : Nat} (h : n ≤ 7) : checkBias n = .ok (BitVec.ofNat 3 n) := if_neg (Nat.not_lt.2 h)

theorem checkBias_error {n : Nat} (h : 7 < n) : checkBias n = .error (.outOfRange .bias n) := if_pos h

theorem checkTc_ok {n : Nat} (h : n ≤ 3) : checkTc n = .ok (BitVec.ofNat 2 n) := if_neg (Nat.not_lt.2 h)

theorem checkTc_error {n : Nat} (h : 3 < n) : checkTc n = .error (.outOfRange .temperatureCoefficient n) := if_pos h

/-- Every check, when it refuses, refuses with `OutOfRange`. -/
theorem checkVop_cases (n : Nat) :
    (n ≤ 127 ∧ checkVop n = .ok (BitVec.ofNat 7 n)) ∨ (127 < n ∧ checkVop n = .error (.outOfRange .contrast n)) := by
  rcases Nat.lt_or_ge 127 n with h | h
  · exact .inr ⟨h, checkVop_error h⟩
  · exact .inl ⟨h, checkVop_ok h⟩

theorem checkBias_cases (n : Nat) :
    (n ≤ 7 ∧ checkBias n = .ok (BitVec.ofNat 3 n)) ∨ (7 < n ∧ checkBias n = .error (.outOfRange .bias n)) := by
  rcases Nat.lt_or_ge 7 n with h | h
  · exact .inr ⟨h, checkBias_error h⟩
  · exact .inl ⟨h, checkBias_ok h⟩

theorem checkTc_cases (n : Nat) :
    (n ≤ 3 ∧ checkTc n = .ok (BitVec.ofNat 2 n)) ∨
      (3 < n ∧ checkTc n = .error (.outOfRange .temperatureCoefficient n)) := by
  rcases Nat.lt_or_ge 3 n with h | h
  · exact .inr ⟨h, checkTc_error h⟩
  · exact .inl ⟨h, checkTc_ok h⟩

/-- An optional operand that is absent or accepted gives its value, the old one where absent. -/
theorem checkOptional_ok {w : Nat} {check : Nat → Except OpResult (BitVec w)} {o : Option Nat} {old : BitVec w}
    (h : ∀ n ∈ o, check n = .ok (BitVec.ofNat w n)) :
    checkOptional check o old = .ok (o.elim old (BitVec.ofNat w)) := by
  cases o with
  | none => rfl
  | some n => exact h n rfl

/-- All overrides in range: the new configuration. -/
theorem checkConfig_ok {contrast bias tc : Option Nat} (old : DisplayConfig) (h1 : ∀ n ∈ contrast, n ≤ 127)
    (h2 : ∀ n ∈ bias, n ≤ 7) (h3 : ∀ n ∈ tc, n ≤ 3) :
    checkConfig contrast bias tc old =
      .ok ⟨contrast.elim old.vop (BitVec.ofNat 7), bias.elim old.bias (BitVec.ofNat 3),
        tc.elim old.tc (BitVec.ofNat 2)⟩ := by
  unfold checkConfig
  rw [checkOptional_ok fun n hn => checkVop_ok (h1 n hn)]
  simp only
  rw [checkOptional_ok fun n hn => checkBias_ok (h2 n hn)]
  simp only
  rw [checkOptional_ok fun n hn => checkTc_ok (h3 n hn)]

/-- A refusal of the configuration is an `OutOfRange`. -/
theorem checkConfig_error {contrast bias tc : Option Nat} {old : DisplayConfig} {e : OpResult}
    (h : checkConfig contrast bias tc old = .error e) : ∃ w n, e = .outOfRange w n := by
  have key : ∀ {w : Nat} {check : Nat → Except OpResult (BitVec w)} {o : Option Nat} {old : BitVec w} {e : OpResult},
      (∀ n e, check n = .error e → ∃ w n, e = .outOfRange w n) → checkOptional check o old = .error e →
      ∃ w n, e = .outOfRange w n := by
    intro w check o old e hc h
    cases o with
    | none => cases h
    | some n => exact hc n e h
  unfold checkConfig at h
  split at h
  · rename_i e' h'
    cases h
    exact key (fun n e hn => by rcases checkVop_cases n with ⟨-, h⟩ | ⟨-, h⟩ <;> rw [h] at hn <;> cases hn; exact ⟨_, _, rfl⟩) h'
  · split at h
    · rename_i e' h'
      cases h
      exact key (fun n e hn => by rcases checkBias_cases n with ⟨-, h⟩ | ⟨-, h⟩ <;> rw [h] at hn <;> cases hn; exact ⟨_, _, rfl⟩) h'
    · split at h
      · rename_i e' h'
        cases h
        exact key (fun n e hn => by rcases checkTc_cases n with ⟨-, h⟩ | ⟨-, h⟩ <;> rw [h] at hn <;> cases hn; exact ⟨_, _, rfl⟩) h'
      · cases h

/-! ## Wrap -/

/-- R188: `column & 0x7F` is `column mod 128`. -/
theorem columnByte_eq (c : Codes) (n : Nat) : columnByte c n = c.setColumn ||| BitVec.ofNat 8 (n % 128) := by
  have := Nat.and_two_pow_sub_one_eq_mod n 7
  norm_num at this
  simp [columnByte, instrByte, this]

/-- R188: `bank & 0x3F` is `bank mod 64`. -/
theorem bankByte_eq (c : Codes) (n : Nat) : bankByte c n = c.setBank ||| BitVec.ofNat 8 (n % 64) := by
  have := Nat.and_two_pow_sub_one_eq_mod n 6
  norm_num at this
  simp [bankByte, instrByte, this]

/-- R26: the mask never changes a stored value. -/
theorem vopByte_eq (c : Codes) (v : BitVec 7) : vopByte c v = c.setVop ||| v.setWidth 8 := by
  have := Nat.and_two_pow_sub_one_eq_mod v.toNat 7
  norm_num at this
  have h : v.toNat % 128 = v.toNat := Nat.mod_eq_of_lt v.isLt
  simp [vopByte, instrByte, this, h]

theorem biasByte_eq (c : Codes) (v : BitVec 3) : biasByte c v = c.setBias ||| v.setWidth 8 := by
  have := Nat.and_two_pow_sub_one_eq_mod v.toNat 3
  norm_num at this
  have h : v.toNat % 8 = v.toNat := Nat.mod_eq_of_lt v.isLt
  simp [biasByte, instrByte, this, h]

theorem tcByte_eq (c : Codes) (v : BitVec 2) : tcByte c v = c.setTc ||| v.setWidth 8 := by
  have := Nat.and_two_pow_sub_one_eq_mod v.toNat 2
  norm_num at this
  have h : v.toNat % 4 = v.toNat := Nat.mod_eq_of_lt v.isLt
  simp [tcByte, instrByte, this, h]

/-! ## Text and fill -/

/-- R184: the glyph of a code point. -/
theorem glyphIndex_val (c : Nat) : (glyphIndex c).val = if 32 ≤ c ∧ c ≤ 127 then c - 32 else 95 := by
  simp only [glyphIndex, printable, Config.fontFirst, Config.fontLast]
  split <;> rfl

/-- R54: a glyph has 8 bytes. -/
@[simp] theorem fontGlyph_length (p : Params) (g : Fin 96) : (fontGlyph p g).length = 8 := by
  simp [fontGlyph]

/-- The chunks add up to what remained. -/
theorem chunkSizes_sum {chunk : Nat} (hc : 1 ≤ chunk) (fuel remaining : Nat) (h : remaining ≤ fuel) :
    (chunkSizes chunk fuel remaining).sum = remaining := by
  induction fuel generalizing remaining with
  | zero => simp [chunkSizes]; omega
  | succ fuel ih =>
    unfold chunkSizes
    split
    · simp [*]
    · rw [List.sum_cons, ih _ (by omega)]
      omega

/-- No chunk is empty and none is longer than the chunk size. -/
theorem chunkSizes_bounds {chunk : Nat} (hc : 1 ≤ chunk) (fuel remaining : Nat) :
    ∀ n ∈ chunkSizes chunk fuel remaining, 1 ≤ n ∧ n ≤ chunk := by
  induction fuel generalizing remaining with
  | zero => simp [chunkSizes]
  | succ fuel ih =>
    unfold chunkSizes
    split
    · simp
    · intro n hn
      rcases List.mem_cons.1 hn with rfl | hn
      · omega
      · exact ih _ n hn

/-- The number of chunks is the quotient rounded up. -/
theorem chunkSizes_length {chunk : Nat} (hc : 1 ≤ chunk) (fuel remaining : Nat) (h : remaining ≤ fuel) :
    (chunkSizes chunk fuel remaining).length = (remaining + chunk - 1) / chunk := by
  induction fuel generalizing remaining with
  | zero =>
    obtain rfl : remaining = 0 := by omega
    simp [chunkSizes, Nat.div_eq_of_lt (show chunk - 1 < chunk by omega)]
  | succ fuel ih =>
    unfold chunkSizes
    split
    · subst remaining
      simp [Nat.div_eq_of_lt (show chunk - 1 < chunk by omega)]
    · rw [List.length_cons, ih _ (by omega)]
      rcases Nat.le_total chunk remaining with hle | hle
      · rw [Nat.min_eq_left hle, show remaining + chunk - 1 = (remaining - chunk + chunk - 1) + chunk by omega,
          Nat.add_div_right _ (by omega)]
      · rw [Nat.min_eq_right hle, Nat.sub_self, Nat.div_eq_of_lt (show 0 + chunk - 1 < chunk by omega),
          show remaining + chunk - 1 = (remaining - 1) + chunk by omega, Nat.add_div_right _ (by omega),
          Nat.div_eq_of_lt (show remaining - 1 < chunk by omega)]

/-- Every chunk but the last has the full size. -/
theorem chunkSizes_dropLast {chunk : Nat} (fuel remaining : Nat) :
    ∀ n ∈ (chunkSizes chunk fuel remaining).dropLast, n = chunk := by
  induction fuel generalizing remaining with
  | zero => simp [chunkSizes]
  | succ fuel ih =>
    unfold chunkSizes
    split
    · simp
    · intro n hn
      rcases hl : chunkSizes chunk fuel (remaining - min chunk remaining) with _ | ⟨k, ks⟩
      · simp [hl] at hn
      · rw [hl, List.dropLast_cons_of_ne_nil (by simp)] at hn
        rcases List.mem_cons.1 hn with rfl | hn
        · rcases Nat.le_total chunk remaining with hle | hle
          · exact Nat.min_eq_left hle
          · rw [Nat.min_eq_right hle, Nat.sub_self] at hl
            cases fuel <;> simp [chunkSizes] at hl
        · exact ih _ n (hl ▸ hn)

end Sys2Proof.Machine
end

