-- ==== Sys2Proof/Laws/State.lean ====
section
/-! SUPPORT. Every field of the state after every update of it: one lemma each, true by definition, so that no proof
unfolds a record update. -/

namespace Sys2Proof.Machine

variable (s : State)

@[simp] theorem State.setPd_created (b : Bool) : (s.setPd b).created = s.created := rfl
@[simp] theorem State.setPd_fs (b : Bool) : (s.setPd b).fs = { s.fs with pd := b } := rfl
@[simp] theorem State.setPd_dcfg (b : Bool) : (s.setPd b).dcfg = s.dcfg := rfl
@[simp] theorem State.setPd_lines (b : Bool) : (s.setPd b).lines = s.lines := rfl
@[simp] theorem State.setPd_cfg (b : Bool) : (s.setPd b).cfg = s.cfg := rfl
@[simp] theorem State.setPd_rx (b : Bool) : (s.setPd b).rx = s.rx := rfl
@[simp] theorem State.setPd_offered (b : Bool) : (s.setPd b).offered = s.offered := rfl
@[simp] theorem State.setPd_requests (b : Bool) : (s.setPd b).requests = s.requests := rfl
@[simp] theorem State.setPd_answers (b : Bool) : (s.setPd b).answers = s.answers := rfl
@[simp] theorem State.setPd_frames (b : Bool) : (s.setPd b).frames = s.frames := rfl
@[simp] theorem State.setPd_events (b : Bool) : (s.setPd b).events = s.events := rfl
@[simp] theorem State.setPd_result (b : Bool) : (s.setPd b).result = s.result := rfl

@[simp] theorem State.setV_created (b : Bool) : (s.setV b).created = s.created := rfl
@[simp] theorem State.setV_fs (b : Bool) : (s.setV b).fs = { s.fs with v := b } := rfl
@[simp] theorem State.setV_dcfg (b : Bool) : (s.setV b).dcfg = s.dcfg := rfl
@[simp] theorem State.setV_lines (b : Bool) : (s.setV b).lines = s.lines := rfl
@[simp] theorem State.setV_cfg (b : Bool) : (s.setV b).cfg = s.cfg := rfl
@[simp] theorem State.setV_rx (b : Bool) : (s.setV b).rx = s.rx := rfl
@[simp] theorem State.setV_offered (b : Bool) : (s.setV b).offered = s.offered := rfl
@[simp] theorem State.setV_requests (b : Bool) : (s.setV b).requests = s.requests := rfl
@[simp] theorem State.setV_answers (b : Bool) : (s.setV b).answers = s.answers := rfl
@[simp] theorem State.setV_frames (b : Bool) : (s.setV b).frames = s.frames := rfl
@[simp] theorem State.setV_events (b : Bool) : (s.setV b).events = s.events := rfl
@[simp] theorem State.setV_result (b : Bool) : (s.setV b).result = s.result := rfl

@[simp] theorem State.setH_created (b : Bool) : (s.setH b).created = s.created := rfl
@[simp] theorem State.setH_fs (b : Bool) : (s.setH b).fs = { s.fs with h := b } := rfl
@[simp] theorem State.setH_dcfg (b : Bool) : (s.setH b).dcfg = s.dcfg := rfl
@[simp] theorem State.setH_lines (b : Bool) : (s.setH b).lines = s.lines := rfl
@[simp] theorem State.setH_cfg (b : Bool) : (s.setH b).cfg = s.cfg := rfl
@[simp] theorem State.setH_rx (b : Bool) : (s.setH b).rx = s.rx := rfl
@[simp] theorem State.setH_offered (b : Bool) : (s.setH b).offered = s.offered := rfl
@[simp] theorem State.setH_requests (b : Bool) : (s.setH b).requests = s.requests := rfl
@[simp] theorem State.setH_answers (b : Bool) : (s.setH b).answers = s.answers := rfl
@[simp] theorem State.setH_frames (b : Bool) : (s.setH b).frames = s.frames := rfl
@[simp] theorem State.setH_events (b : Bool) : (s.setH b).events = s.events := rfl
@[simp] theorem State.setH_result (b : Bool) : (s.setH b).result = s.result := rfl

@[simp] theorem State.setVop_created (v : BitVec 7) : (s.setVop v).created = s.created := rfl
@[simp] theorem State.setVop_fs (v : BitVec 7) : (s.setVop v).fs = s.fs := rfl
@[simp] theorem State.setVop_dcfg (v : BitVec 7) : (s.setVop v).dcfg = { s.dcfg with vop := v } := rfl
@[simp] theorem State.setVop_lines (v : BitVec 7) : (s.setVop v).lines = s.lines := rfl
@[simp] theorem State.setVop_cfg (v : BitVec 7) : (s.setVop v).cfg = s.cfg := rfl
@[simp] theorem State.setVop_rx (v : BitVec 7) : (s.setVop v).rx = s.rx := rfl
@[simp] theorem State.setVop_offered (v : BitVec 7) : (s.setVop v).offered = s.offered := rfl
@[simp] theorem State.setVop_requests (v : BitVec 7) : (s.setVop v).requests = s.requests := rfl
@[simp] theorem State.setVop_answers (v : BitVec 7) : (s.setVop v).answers = s.answers := rfl
@[simp] theorem State.setVop_frames (v : BitVec 7) : (s.setVop v).frames = s.frames := rfl
@[simp] theorem State.setVop_events (v : BitVec 7) : (s.setVop v).events = s.events := rfl
@[simp] theorem State.setVop_result (v : BitVec 7) : (s.setVop v).result = s.result := rfl

@[simp] theorem State.setBias_created (b : BitVec 3) : (s.setBias b).created = s.created := rfl
@[simp] theorem State.setBias_fs (b : BitVec 3) : (s.setBias b).fs = s.fs := rfl
@[simp] theorem State.setBias_dcfg (b : BitVec 3) : (s.setBias b).dcfg = { s.dcfg with bias := b } := rfl
@[simp] theorem State.setBias_lines (b : BitVec 3) : (s.setBias b).lines = s.lines := rfl
@[simp] theorem State.setBias_cfg (b : BitVec 3) : (s.setBias b).cfg = s.cfg := rfl
@[simp] theorem State.setBias_rx (b : BitVec 3) : (s.setBias b).rx = s.rx := rfl
@[simp] theorem State.setBias_offered (b : BitVec 3) : (s.setBias b).offered = s.offered := rfl
@[simp] theorem State.setBias_requests (b : BitVec 3) : (s.setBias b).requests = s.requests := rfl
@[simp] theorem State.setBias_answers (b : BitVec 3) : (s.setBias b).answers = s.answers := rfl
@[simp] theorem State.setBias_frames (b : BitVec 3) : (s.setBias b).frames = s.frames := rfl
@[simp] theorem State.setBias_events (b : BitVec 3) : (s.setBias b).events = s.events := rfl
@[simp] theorem State.setBias_result (b : BitVec 3) : (s.setBias b).result = s.result := rfl

@[simp] theorem State.setTc_created (t : BitVec 2) : (s.setTc t).created = s.created := rfl
@[simp] theorem State.setTc_fs (t : BitVec 2) : (s.setTc t).fs = s.fs := rfl
@[simp] theorem State.setTc_dcfg (t : BitVec 2) : (s.setTc t).dcfg = { s.dcfg with tc := t } := rfl
@[simp] theorem State.setTc_lines (t : BitVec 2) : (s.setTc t).lines = s.lines := rfl
@[simp] theorem State.setTc_cfg (t : BitVec 2) : (s.setTc t).cfg = s.cfg := rfl
@[simp] theorem State.setTc_rx (t : BitVec 2) : (s.setTc t).rx = s.rx := rfl
@[simp] theorem State.setTc_offered (t : BitVec 2) : (s.setTc t).offered = s.offered := rfl
@[simp] theorem State.setTc_requests (t : BitVec 2) : (s.setTc t).requests = s.requests := rfl
@[simp] theorem State.setTc_answers (t : BitVec 2) : (s.setTc t).answers = s.answers := rfl
@[simp] theorem State.setTc_frames (t : BitVec 2) : (s.setTc t).frames = s.frames := rfl
@[simp] theorem State.setTc_events (t : BitVec 2) : (s.setTc t).events = s.events := rfl
@[simp] theorem State.setTc_result (t : BitVec 2) : (s.setTc t).result = s.result := rfl

@[simp] theorem State.setResult_created (r : OpResult) : (s.setResult r).created = s.created := rfl
@[simp] theorem State.setResult_fs (r : OpResult) : (s.setResult r).fs = s.fs := rfl
@[simp] theorem State.setResult_dcfg (r : OpResult) : (s.setResult r).dcfg = s.dcfg := rfl
@[simp] theorem State.setResult_lines (r : OpResult) : (s.setResult r).lines = s.lines := rfl
@[simp] theorem State.setResult_cfg (r : OpResult) : (s.setResult r).cfg = s.cfg := rfl
@[simp] theorem State.setResult_rx (r : OpResult) : (s.setResult r).rx = s.rx := rfl
@[simp] theorem State.setResult_offered (r : OpResult) : (s.setResult r).offered = s.offered := rfl
@[simp] theorem State.setResult_requests (r : OpResult) : (s.setResult r).requests = s.requests := rfl
@[simp] theorem State.setResult_answers (r : OpResult) : (s.setResult r).answers = s.answers := rfl
@[simp] theorem State.setResult_frames (r : OpResult) : (s.setResult r).frames = s.frames := rfl
@[simp] theorem State.setResult_events (r : OpResult) : (s.setResult r).events = s.events := rfl
@[simp] theorem State.setResult_result (r : OpResult) : (s.setResult r).result = some r := rfl

@[simp] theorem State.withRequests_created (rs : List Request) : (s.withRequests rs).created = s.created := rfl
@[simp] theorem State.withRequests_fs (rs : List Request) : (s.withRequests rs).fs = s.fs := rfl
@[simp] theorem State.withRequests_dcfg (rs : List Request) : (s.withRequests rs).dcfg = s.dcfg := rfl
@[simp] theorem State.withRequests_lines (rs : List Request) : (s.withRequests rs).lines = s.lines := rfl
@[simp] theorem State.withRequests_cfg (rs : List Request) : (s.withRequests rs).cfg = s.cfg := rfl
@[simp] theorem State.withRequests_rx (rs : List Request) : (s.withRequests rs).rx = s.rx := rfl
@[simp] theorem State.withRequests_offered (rs : List Request) : (s.withRequests rs).offered = s.offered := rfl
@[simp] theorem State.withRequests_requests (rs : List Request) : (s.withRequests rs).requests = rs := rfl
@[simp] theorem State.withRequests_answers (rs : List Request) : (s.withRequests rs).answers = s.answers := rfl
@[simp] theorem State.withRequests_frames (rs : List Request) : (s.withRequests rs).frames = s.frames := rfl
@[simp] theorem State.withRequests_events (rs : List Request) : (s.withRequests rs).events = s.events := rfl
@[simp] theorem State.withRequests_result (rs : List Request) : (s.withRequests rs).result = s.result := rfl

@[simp] theorem State.record_created (f : Sent) : (s.record f).created = s.created := rfl
@[simp] theorem State.record_fs (f : Sent) : (s.record f).fs = s.fs := rfl
@[simp] theorem State.record_dcfg (f : Sent) : (s.record f).dcfg = s.dcfg := rfl
@[simp] theorem State.record_lines (f : Sent) : (s.record f).lines = (f.events s.cfg).foldl Lines.drive s.lines := rfl
@[simp] theorem State.record_cfg (f : Sent) : (s.record f).cfg = s.cfg := rfl
@[simp] theorem State.record_rx (f : Sent) : (s.record f).rx = s.rx.take s.cfg.par f := rfl
@[simp] theorem State.record_offered (f : Sent) : (s.record f).offered = s.offered := rfl
@[simp] theorem State.record_requests (f : Sent) : (s.record f).requests = s.requests := rfl
@[simp] theorem State.record_answers (f : Sent) : (s.record f).answers = s.answers := rfl
@[simp] theorem State.record_frames (f : Sent) : (s.record f).frames = s.frames ++ [f] := rfl
@[simp] theorem State.record_events (f : Sent) : (s.record f).events = s.events ++ f.events s.cfg := rfl
@[simp] theorem State.record_result (f : Sent) : (s.record f).result = s.result := rfl

@[simp] theorem State.commit_created (m : AddressingMode) (d : DisplayConfig) : (s.commit m d).created = s.created := rfl
@[simp] theorem State.commit_fs (m : AddressingMode) (d : DisplayConfig) : (s.commit m d).fs = { s.fs with v := isVertical m } := rfl
@[simp] theorem State.commit_dcfg (m : AddressingMode) (d : DisplayConfig) : (s.commit m d).dcfg = d := rfl
@[simp] theorem State.commit_lines (m : AddressingMode) (d : DisplayConfig) : (s.commit m d).lines = s.lines := rfl
@[simp] theorem State.commit_cfg (m : AddressingMode) (d : DisplayConfig) : (s.commit m d).cfg = s.cfg := rfl
@[simp] theorem State.commit_rx (m : AddressingMode) (d : DisplayConfig) : (s.commit m d).rx = s.rx := rfl
@[simp] theorem State.commit_offered (m : AddressingMode) (d : DisplayConfig) : (s.commit m d).offered = s.offered := rfl
@[simp] theorem State.commit_requests (m : AddressingMode) (d : DisplayConfig) : (s.commit m d).requests = s.requests := rfl
@[simp] theorem State.commit_answers (m : AddressingMode) (d : DisplayConfig) : (s.commit m d).answers = s.answers := rfl
@[simp] theorem State.commit_frames (m : AddressingMode) (d : DisplayConfig) : (s.commit m d).frames = s.frames := rfl
@[simp] theorem State.commit_events (m : AddressingMode) (d : DisplayConfig) : (s.commit m d).events = s.events := rfl
@[simp] theorem State.commit_result (m : AddressingMode) (d : DisplayConfig) : (s.commit m d).result = s.result := rfl

@[simp] theorem State.construct_created (cs rst : Bool) : (s.construct cs rst).created = true := rfl
@[simp] theorem State.construct_fs (cs rst : Bool) : (s.construct cs rst).fs = ⟨s.offered.defaultPd, s.offered.defaultV, false⟩ := rfl
@[simp] theorem State.construct_dcfg (cs rst : Bool) : (s.construct cs rst).dcfg = ⟨s.offered.defaultVop, s.offered.defaultBias, s.offered.defaultTc⟩ := rfl
@[simp] theorem State.construct_lines (cs rst : Bool) : (s.construct cs rst).lines = ⟨none, none, none⟩ := rfl
@[simp] theorem State.construct_cfg (cs rst : Bool) : (s.construct cs rst).cfg = ⟨cs, rst, s.offered⟩ := rfl
@[simp] theorem State.construct_rx (cs rst : Bool) : (s.construct cs rst).rx = s.rx := rfl
@[simp] theorem State.construct_offered (cs rst : Bool) : (s.construct cs rst).offered = s.offered := rfl
@[simp] theorem State.construct_requests (cs rst : Bool) : (s.construct cs rst).requests = s.requests := rfl
@[simp] theorem State.construct_answers (cs rst : Bool) : (s.construct cs rst).answers = s.answers := rfl
@[simp] theorem State.construct_frames (cs rst : Bool) : (s.construct cs rst).frames = s.frames := rfl
@[simp] theorem State.construct_events (cs rst : Bool) : (s.construct cs rst).events = s.events := rfl
@[simp] theorem State.construct_result (cs rst : Bool) : (s.construct cs rst).result = s.result := rfl

/-! Dropping a listed answer changes the answers alone. -/

@[simp] theorem State.dropAnswer_created : s.dropAnswer.created = s.created := by
  unfold State.dropAnswer; split <;> rfl
@[simp] theorem State.dropAnswer_fs : s.dropAnswer.fs = s.fs := by
  unfold State.dropAnswer; split <;> rfl
@[simp] theorem State.dropAnswer_dcfg : s.dropAnswer.dcfg = s.dcfg := by
  unfold State.dropAnswer; split <;> rfl
@[simp] theorem State.dropAnswer_lines : s.dropAnswer.lines = s.lines := by
  unfold State.dropAnswer; split <;> rfl
@[simp] theorem State.dropAnswer_cfg : s.dropAnswer.cfg = s.cfg := by
  unfold State.dropAnswer; split <;> rfl
@[simp] theorem State.dropAnswer_rx : s.dropAnswer.rx = s.rx := by
  unfold State.dropAnswer; split <;> rfl
@[simp] theorem State.dropAnswer_offered : s.dropAnswer.offered = s.offered := by
  unfold State.dropAnswer; split <;> rfl
@[simp] theorem State.dropAnswer_requests : s.dropAnswer.requests = s.requests := by
  unfold State.dropAnswer; split <;> rfl
theorem State.dropAnswer_answers :
    s.dropAnswer.answers = if s.cfg.par.transportFallible then s.answers.tail else s.answers := by
  unfold State.dropAnswer; split <;> rfl
@[simp] theorem State.dropAnswer_frames : s.dropAnswer.frames = s.frames := by
  unfold State.dropAnswer; split <;> rfl
@[simp] theorem State.dropAnswer_events : s.dropAnswer.events = s.events := by
  unfold State.dropAnswer; split <;> rfl
@[simp] theorem State.dropAnswer_result : s.dropAnswer.result = s.result := by
  unfold State.dropAnswer; split <;> rfl

/-- With an infallible transport no answer is used up. -/
theorem State.dropAnswer_infallible (h : s.cfg.par.transportFallible = false) : s.dropAnswer = s := by
  simp [State.dropAnswer, h]

/-- With an infallible transport every transfer succeeds. -/
theorem State.answer_infallible (h : s.cfg.par.transportFallible = false) : s.answer = true := by
  simp [State.answer, h]

end Sys2Proof.Machine
end

