-- ==== Sys2Proof/Laws/Ops.lean ====
section
/-! SUPPORT. What each shared operation can do, said once: how a frame is sent, how sending composes, how an operation
ends. -/

namespace Sys2Proof.Machine

/-! ## Sending frames -/

/-- With an infallible transport a transfer is sent and delivered. -/
theorem emitTransfer_infallible {s : State} (h : s.cfg.par.transportFallible = false) (f : Frame) :
    emitTransfer f s = .ok (s.record ⟨f, true⟩) := by
  simp [emitTransfer, State.answer_infallible s h, State.dropAnswer_infallible s h]

/-- With an infallible transport a command frame is sent and delivered. -/
theorem emitCmd_infallible {s : State} (h : s.cfg.par.transportFallible = false) (b : Byte) :
    emitCmd b s = .ok (s.record ⟨.cmd b, true⟩) := emitTransfer_infallible h _

/-- With an infallible transport a buffer that is not empty is sent and delivered. -/
theorem emitData_infallible {s : State} (h : s.cfg.par.transportFallible = false) {bs : List Byte} (hb : bs ≠ []) :
    emitData bs s = .ok (s.record ⟨.data bs, true⟩) := by
  cases bs with
  | nil => exact absurd rfl hb
  | cons b bs => exact emitTransfer_infallible h _

/-- A transfer is delivered, or it fails; nothing else can happen. -/
theorem emitTransfer_cases (f : Frame) (s : State) :
    (s.answer = true ∧ emitTransfer f s = .ok (s.dropAnswer.record ⟨f, true⟩)) ∨
      (s.answer = false ∧ emitTransfer f s = .error (s.dropAnswer.record ⟨f, false⟩)) := by
  unfold emitTransfer
  cases s.answer <;> simp

/-! ## The relation `Sends` -/

/-- Frames delivered one list after the other. -/
@[simp] theorem delivered_append (fs gs : List Frame) : delivered (fs ++ gs) = delivered fs ++ delivered gs := by
  simp [delivered]

@[simp] theorem delivered_nil : delivered [] = [] := rfl

@[simp] theorem delivered_cons (f : Frame) (fs : List Frame) : delivered (f :: fs) = ⟨f, true⟩ :: delivered fs := rfl

/-- Sending nothing. -/
theorem Sends.refl (s : State) : Sends s s [] := by
  constructor <;> simp

/-- Sending first these frames and then those. -/
theorem Sends.trans {s t u : State} {fs gs : List Frame} (h : Sends s t fs) (h' : Sends t u gs) :
    Sends s u (fs ++ gs) := by
  constructor
  · rw [h'.frames, h.frames, delivered_append, List.append_assoc]
  · rw [h'.events, h.events, h.cfg, delivered_append, List.flatMap_append, List.append_assoc]
  · rw [h'.lines, h.lines, h.cfg, delivered_append, List.flatMap_append, List.foldl_append]
  · rw [h'.rx, h.rx, h.cfg, delivered_append, List.foldl_append]
  · rw [h'.created, h.created]
  · rw [h'.cfg, h.cfg]
  · rw [h'.offered, h.offered]
  · rw [h'.requests, h.requests]
  · rw [h'.answers, h.answers]

/-- One delivered frame. -/
theorem Sends.record (s : State) (f : Frame) : Sends s (s.record ⟨f, true⟩) [f] := by
  constructor <;> simp

/-- What `Sends` says of its first state does not concern the mirror. -/
theorem Sends.mirror_left {s t : State} {fs : List Frame} (fs' : FunctionState) (d : DisplayConfig)
    (h : Sends { s with fs := fs', dcfg := d } t fs) : Sends s t fs := by
  constructor
  · exact h.frames
  · exact h.events
  · exact h.lines
  · exact h.rx
  · exact h.created
  · exact h.cfg
  · exact h.offered
  · exact h.requests
  · exact h.answers

/-- Nor does what it says of its second state, nor the result. -/
theorem Sends.mirror_right {s t : State} {fs : List Frame} (fs' : FunctionState) (d : DisplayConfig)
    (r : Option OpResult) (h : Sends s t fs) : Sends s { t with fs := fs', dcfg := d, result := r } fs := by
  constructor
  · exact h.frames
  · exact h.events
  · exact h.lines
  · exact h.rx
  · exact h.created
  · exact h.cfg
  · exact h.offered
  · exact h.requests
  · exact h.answers

/-! ## How an operation ends -/

@[simp] theorem finish_ok (g : State → State) (s : State) : finish g (.ok s) = .next (s.setResult .ok) := rfl

@[simp] theorem finish_error (g : State → State) (s : State) :
    finish g (.error s) = .next (((g s).setH false).setResult .transportError) := rfl

theorem withBlock_created {s : State} (h : s.created = true) (k : StepResult) : withBlock s k = k := by
  simp [withBlock, h]

/-- An operation that answers a next state was issued to a block. -/
theorem withBlock_next {s t : State} {k : StepResult} (h : withBlock s k = .next t) : s.created = true ∧ k = .next t := by
  unfold withBlock at h
  split at h
  · exact ⟨‹_›, h⟩
  · cases h

/-- `Sending` chained: only after a success. -/
@[simp] theorem Sending.bind_ok (s : State) (k : State → Sending) : Except.bind (.ok s : Sending) k = k s := rfl

@[simp] theorem Sending.bind_error (s : State) (k : State → Sending) :
    Except.bind (.error s : Sending) k = .error s := rfl

/-- One command frame as a whole operation, the transport infallible. -/
theorem sendCmd_ready {s : State} (h : Ready s) (b : Byte) :
    sendCmd b s = .next ((s.record ⟨.cmd b, true⟩).setResult .ok) := by
  rw [sendCmd, withBlock_created h.created, emitCmd_infallible h.infallible, finish_ok]

/-- One data frame as a whole operation, the transport infallible. -/
theorem sendData_ready {s : State} (h : Ready s) {bs : List Byte} (hb : bs ≠ []) :
    sendData bs s = .next ((s.record ⟨.data bs, true⟩).setResult .ok) := by
  rw [sendData, withBlock_created h.created, emitData_infallible h.infallible hb, finish_ok]

/-- An empty buffer: no event at all. -/
theorem sendData_nil {s : State} (h : s.created = true) : sendData [] s = .next (s.setResult .ok) := by
  rw [sendData, withBlock_created h]; rfl

/-- The frames that hold these buffers; an empty buffer has none. -/
def dataFrames (ds : List (List Byte)) : List Frame := (ds.filter (· ≠ [])).map .data

/-- Buffers sent one after the other, the transport infallible: each that is not empty is one data frame. -/
theorem emitDatas_infallible (ds : List (List Byte)) {s : State} (h : s.cfg.par.transportFallible = false) :
    ∃ t, emitDatas ds s = .ok t ∧ Sends s t (dataFrames ds) ∧ t.fs = s.fs ∧ t.dcfg = s.dcfg ∧ t.result = s.result := by
  induction ds generalizing s with
  | nil => exact ⟨s, rfl, Sends.refl s, rfl, rfl, rfl⟩
  | cons d ds ih =>
    by_cases hd : d = []
    · subst hd
      obtain ⟨t, h1, h2, h3, h4, h5⟩ := ih h
      exact ⟨t, h1, by simpa [dataFrames] using h2, h3, h4, h5⟩
    · obtain ⟨t, h1, h2, h3, h4, h5⟩ := ih (s := s.record ⟨.data d, true⟩) h
      refine ⟨t, ?_, ?_, h3, h4, h5⟩
      · rw [emitDatas, emitData_infallible h hd]; exact h1
      · simpa [dataFrames, hd] using (Sends.record s (.data d)).trans h2

end Sys2Proof.Machine
end

