-- ==== Sys2Proof/Laws/Exec.lean ====
section
/-! SUPPORT. What the sequences of several frames send when the transport is infallible: the extended bracket, the
initialisation and the streams of the writer. -/

namespace Sys2Proof.Machine

/-- R108 with one configuration write between: three frames. -/
theorem sendBracket_infallible {s : State} (h : s.cfg.par.transportFallible = false) {write : State → Sending} {b : Byte}
    (hw : write ((s.setH true).record ⟨.cmd (fsbyte s.cfg.par.codes s.fs.pd s.fs.v true), true⟩) =
      .ok (((s.setH true).record ⟨.cmd (fsbyte s.cfg.par.codes s.fs.pd s.fs.v true), true⟩).record ⟨.cmd b, true⟩)) :
    ∃ t, sendBracket write s = .next t ∧
      Sends s t [.cmd (fsbyte s.cfg.par.codes s.fs.pd s.fs.v true), .cmd b,
        .cmd (fsbyte s.cfg.par.codes s.fs.pd s.fs.v false)] ∧
      t.result = some .ok ∧ t.fs = { s.fs with h := false } ∧ t.dcfg = s.dcfg := by
  have h1 : enterExt s = .ok ((s.setH true).record ⟨.cmd (fsbyte s.cfg.par.codes s.fs.pd s.fs.v true), true⟩) := by
    simp [enterExt, emitFS, emitCmd_infallible, h, State.functionByte]
  let u := (((s.setH true).record ⟨.cmd (fsbyte s.cfg.par.codes s.fs.pd s.fs.v true), true⟩).record ⟨.cmd b, true⟩).setH
    false
  refine ⟨(u.record ⟨.cmd u.functionByte, true⟩).setResult .ok, ?_, ?_, rfl, rfl, rfl⟩
  · rw [sendBracket, h1, Sending.bind_ok, hw, Sending.bind_ok, exitExt, emitFS, emitCmd_infallible (by exact h), finish_ok]
  · constructor <;> simp [u, State.functionByte]

/-- R105, R163 step 2: the pulse, if there is a reset line. -/
theorem emitReset_ok (s : State) :
    ∃ r, emitReset s = .ok r ∧ Sends s r (if s.cfg.hasRst then [.resetPulse] else []) ∧
      r.fs = s.fs ∧ r.dcfg = s.dcfg ∧ r.result = s.result := by
  unfold emitReset
  cases s.cfg.hasRst
  · exact ⟨s, rfl, Sends.refl s, rfl, rfl, rfl⟩
  · exact ⟨_, rfl, Sends.record s .resetPulse, rfl, rfl, rfl⟩

/-- R163 steps 2 to 7: the optional pulse and seven command frames. -/
theorem emitInitialisation_infallible {s : State} (h : s.cfg.par.transportFallible = false) :
    ∃ t, emitInitialisation s = .ok t ∧
      Sends s t ((if s.cfg.hasRst then [.resetPulse] else []) ++
        [.cmd (fsbyte s.cfg.par.codes s.fs.pd s.fs.v true), .cmd (tcByte s.cfg.par.codes s.dcfg.tc),
         .cmd (biasByte s.cfg.par.codes s.dcfg.bias), .cmd (vopByte s.cfg.par.codes s.dcfg.vop),
         .cmd (fsbyte s.cfg.par.codes s.fs.pd s.fs.v false), .cmd (fsbyte s.cfg.par.codes false s.fs.v false),
         .cmd s.cfg.par.codes.displayNormal]) ∧
      t.fs = ⟨false, s.fs.v, false⟩ ∧ t.dcfg = s.dcfg ∧ t.result = s.result := by
  obtain ⟨r, hr, hs, hf, hd, hres⟩ := emitReset_ok s
  have hi : r.cfg.par.transportFallible = false := by rw [hs.cfg]; exact h
  have key : ∃ t, emitInitialisation s = .ok t ∧ Sends r t
        [.cmd (fsbyte r.cfg.par.codes r.fs.pd r.fs.v true), .cmd (tcByte r.cfg.par.codes r.dcfg.tc),
         .cmd (biasByte r.cfg.par.codes r.dcfg.bias), .cmd (vopByte r.cfg.par.codes r.dcfg.vop),
         .cmd (fsbyte r.cfg.par.codes r.fs.pd r.fs.v false), .cmd (fsbyte r.cfg.par.codes false r.fs.v false),
         .cmd r.cfg.par.codes.displayNormal] ∧
      t.fs = ⟨false, r.fs.v, false⟩ ∧ t.dcfg = r.dcfg ∧ t.result = r.result := by
    refine ⟨_, by
      simp [emitInitialisation, hr, enterExt, exitExt, emitFS, emitTc, emitBias, emitVop, emitPower, emitCmd_infallible,
        hi]
      rfl, ?_, ?_, ?_, ?_⟩
    · constructor <;> simp [State.functionByte]
    all_goals rfl
  obtain ⟨t, ht, hst, htf, htd, htr⟩ := key
  rw [hs.cfg, hf, hd] at hst
  refine ⟨t, ht, hs.trans hst, ?_, ?_, ?_⟩
  · rw [htf, hf]
  · rw [htd, hd]
  · rw [htr, hres]

end Sys2Proof.Machine
end

