-- ==== Sys2Proof/Laws/Plan.lean ====
section
/-! SUPPORT. Everything an instruction other than `create` can do, said once: it is refused with a result, or it writes
the mirror and then sends a fixed list of frames, each with the mirror's flags at that moment, up to the first transfer
that fails (`exec_eq_plan`, `exec_cases`). Claims about all instructions follow from the list. -/

namespace Sys2Proof.Machine

/-! ## Frames sent one after the other -/

/-- Between `s` and `t` these frames went out, delivered or not; the mirror, the answers and the result are not said. -/
structure Emits (s t : State) (gs : List Sent) : Prop where
  frames   : t.frames = s.frames ++ gs
  events   : t.events = s.events ++ gs.flatMap (Sent.events s.cfg)
  lines    : t.lines = (gs.flatMap (Sent.events s.cfg)).foldl Lines.drive s.lines
  rx       : t.rx = gs.foldl (Receiver.take s.cfg.par) s.rx
  created  : t.created = s.created
  cfg      : t.cfg = s.cfg
  offered  : t.offered = s.offered
  requests : t.requests = s.requests

/-- Nothing went out. -/
theorem Emits.refl (s : State) : Emits s s [] := by
  constructor <;> simp

/-- First these frames and then those. -/
theorem Emits.trans {s t u : State} {fs gs : List Sent} (h : Emits s t fs) (h' : Emits t u gs) :
    Emits s u (fs ++ gs) := by
  constructor
  · rw [h'.frames, h.frames, List.append_assoc]
  · rw [h'.events, h.events, h.cfg, List.flatMap_append, List.append_assoc]
  · rw [h'.lines, h.lines, h.cfg, List.flatMap_append, List.foldl_append]
  · rw [h'.rx, h.rx, h.cfg, List.foldl_append]
  · rw [h'.created, h.created]
  · rw [h'.cfg, h.cfg]
  · rw [h'.offered, h.offered]
  · rw [h'.requests, h.requests]

/-- One frame. -/
theorem Emits.record (s : State) (f : Sent) : Emits s (s.record f) [f] := by
  constructor <;> simp

/-- The mirror, the answers and the result of either state do not concern `Emits`. -/
theorem Emits.left {s t : State} {gs : List Sent} (fs : FunctionState) (d : DisplayConfig) (as : List Bool)
    (r : Option OpResult) (h : Emits { s with fs := fs, dcfg := d, answers := as, result := r } t gs) : Emits s t gs :=
  ⟨h.frames, h.events, h.lines, h.rx, h.created, h.cfg, h.offered, h.requests⟩

theorem Emits.right {s t : State} {gs : List Sent} (fs : FunctionState) (d : DisplayConfig) (as : List Bool)
    (r : Option OpResult) (h : Emits s t gs) : Emits s { t with fs := fs, dcfg := d, answers := as, result := r } gs :=
  ⟨h.frames, h.events, h.lines, h.rx, h.created, h.cfg, h.offered, h.requests⟩

/-- Frames all delivered, no listed answer used, are what `Sends` says. -/
theorem Emits.sends {s t : State} {fs : List Frame} (h : Emits s t (delivered fs)) (ha : t.answers = s.answers) :
    Sends s t fs :=
  ⟨h.frames, h.events, h.lines, h.rx, h.created, h.cfg, h.offered, h.requests, ha⟩

/-- One frame of a plan, with the flags of the mirror while it is sent. -/
abbrev Act := FunctionState × Frame

/-- A frame of any kind: a reset pulse holds no transfer. -/
def emitFrame (f : Frame) (s : State) : Sending :=
  match f with
  | .resetPulse => .ok (s.record ⟨.resetPulse, true⟩)
  | .cmd b => emitTransfer (.cmd b) s
  | .data bs => emitTransfer (.data bs) s

/-- The frames of a plan, up to the first that fails. -/
def runActs : List Act → State → Sending
  | [], s => .ok s
  | a :: as, s => (emitFrame a.2 { s with fs := a.1 }).bind (runActs as)

/-- The flags after the whole plan. -/
def finalFlags (fs : FunctionState) (as : List Act) : FunctionState := (as.map Prod.fst).getLast?.getD fs

@[simp] theorem finalFlags_nil (fs : FunctionState) : finalFlags fs [] = fs := rfl

@[simp] theorem finalFlags_cons (fs : FunctionState) (a : Act) (as : List Act) :
    finalFlags fs (a :: as) = finalFlags a.1 as := by
  unfold finalFlags
  rw [List.map_cons, List.getLast?_cons, Option.getD_some]

theorem runActs_append (as bs : List Act) (s : State) : runActs (as ++ bs) s = (runActs as s).bind (runActs bs) := by
  induction as generalizing s with
  | nil => rfl
  | cons a as ih =>
    rw [List.cons_append, runActs, runActs]
    cases emitFrame a.2 { s with fs := a.1 } with
    | ok t => exact ih t
    | error t => rfl

/-- A frame is delivered, or it fails; a pulse cannot fail, nor can anything on an infallible transport. -/
theorem emitFrame_cases (f : Frame) (s : State) :
    (∃ t, emitFrame f s = .ok t ∧ Emits s t [⟨f, true⟩] ∧ t.fs = s.fs ∧ t.dcfg = s.dcfg ∧ t.result = s.result ∧
      (s.cfg.par.transportFallible = false → t.answers = s.answers)) ∨
    (∃ t, emitFrame f s = .error t ∧ Emits s t [⟨f, false⟩] ∧ t.fs = s.fs ∧ t.dcfg = s.dcfg ∧ t.result = s.result ∧
      f ≠ .resetPulse ∧ s.cfg.par.transportFallible = true) := by
  have key : ∀ g : Frame,
      (∃ t, emitTransfer g s = .ok t ∧ Emits s t [⟨g, true⟩] ∧ t.fs = s.fs ∧ t.dcfg = s.dcfg ∧ t.result = s.result ∧
        (s.cfg.par.transportFallible = false → t.answers = s.answers)) ∨
      (∃ t, emitTransfer g s = .error t ∧ Emits s t [⟨g, false⟩] ∧ t.fs = s.fs ∧ t.dcfg = s.dcfg ∧
        t.result = s.result ∧ s.cfg.par.transportFallible = true) := by
    intro g
    have hd : ∀ b, Emits s (s.dropAnswer.record ⟨g, b⟩) [⟨g, b⟩] := by
      intro b
      constructor <;> simp
    rcases emitTransfer_cases g s with ⟨ha, h⟩ | ⟨ha, h⟩
    · exact .inl ⟨_, h, hd true, by simp, by simp, by simp, fun hf => by simp [State.dropAnswer_answers, hf]⟩
    · refine .inr ⟨_, h, hd false, by simp, by simp, by simp, ?_⟩
      cases hf : s.cfg.par.transportFallible
      · rw [State.answer_infallible s hf] at ha; cases ha
      · rfl
  cases f with
  | resetPulse => exact .inl ⟨_, rfl, Emits.record s _, rfl, rfl, rfl, fun _ => rfl⟩
  | cmd b => exact (key (.cmd b)).imp id fun ⟨t, h⟩ => ⟨t, h.1, h.2.1, h.2.2.1, h.2.2.2.1, h.2.2.2.2.1, by simp, h.2.2.2.2.2⟩
  | data bs => exact (key (.data bs)).imp id fun ⟨t, h⟩ => ⟨t, h.1, h.2.1, h.2.2.1, h.2.2.2.1, h.2.2.2.2.1, by simp, h.2.2.2.2.2⟩

/-- What running a plan's frames can do: all of them were delivered, or one of them failed after those before it. -/
theorem runActs_cases (as : List Act) (s : State) :
    (∃ t, runActs as s = .ok t ∧ Emits s t (delivered (as.map Prod.snd)) ∧ t.fs = finalFlags s.fs as ∧
      t.dcfg = s.dcfg ∧ t.result = s.result ∧ (s.cfg.par.transportFallible = false → t.answers = s.answers)) ∨
    (∃ t before a after, runActs as s = .error t ∧ as = before ++ a :: after ∧
      Emits s t (delivered (before.map Prod.snd) ++ [⟨a.2, false⟩]) ∧ t.fs = a.1 ∧ t.dcfg = s.dcfg ∧
      t.result = s.result ∧ a.2 ≠ .resetPulse ∧ s.cfg.par.transportFallible = true) := by
  induction as generalizing s with
  | nil => exact .inl ⟨s, rfl, Emits.refl s, rfl, rfl, rfl, fun _ => rfl⟩
  | cons a as ih =>
    rcases emitFrame_cases a.2 { s with fs := a.1 } with ⟨t, h, he, hf, hd, hr, ha⟩ | ⟨t, h, he, hf, hd, hr, hn, hT⟩
    · have he : Emits s t [⟨a.2, true⟩] := ⟨he.frames, he.events, he.lines, he.rx, he.created, he.cfg, he.offered, he.requests⟩
      rcases ih t with ⟨u, h', he', hf', hd', hr', ha'⟩ | ⟨u, before, b, after, h', hs, he', hf', hd', hr', hn', hT'⟩
      · refine .inl ⟨u, by rw [runActs, h]; exact h', he.trans he', ?_, by rw [hd', hd], by rw [hr', hr], fun hi => ?_⟩
        · rw [hf', hf, finalFlags_cons]
        · rw [ha' (by rw [he.cfg]; exact hi), ha hi]
      · refine .inr ⟨u, a :: before, b, after, by rw [runActs, h]; exact h', by rw [hs]; rfl, he.trans he', hf', by rw [hd', hd],
          by rw [hr', hr], hn', by rw [← he.cfg]; exact hT'⟩
    · have he : Emits s t [⟨a.2, false⟩] := ⟨he.frames, he.events, he.lines, he.rx, he.created, he.cfg, he.offered, he.requests⟩
      exact .inr ⟨t, [], a, as, by rw [runActs, h]; rfl, rfl, he, hf, hd, hr, hn, hT⟩

/-! ## The plan of an instruction -/

/-- What an instruction that is not turned away does: the mirror it writes first, the frames it sends, and whether a
failed transfer clears the power-down bit (R233). -/
structure Plan where
  fs       : FunctionState
  dcfg     : DisplayConfig
  acts     : List Act
  clearsPd : Bool := false

/-- The flags in the extended set, and back. -/
def FunctionState.ext (fs : FunctionState) : FunctionState := { fs with h := true }
def FunctionState.basic (fs : FunctionState) : FunctionState := { fs with h := false }

/-- The function-set byte of these flags. -/
def FunctionState.byte (fs : FunctionState) (c : Codes) : Byte := fsbyte c fs.pd fs.v fs.h

/-- R108 around these frames. -/
def bracketActs (c : Codes) (fs : FunctionState) (bytes : List Byte) : List Act :=
  (fs.ext, .cmd (fs.ext.byte c)) :: bytes.map (fun b => (fs.ext, .cmd b)) ++ [(fs.basic, .cmd (fs.basic.byte c))]

/-- Frames sent with the flags as they are. -/
def plainActs (fs : FunctionState) (frames : List Frame) : List Act := frames.map fun f => (fs, f)

/-- Frames that leave the mirror alone. -/
def Plan.plain (s : State) (frames : List Frame) : Except OpResult Plan := .ok ⟨s.fs, s.dcfg, plainActs s.fs frames, false⟩

/-- One extended write. -/
def Plan.bracket (s : State) (d : DisplayConfig) (b : Byte) : Except OpResult Plan :=
  .ok ⟨s.fs, d, bracketActs s.cfg.par.codes s.fs [b], false⟩

/-- R163 steps 2 to 7. -/
def Plan.initialisation (s : State) (fs : FunctionState) (d : DisplayConfig) : Plan :=
  let c := s.cfg.par.codes
  ⟨fs, d,
    (if s.cfg.hasRst then [(fs, .resetPulse)] else []) ++ bracketActs c fs [tcByte c d.tc, biasByte c d.bias, vopByte c d.vop] ++
      [({ fs.basic with pd := false }, .cmd (fsbyte c false fs.v false)),
       ({ fs.basic with pd := false }, .cmd c.displayNormal)], true⟩

/-- The plan of every instruction; `create` has none. -/
def plan (i : Instr) (s : State) : Except OpResult Plan :=
  let c := s.cfg.par.codes
  match i with
  | .wireFunctionSet pd v h => Plan.plain s [.cmd (fsbyte c pd v h)]
  | .wireDisplayBlank => Plan.plain s [.cmd c.displayBlank]
  | .wireDisplayAllOn => Plan.plain s [.cmd c.displayAllOn]
  | .wireDisplayNormal => Plan.plain s [.cmd c.displayNormal]
  | .wireDisplayInverse => Plan.plain s [.cmd c.displayInverse]
  | .wireSetBank bank => Plan.plain s [.cmd (bankByte c bank.toNat)]
  | .wireSetColumn column => Plan.plain s [.cmd (columnByte c column.toNat)]
  | .wireSetTc tc => Plan.plain s [.cmd (tcByte c tc)]
  | .wireSetBias bias => Plan.plain s [.cmd (biasByte c bias)]
  | .wireSetVop vop => Plan.plain s [.cmd (vopByte c vop)]
  | .wireNop => Plan.plain s [.cmd c.nop]
  | .wireDataByte d => Plan.plain s [.data [d]]
  | .create _ _ _ _ => .error .ok
  | .setAddressingMode vertical => .ok ⟨{ s.fs with v := vertical }, s.dcfg, [], false⟩
  | .setContrast vop =>
    match checkVop vop with
    | .error e => .error e
    | .ok v => Plan.bracket s { s.dcfg with vop := v } (vopByte c v)
  | .setBias bias =>
    match checkBias bias with
    | .error e => .error e
    | .ok b => Plan.bracket s { s.dcfg with bias := b } (biasByte c b)
  | .setTemperatureCoefficient tc =>
    match checkTc tc with
    | .error e => .error e
    | .ok t => Plan.bracket s { s.dcfg with tc := t } (tcByte c t)
  | .setCursor column bank => Plan.plain s [.cmd (columnByte c column), .cmd (bankByte c bank)]
  | .setPower on =>
    .ok ⟨{ s.fs with pd := !on }, s.dcfg, [({ s.fs with pd := !on }, .cmd (fsbyte c (!on) s.fs.v s.fs.h))], false⟩
  | .setInverted on => Plan.plain s [.cmd (if on then c.displayInverse else c.displayNormal)]
  | .setBlanked on => Plan.plain s [.cmd (if on then c.displayBlank else c.displayNormal)]
  | .setTestPattern on => Plan.plain s [.cmd (if on then c.displayAllOn else c.displayNormal)]
  | .rawCommand byte => Plan.plain s [.cmd byte]
  | .rawData bytes => Plan.plain s (dataFrames [bytes])
  | .initialise mode contrast bias tc =>
    match checkConfig contrast bias tc s.dcfg with
    | .error e => .error e
    | .ok d => .ok (Plan.initialisation s { s.fs with v := isVertical mode } d)
  | .reset => Plan.plain s (if s.cfg.hasRst then [.resetPulse] else [])
  | .fill on =>
    Plan.plain s (dataFrames (fillBuffers s.cfg.par on) ++ [.cmd (columnByte c 0), .cmd (bankByte c 0)])
  | .drawText text => Plan.plain s (dataFrames (textBuffers s.cfg.par text))
  | .writeData bytes => Plan.plain s (dataFrames [bytes])

/-- The plan carried out. -/
def Plan.run (p : Plan) (s : State) : StepResult :=
  finish (if p.clearsPd then State.setPd false else id) (runActs p.acts { s with fs := p.fs, dcfg := p.dcfg })

/-- Frames sent with the flags as they are, in terms of the operations of the model. -/
theorem emitDatas_eq (ds : List (List Byte)) (s : State) : emitDatas ds s = runActs (plainActs s.fs (dataFrames ds)) s := by
  induction ds generalizing s with
  | nil => rfl
  | cons d ds ih =>
    cases d with
    | nil =>
      rw [show dataFrames ([] :: ds) = dataFrames ds by simp [dataFrames]]
      exact ih s
    | cons b bs =>
      have hstep : emitDatas ((b :: bs) :: ds) s = (emitTransfer (.data (b :: bs)) s).bind (emitDatas ds) := rfl
      have hplan : runActs (plainActs s.fs (dataFrames ((b :: bs) :: ds))) s =
          (emitTransfer (.data (b :: bs)) s).bind (runActs (plainActs s.fs (dataFrames ds))) := by
        simp [dataFrames, plainActs, runActs, emitFrame]
      rw [hstep, hplan]
      rcases emitFrame_cases (.data (b :: bs)) s with ⟨t, h, -, hf, -⟩ | ⟨t, h, -⟩
      · rw [show emitTransfer (.data (b :: bs)) s = .ok t from h, Sending.bind_ok, Sending.bind_ok, ih, hf]
      · rw [show emitTransfer (.data (b :: bs)) s = .error t from h, Sending.bind_error, Sending.bind_error]

/-- A chain continues a plan: what follows need only be right after the plan's own flags. -/
theorem runActs_bind {as bs : List Act} {s : State} {k : State → Sending}
    (h : ∀ t, t.fs = finalFlags s.fs as → t.dcfg = s.dcfg → t.cfg = s.cfg → k t = runActs bs t) :
    (runActs as s).bind k = runActs (as ++ bs) s := by
  rw [runActs_append]
  rcases runActs_cases as s with ⟨t, ht, he, hf, hd, -⟩ | ⟨t, -, -, -, ht, -⟩
  · rw [ht]
    exact h t hf hd he.cfg
  · rw [ht]; rfl

/-- A chain that ends is the chain. -/
@[simp] theorem Sending.bind_done (r : Sending) : r.bind (runActs []) = r := by
  cases r <;> rfl

/-- One command frame as a plan. -/
theorem emitCmd_eq (b : Byte) (s : State) : emitCmd b s = runActs [(s.fs, .cmd b)] s :=
  (Sending.bind_done _).symm

/-- R107, R108 as plans. -/
theorem enterExt_eq (s : State) : enterExt s = runActs [(s.fs.ext, .cmd (s.fs.ext.byte s.cfg.par.codes))] s :=
  (Sending.bind_done _).symm

theorem exitExt_eq (s : State) : exitExt s = runActs [(s.fs.basic, .cmd (s.fs.basic.byte s.cfg.par.codes))] s :=
  (Sending.bind_done _).symm

theorem emitPower_eq (b : Bool) (s : State) :
    emitPower b s = runActs [({ s.fs with pd := b }, .cmd (fsbyte s.cfg.par.codes b s.fs.v s.fs.h))] s :=
  (Sending.bind_done _).symm

theorem emitReset_eq (s : State) :
    emitReset s = runActs (plainActs s.fs (if s.cfg.hasRst then [.resetPulse] else [])) s := by
  unfold emitReset
  cases s.cfg.hasRst <;> rfl

/-- The extended bracket with one write is a plan. -/
theorem sendBracket_eq {write : State → Sending} {b : Byte} (s : State)
    (hw : ∀ t, t.dcfg = s.dcfg → t.cfg = s.cfg → write t = runActs [(t.fs, .cmd b)] t) :
    ((enterExt s).bind write).bind exitExt = runActs (bracketActs s.cfg.par.codes s.fs [b]) s := by
  rw [enterExt_eq, runActs_bind (bs := [(s.fs.ext, .cmd b)]) fun t hf hd hc => by rw [hw t hd hc, hf]; rfl,
    runActs_bind (bs := [(s.fs.basic, .cmd (s.fs.basic.byte s.cfg.par.codes))]) fun t hf hd hc => by
      rw [exitExt_eq, hf, hc]; rfl]
  rfl

/-- R163 steps 2 to 7 as a plan. -/
theorem emitInitialisation_eq (s : State) :
    emitInitialisation s = runActs (Plan.initialisation s s.fs s.dcfg).acts s := by
  have hr : emitReset s = runActs (if s.cfg.hasRst then [(s.fs, .resetPulse)] else []) s := by
    rw [emitReset_eq]; cases s.cfg.hasRst <;> rfl
  have h0 : finalFlags s.fs (if s.cfg.hasRst then [(s.fs, .resetPulse)] else []) = s.fs := by
    cases s.cfg.hasRst <;> rfl
  generalize hp : (if s.cfg.hasRst then [(s.fs, Frame.resetPulse)] else []) = p at hr h0
  have step : ∀ {as : List Act} {k : State → Sending} (fs fs' : FunctionState) (b : Byte), finalFlags s.fs as = fs →
      (∀ t, t.fs = fs → t.dcfg = s.dcfg → t.cfg = s.cfg → k t = runActs [(fs', .cmd b)] t) →
      (runActs as s).bind k = runActs (as ++ [(fs', .cmd b)]) s ∧ finalFlags s.fs (as ++ [(fs', .cmd b)]) = fs' := by
    intro as k fs fs' b ha hk
    exact ⟨runActs_bind fun t hf hd hc => hk t (hf.trans ha) hd hc, by simp [finalFlags]⟩
  unfold emitInitialisation
  rw [hr]
  obtain ⟨e1, f1⟩ := step s.fs s.fs.ext (s.fs.ext.byte s.cfg.par.codes) h0 (k := enterExt)
    fun t hf hd hc => by rw [enterExt_eq, hf, hc]
  obtain ⟨e2, f2⟩ := step s.fs.ext s.fs.ext (tcByte s.cfg.par.codes s.dcfg.tc) f1 (k := emitTc)
    fun t hf hd hc => by rw [emitTc, emitCmd_eq, hf, hd, hc]
  obtain ⟨e3, f3⟩ := step s.fs.ext s.fs.ext (biasByte s.cfg.par.codes s.dcfg.bias) f2 (k := emitBias)
    fun t hf hd hc => by rw [emitBias, emitCmd_eq, hf, hd, hc]
  obtain ⟨e4, f4⟩ := step s.fs.ext s.fs.ext (vopByte s.cfg.par.codes s.dcfg.vop) f3 (k := emitVop)
    fun t hf hd hc => by rw [emitVop, emitCmd_eq, hf, hd, hc]
  obtain ⟨e5, f5⟩ := step s.fs.ext s.fs.basic (s.fs.basic.byte s.cfg.par.codes) f4 (k := exitExt)
    fun t hf hd hc => by rw [exitExt_eq, hf, hc]; rfl
  obtain ⟨e6, f6⟩ := step s.fs.basic { s.fs.basic with pd := false } (fsbyte s.cfg.par.codes false s.fs.v false) f5
    (k := emitPower false) fun t hf hd hc => by rw [emitPower_eq, hf, hc]; rfl
  obtain ⟨e7, -⟩ := step { s.fs.basic with pd := false } { s.fs.basic with pd := false } s.cfg.par.codes.displayNormal f6
    (k := fun s => emitCmd s.cfg.par.codes.displayNormal s) fun t hf hd hc => by rw [emitCmd_eq, hf, hc]
  rw [e1, e2, e3, e4, e5, e6, e7]
  simp only [Plan.initialisation, hp, bracketActs, List.map_cons, List.map_nil, List.append_assoc, List.cons_append,
    List.nil_append]

/-- A block exists, and what follows is the same. -/
theorem withBlock_congr {s : State} {k k' : StepResult} (h : k = k') : withBlock s k = withBlock s k' := by rw [h]

/-- One command frame as a whole operation is a plan. -/
theorem sendCmd_eq (b : Byte) (s : State) :
    sendCmd b s = withBlock s (Plan.run ⟨s.fs, s.dcfg, plainActs s.fs [.cmd b], false⟩ s) := by
  rw [sendCmd, emitCmd_eq]; rfl

/-- One buffer as a whole operation is a plan. -/
theorem sendData_eq (bs : List Byte) (s : State) :
    sendData bs s = withBlock s (Plan.run ⟨s.fs, s.dcfg, plainActs s.fs (dataFrames [bs]), false⟩ s) := by
  have h : emitData bs s = runActs (plainActs s.fs (dataFrames [bs])) s := by
    rw [← emitDatas_eq, emitDatas]
    cases emitData bs s <;> rfl
  rw [sendData, h]; rfl

/-- Every instruction but `create` carries out its plan where a block exists. -/
theorem exec_eq_plan (i : Instr) (s : State) (hi : i.isCreate = false) :
    exec i s = withBlock s (match plan i s with
      | .error e => raise e s
      | .ok p => p.run s) := by
  cases i with
  | create _ _ _ _ => cases hi
  | setAddressingMode v => rfl
  | setContrast n =>
    refine withBlock_congr ?_
    rcases checkVop_cases n with ⟨-, h⟩ | ⟨-, h⟩ <;> simp only [h, plan]
    exact congrArg (finish id) (sendBracket_eq (s.setVop _) fun t hd hc => by rw [emitVop, emitCmd_eq, hd, hc]; rfl)
  | setBias n =>
    refine withBlock_congr ?_
    rcases checkBias_cases n with ⟨-, h⟩ | ⟨-, h⟩ <;> simp only [h, plan]
    exact congrArg (finish id) (sendBracket_eq (s.setBias _) fun t hd hc => by rw [emitBias, emitCmd_eq, hd, hc]; rfl)
  | setTemperatureCoefficient n =>
    refine withBlock_congr ?_
    rcases checkTc_cases n with ⟨-, h⟩ | ⟨-, h⟩ <;> simp only [h, plan]
    exact congrArg (finish id) (sendBracket_eq (s.setTc _) fun t hd hc => by rw [emitTc, emitCmd_eq, hd, hc]; rfl)
  | setCursor column bank =>
    refine withBlock_congr (congrArg (finish id) ?_)
    rw [emitColumn, emitCmd_eq, runActs_bind (bs := [(s.fs, .cmd (bankByte s.cfg.par.codes bank))]) fun t hf hd hc => by
      rw [emitBank, emitCmd_eq, hf, hc]; rfl]
    rfl
  | setPower on =>
    refine withBlock_congr (congrArg (finish id) ?_)
    rw [emitPower_eq]; rfl
  | initialise mode co bi tc =>
    refine withBlock_congr ?_
    cases h : checkConfig co bi tc s.dcfg with
    | error e => simp only [h, plan]
    | ok d =>
      simp only [h, plan]
      exact congrArg (finish (State.setPd false)) (emitInitialisation_eq (s.commit mode d))
  | reset => exact withBlock_congr (congrArg (finish id) (emitReset_eq s))
  | fill on =>
    refine withBlock_congr (congrArg (finish id) ?_)
    have hflags : ∀ fr, finalFlags s.fs (plainActs s.fs fr) = s.fs := by
      intro fr
      induction fr with
      | nil => rfl
      | cons f fr ih => rw [plainActs, List.map_cons, finalFlags_cons]; exact ih
    rw [emitDatas_eq, runActs_bind (bs := [(s.fs, .cmd (columnByte s.cfg.par.codes 0))]) fun t hf hd hc => by
        rw [emitColumn, emitCmd_eq, hf, hc, hflags],
      runActs_bind (bs := [(s.fs, .cmd (bankByte s.cfg.par.codes 0))]) fun t hf hd hc => by
        rw [emitBank, emitCmd_eq, hf, hc]; simp [finalFlags]]
    simp only [plainActs, List.map_append, List.append_assoc]
    rfl
  | drawText text =>
    refine withBlock_congr (congrArg (finish id) ?_)
    rw [emitDatas_eq]
  | rawData bs => exact sendData_eq bs s
  | writeData bs => exact sendData_eq bs s
  | wireDataByte d => exact sendData_eq [d] s
  | wireFunctionSet | wireDisplayBlank | wireDisplayAllOn | wireDisplayNormal | wireDisplayInverse | wireSetBank
  | wireSetColumn | wireSetTc | wireSetBias | wireSetVop | wireNop | setInverted | setBlanked | setTestPattern
  | rawCommand => exact sendCmd_eq _ s

/-! ## What an instruction can do -/

/-- A plan refuses with `OutOfRange` alone. -/
theorem plan_error {i : Instr} {s : State} {e : OpResult} (hi : i.isCreate = false) (h : plan i s = .error e) :
    ∃ w n, e = .outOfRange w n := by
  cases i with
  | create _ _ _ _ => cases hi
  | setContrast n => rcases checkVop_cases n with ⟨-, h'⟩ | ⟨-, h'⟩ <;> simp only [plan, h'] at h <;> cases h; exact ⟨_, _, rfl⟩
  | setBias n => rcases checkBias_cases n with ⟨-, h'⟩ | ⟨-, h'⟩ <;> simp only [plan, h'] at h <;> cases h; exact ⟨_, _, rfl⟩
  | setTemperatureCoefficient n =>
    rcases checkTc_cases n with ⟨-, h'⟩ | ⟨-, h'⟩ <;> simp only [plan, h'] at h <;> cases h; exact ⟨_, _, rfl⟩
  | initialise mode co bi tc =>
    cases h' : checkConfig co bi tc s.dcfg with
    | error e' => simp only [plan, h'] at h; cases h; exact checkConfig_error h'
    | ok d => simp only [plan, h'] at h; cases h
  | setAddressingMode | setCursor | setPower | reset | fill | drawText | rawData | writeData | wireDataByte
  | wireFunctionSet | wireDisplayBlank | wireDisplayAllOn | wireDisplayNormal | wireDisplayInverse | wireSetBank
  | wireSetColumn | wireSetTc | wireSetBias | wireSetVop | wireNop | setInverted | setBlanked | setTestPattern
  | rawCommand => cases h

/-- A plan is made from the configuration and the mirror alone. -/
theorem plan_congr (i : Instr) {s t : State} (hc : t.cfg.hasRst = s.cfg.hasRst) (hcodes : t.cfg.par.codes = s.cfg.par.codes)
    (hchunk : t.cfg.par.fillChunk = s.cfg.par.fillChunk) (hfont : t.cfg.par.font = s.cfg.par.font) (hf : t.fs = s.fs)
    (hd : t.dcfg = s.dcfg) : plan i t = plan i s := by
  cases i <;> simp only [plan, Plan.plain, Plan.bracket, Plan.initialisation, fillBuffers, textBuffers, fontGlyph, hc, hcodes,
    hchunk, hfont, hf, hd]

/-- The end of an operation in which a transfer failed. -/
def abandoned (clearsPd : Bool) (fs : FunctionState) : FunctionState :=
  ⟨if clearsPd then false else fs.pd, fs.v, false⟩

/-- What an instruction other than `create` can do when it goes on: it is turned away with `OutOfRange` and nothing else
changed; or it has sent its whole plan; or its plan up to a transfer that failed. -/
theorem exec_cases {i : Instr} {s t : State} (hi : i.isCreate = false) (h : exec i s = .next t) :
    s.created = true ∧
    ((∃ w n, plan i s = .error (.outOfRange w n) ∧ t = { s with result := some (.outOfRange w n) }) ∨
     (∃ p, plan i s = .ok p ∧ Emits s t (delivered (p.acts.map Prod.snd)) ∧ t.result = some .ok ∧
       t.fs = finalFlags p.fs p.acts ∧ t.dcfg = p.dcfg ∧ (s.cfg.par.transportFallible = false → t.answers = s.answers)) ∨
     (∃ p before a after, plan i s = .ok p ∧ p.acts = before ++ a :: after ∧
       Emits s t (delivered (before.map Prod.snd) ++ [⟨a.2, false⟩]) ∧ t.result = some .transportError ∧
       t.fs = abandoned p.clearsPd a.1 ∧ t.dcfg = p.dcfg ∧ a.2 ≠ .resetPulse ∧ s.cfg.par.transportFallible = true)) := by
  rw [exec_eq_plan i s hi] at h
  obtain ⟨hc, h⟩ := withBlock_next h
  refine ⟨hc, ?_⟩
  cases hp : plan i s with
  | error e =>
    obtain ⟨w, n, rfl⟩ := plan_error hi hp
    rw [hp] at h
    cases h
    exact .inl ⟨w, n, rfl, rfl⟩
  | ok p =>
    rw [hp] at h
    simp only [Plan.run] at h
    rcases runActs_cases p.acts { s with fs := p.fs, dcfg := p.dcfg } with
      ⟨u, hu, he, hf, hd, -, ha⟩ | ⟨u, before, a, after, hu, hs, he, hf, hd, -, hn, hT⟩
    · rw [hu, finish_ok] at h
      cases h
      exact .inr (.inl ⟨p, rfl, ⟨he.frames, he.events, he.lines, he.rx, he.created, he.cfg, he.offered, he.requests⟩, rfl,
        hf, hd, ha⟩)
    · rw [hu, finish_error] at h
      cases h
      refine .inr (.inr ⟨p, before, a, after, rfl, hs, ?_, rfl, ?_, ?_, hn, hT⟩)
      · cases p.clearsPd <;>
          exact ⟨he.frames, he.events, he.lines, he.rx, he.created, he.cfg, he.offered, he.requests⟩
      · cases p.clearsPd <;> simp [abandoned, hf]
      · cases p.clearsPd <;> simp [hd]

/-- Where a block exists every instruction but `create` goes on. -/
theorem exec_next {i : Instr} {s : State} (hi : i.isCreate = false) (h : s.created = true) : ∃ t, exec i s = .next t := by
  rw [exec_eq_plan i s hi, withBlock_created h]
  cases plan i s with
  | error e => exact ⟨_, rfl⟩
  | ok p =>
    simp only [Plan.run]
    cases runActs p.acts { s with fs := p.fs, dcfg := p.dcfg } with
    | ok u => exact ⟨_, rfl⟩
    | error u => exact ⟨_, rfl⟩

/-- With an infallible transport an instruction that is not turned away sends its whole plan. -/
theorem exec_ready {i : Instr} {s : State} (hi : i.isCreate = false) (h : Ready s) {p : Plan} (hp : plan i s = .ok p) :
    Completes i s (p.acts.map Prod.snd) (finalFlags p.fs p.acts) p.dcfg := by
  obtain ⟨t, ht⟩ := exec_next hi h.created
  obtain ⟨-, ⟨w, n, hp', -⟩ | ⟨q, hp', he, hr, hf, hd, ha⟩ | ⟨_, _, _, _, -, -, -, -, -, -, -, hT⟩⟩ := exec_cases hi ht
  · rw [hp] at hp'; cases hp'
  · rw [hp] at hp'; cases hp'
    exact ⟨t, ht, he.sends (ha h.infallible), hr, hf, hd⟩
  · rw [h.infallible] at hT; cases hT

/-- Flags that go along a list of frames sent as they are. -/
@[simp] theorem finalFlags_plain (fs : FunctionState) (frames : List Frame) : finalFlags fs (plainActs fs frames) = fs := by
  induction frames with
  | nil => rfl
  | cons f frames ih => rw [plainActs, List.map_cons, finalFlags_cons]; exact ih

@[simp] theorem plainActs_frames (fs : FunctionState) (frames : List Frame) :
    (plainActs fs frames).map Prod.snd = frames := by
  simp [plainActs]

@[simp] theorem finalFlags_append (fs : FunctionState) (as bs : List Act) :
    finalFlags fs (as ++ bs) = finalFlags (finalFlags fs as) bs := by
  induction as generalizing fs with
  | nil => rfl
  | cons a as ih => rw [List.cons_append, finalFlags_cons, finalFlags_cons, ih]

/-- The flags of a plan, for an operation begun in the basic set: the addressing mode is stored before the first frame,
the power-down bit too unless it is the initialisation's, and every frame of an extended bracket is followed by the way
back, so that the plan ends as it would if it were abandoned at any of its frames. -/
theorem plan_flags {i : Instr} {s : State} {p : Plan} (hi : i.isCreate = false) (hh : s.fs.h = false) (h : plan i s = .ok p) :
    finalFlags p.fs p.acts = abandoned p.clearsPd p.fs ∧
      ∀ a ∈ p.acts, abandoned p.clearsPd a.1 = finalFlags p.fs p.acts := by
  have plain : ∀ {q : Plan} {frames : List Frame}, Plan.plain s frames = .ok q →
      finalFlags q.fs q.acts = abandoned q.clearsPd q.fs ∧
        ∀ a ∈ q.acts, abandoned q.clearsPd a.1 = finalFlags q.fs q.acts := by
    intro q frames hq
    cases hq
    have h0 : abandoned false s.fs = s.fs := by
      have : ∀ fs : FunctionState, fs.h = false → abandoned false fs = fs := by rintro ⟨pd, v, h⟩ rfl; rfl
      exact this _ hh
    refine ⟨by simp [h0], fun a ha => ?_⟩
    simp only [plainActs, List.mem_map] at ha
    obtain ⟨f, -, rfl⟩ := ha
    simp [h0]
  have bracket : ∀ {q : Plan} {d : DisplayConfig} {b : Byte}, Plan.bracket s d b = .ok q →
      finalFlags q.fs q.acts = abandoned q.clearsPd q.fs ∧
        ∀ a ∈ q.acts, abandoned q.clearsPd a.1 = finalFlags q.fs q.acts := by
    intro q d b hq
    cases hq
    simp [bracketActs, abandoned, FunctionState.ext, FunctionState.basic]
  cases i with
  | create _ _ _ _ => cases hi
  | setAddressingMode v => cases h; simp [abandoned, hh]
  | setContrast n =>
    rcases checkVop_cases n with ⟨-, h'⟩ | ⟨-, h'⟩ <;> simp only [plan, h'] at h
    · exact bracket h
    · cases h
  | setBias n =>
    rcases checkBias_cases n with ⟨-, h'⟩ | ⟨-, h'⟩ <;> simp only [plan, h'] at h
    · exact bracket h
    · cases h
  | setTemperatureCoefficient n =>
    rcases checkTc_cases n with ⟨-, h'⟩ | ⟨-, h'⟩ <;> simp only [plan, h'] at h
    · exact bracket h
    · cases h
  | setPower on => cases h; simp [abandoned, hh]
  | initialise mode co bi tc =>
    cases h' : checkConfig co bi tc s.dcfg with
    | error e' => simp only [plan, h'] at h; cases h
    | ok d =>
      simp only [plan, h'] at h
      cases h
      refine ⟨by simp [Plan.initialisation, abandoned, FunctionState.basic], fun ⟨fs, f⟩ ha => ?_⟩
      simp only [Plan.initialisation, bracketActs, FunctionState.ext, FunctionState.basic, List.mem_append, List.mem_cons,
        List.mem_ite_nil_right, List.map_cons, List.map_nil, List.not_mem_nil, or_false, Prod.mk.injEq] at ha
      simp only [Plan.initialisation, abandoned, finalFlags_append, finalFlags_cons, finalFlags_nil, FunctionState.basic, if_true]
      have hv : fs.v = isVertical mode := by
        rcases ha with (⟨-, rfl, -⟩ | (⟨rfl, -⟩ | ⟨rfl, -⟩ | ⟨rfl, -⟩ | ⟨rfl, -⟩) | ⟨rfl, -⟩) | ⟨rfl, -⟩ | ⟨rfl, -⟩ <;> rfl
      rw [hv]
  | setCursor | reset | fill | drawText | rawData | writeData | wireDataByte
  | wireFunctionSet | wireDisplayBlank | wireDisplayAllOn | wireDisplayNormal | wireDisplayInverse | wireSetBank
  | wireSetColumn | wireSetTc | wireSetBias | wireSetVop | wireNop | setInverted | setBlanked | setTestPattern
  | rawCommand => exact plain h

end Sys2Proof.Machine
end

