-- ==== Sys2Proof/Laws/Shape.lean ====
section
/-! SUPPORT. The shapes of plans (`plan_cases`), what the one instruction without a plan can do (`create_cases`), and what
a step can do (`step_cases`). -/

namespace Sys2Proof.Machine

/-- The frame is a data frame. -/
def Frame.isData : Frame → Bool
  | .data _ => true
  | .cmd _ => false
  | .resetPulse => false

/-- A buffer that is sent is not empty. -/
theorem dataFrames_ne {ds : List (List Byte)} {f : Frame} (h : f ∈ dataFrames ds) : f ≠ .data [] ∧ f ≠ .resetPulse := by
  simp only [dataFrames, List.mem_map, List.mem_filter] at h
  obtain ⟨d, ⟨-, hd⟩, rfl⟩ := h
  simpa using hd

/-- Frames sent with the mirror as it is: no empty data frame, data only from an instruction that stores data, a pulse
only from one that pulses, and only where there is a reset line. -/
def PlainFrames (i : Instr) (hasRst : Bool) (frames : List Frame) : Prop :=
  ∀ f ∈ frames, f ≠ .data [] ∧ (f.isData = true → i.storesData = true) ∧
    (f = .resetPulse → i.pulses = true ∧ hasRst = true)

/-- Every plan has one of five shapes: frames sent with the mirror as it is; an addressing mode stored; the power bit
stored and sent; one extended write in its bracket; the initialisation. -/
theorem plan_cases {i : Instr} {s : State} {p : Plan} (hi : i.isCreate = false) (h : plan i s = .ok p) :
    (∃ frames, p = ⟨s.fs, s.dcfg, plainActs s.fs frames, false⟩ ∧ PlainFrames i s.cfg.hasRst frames) ∨
    (∃ v, i = .setAddressingMode v ∧ p = ⟨{ s.fs with v := v }, s.dcfg, [], false⟩) ∨
    (∃ on, i = .setPower on ∧
      p = ⟨{ s.fs with pd := !on }, s.dcfg, [({ s.fs with pd := !on }, .cmd (fsbyte s.cfg.par.codes (!on) s.fs.v s.fs.h))],
        false⟩) ∨
    (∃ d b, p = ⟨s.fs, d, bracketActs s.cfg.par.codes s.fs [b], false⟩ ∧
      ((∃ n, i = .setContrast n ∧ n ≤ 127 ∧ d = { s.dcfg with vop := BitVec.ofNat 7 n } ∧ b = vopByte s.cfg.par.codes d.vop) ∨
       (∃ n, i = .setBias n ∧ n ≤ 7 ∧ d = { s.dcfg with bias := BitVec.ofNat 3 n } ∧ b = biasByte s.cfg.par.codes d.bias) ∨
       (∃ n, i = .setTemperatureCoefficient n ∧ n ≤ 3 ∧ d = { s.dcfg with tc := BitVec.ofNat 2 n } ∧
         b = tcByte s.cfg.par.codes d.tc))) ∨
    (∃ mode contrast bias tc d, i = .initialise mode contrast bias tc ∧ checkConfig contrast bias tc s.dcfg = .ok d ∧
      p = Plan.initialisation s { s.fs with v := isVertical mode } d) := by
  have cmds : ∀ {bs : List Byte}, PlainFrames i s.cfg.hasRst (bs.map .cmd) := by
    intro bs f hf
    obtain ⟨b, -, rfl⟩ := List.mem_map.1 hf
    exact ⟨by simp, by simp [Frame.isData], by simp⟩
  have datas : ∀ {ds : List (List Byte)}, i.storesData = true → PlainFrames i s.cfg.hasRst (dataFrames ds) := by
    intro ds hs f hf
    exact ⟨(dataFrames_ne hf).1, fun _ => hs, fun h => absurd h (dataFrames_ne hf).2⟩
  cases i with
  | create _ _ _ _ => cases hi
  | setAddressingMode v => cases h; exact .inr (.inl ⟨v, rfl, rfl⟩)
  | setPower on => cases h; exact .inr (.inr (.inl ⟨on, rfl, rfl⟩))
  | setContrast n =>
    rcases checkVop_cases n with ⟨hn, h'⟩ | ⟨-, h'⟩ <;> simp only [plan, h'] at h <;> cases h
    exact .inr (.inr (.inr (.inl ⟨_, _, rfl, .inl ⟨n, rfl, hn, rfl, rfl⟩⟩)))
  | setBias n =>
    rcases checkBias_cases n with ⟨hn, h'⟩ | ⟨-, h'⟩ <;> simp only [plan, h'] at h <;> cases h
    exact .inr (.inr (.inr (.inl ⟨_, _, rfl, .inr (.inl ⟨n, rfl, hn, rfl, rfl⟩)⟩)))
  | setTemperatureCoefficient n =>
    rcases checkTc_cases n with ⟨hn, h'⟩ | ⟨-, h'⟩ <;> simp only [plan, h'] at h <;> cases h
    exact .inr (.inr (.inr (.inl ⟨_, _, rfl, .inr (.inr ⟨n, rfl, hn, rfl, rfl⟩)⟩)))
  | initialise mode co bi tc =>
    cases h' : checkConfig co bi tc s.dcfg with
    | error e' => simp only [plan, h'] at h; cases h
    | ok d =>
      simp only [plan, h'] at h
      cases h
      exact .inr (.inr (.inr (.inr ⟨mode, co, bi, tc, d, rfl, h', rfl⟩)))
  | reset =>
    cases h
    refine .inl ⟨_, rfl, fun f hf => ?_⟩
    cases hr : s.cfg.hasRst <;> simp [hr] at hf
    subst hf
    exact ⟨by simp, by simp [Frame.isData], fun _ => ⟨rfl, rfl⟩⟩
  | fill on =>
    cases h
    refine .inl ⟨_, rfl, fun f hf => ?_⟩
    rcases List.mem_append.1 hf with hf | hf
    · exact datas rfl f hf
    · exact cmds (bs := [_, _]) f hf
  | drawText | rawData | writeData => cases h; exact .inl ⟨_, rfl, datas rfl⟩
  | wireDataByte d => cases h; exact .inl ⟨_, rfl, datas (ds := [[d]]) rfl⟩
  | setCursor => cases h; exact .inl ⟨_, rfl, cmds (bs := [_, _])⟩
  | wireFunctionSet | wireDisplayBlank | wireDisplayAllOn | wireDisplayNormal | wireDisplayInverse | wireSetBank
  | wireSetColumn | wireSetTc | wireSetBias | wireSetVop | wireNop | setInverted | setBlanked | setTestPattern
  | rawCommand => cases h; exact .inl ⟨_, rfl, cmds (bs := [_])⟩

/-- No plan holds an empty data frame (R102). -/
theorem plan_no_empty_data {i : Instr} {s : State} {p : Plan} (hi : i.isCreate = false) (h : plan i s = .ok p) :
    ∀ a ∈ p.acts, a.2 ≠ .data [] := by
  rcases plan_cases hi h with ⟨frames, rfl, hf⟩ | ⟨v, -, rfl⟩ | ⟨on, -, rfl⟩ | ⟨d, b, rfl, -⟩ | ⟨m, c, b, t, d, -, -, rfl⟩
  · intro a ha
    obtain ⟨f, hm, rfl⟩ := List.mem_map.1 ha
    exact (hf f hm).1
  · simp
  · simp
  · simp [bracketActs]
  · rintro ⟨fs, f⟩ ha rfl
    simp [Plan.initialisation, bracketActs] at ha

/-- A pulse goes out only from an instruction that pulses, and only where there is a reset line. -/
theorem plan_pulse {i : Instr} {s : State} {p : Plan} (hi : i.isCreate = false) (h : plan i s = .ok p) {a : Act}
    (ha : a ∈ p.acts) (hp : a.2 = .resetPulse) : i.pulses = true ∧ s.cfg.hasRst = true := by
  rcases plan_cases hi h with ⟨frames, rfl, hf⟩ | ⟨v, -, rfl⟩ | ⟨on, -, rfl⟩ | ⟨d, b, rfl, -⟩ | ⟨m, c, b, t, d, rfl, -, rfl⟩
  · obtain ⟨f, hm, rfl⟩ := List.mem_map.1 ha
    exact (hf f hm).2.2 hp
  · simp at ha
  · simp only [List.mem_singleton] at ha; subst ha; cases hp
  · obtain ⟨fs, f⟩ := a
    cases hp
    simp [bracketActs] at ha
  · obtain ⟨fs, f⟩ := a
    cases hp
    simp [Plan.initialisation, bracketActs] at ha
    exact ⟨rfl, ha.1⟩

/-- Data goes out only from an instruction that stores data. -/
theorem plan_data {i : Instr} {s : State} {p : Plan} (hi : i.isCreate = false) (h : plan i s = .ok p) {a : Act}
    (ha : a ∈ p.acts) (hd : a.2.isData = true) : i.storesData = true := by
  rcases plan_cases hi h with ⟨frames, rfl, hf⟩ | ⟨v, -, rfl⟩ | ⟨on, -, rfl⟩ | ⟨d, b, rfl, -⟩ | ⟨m, c, b, t, d, rfl, -, rfl⟩
  · obtain ⟨f, hm, rfl⟩ := List.mem_map.1 ha
    exact (hf f hm).2.1 hd
  · simp at ha
  · simp only [List.mem_singleton] at ha; subst ha; cases hd
  · obtain ⟨fs, f⟩ := a
    cases f <;> simp [bracketActs, Frame.isData] at ha hd
  · obtain ⟨fs, f⟩ := a
    cases f <;> simp [Plan.initialisation, bracketActs, Frame.isData] at ha hd

/-- What `create` can do when it goes on. -/
theorem create_cases {hasBus hasDc hasCs hasRst : Bool} {s t : State}
    (h : exec (.create hasBus hasDc hasCs hasRst) s = .next t) :
    ((hasBus = false ∨ hasDc = false) ∧ t = { s with created := false, result := some .configurationError }) ∨
    (hasBus = true ∧ hasDc = true ∧ s.offered.wf = true ∧ t = (s.construct hasCs hasRst).setResult .ok) := by
  simp only [exec, execCreate] at h
  cases hasBus <;> cases hasDc <;> simp only [Bool.not_true, Bool.not_false, Bool.or_false, Bool.or_true, if_true, raise] at h
  · cases h; exact .inl ⟨.inl rfl, rfl⟩
  · cases h; exact .inl ⟨.inl rfl, rfl⟩
  · cases h; exact .inl ⟨.inr rfl, rfl⟩
  · rw [if_neg (by simp)] at h
    cases hw : s.offered.wf
    · rw [hw, if_neg (by simp)] at h; cases h
    · rw [hw, if_pos rfl] at h
      cases h
      exact .inr ⟨rfl, rfl, rfl, rfl⟩

/-- An instruction that is `create`. -/
theorem Instr.eq_create {i : Instr} (h : i.isCreate = true) : ∃ a b c d, i = .create a b c d := by
  cases i <;> first | exact ⟨_, _, _, _, rfl⟩ | cases h

/-- What any instruction sends, `create` included: frames, none of them an empty data frame. -/
theorem exec_emits {i : Instr} {s t : State} (h : exec i s = .next t) : ∃ gs : List Sent,
    (∀ g ∈ gs, g.frame ≠ .data []) ∧ t.frames = s.frames ++ gs ∧ t.events = s.events ++ gs.flatMap (Sent.events s.cfg) ∧
      t.rx = gs.foldl (Receiver.take s.cfg.par) s.rx := by
  cases hi : i.isCreate
  · obtain ⟨-, ⟨w, n, -, rfl⟩ | ⟨q, hp, he, -⟩ | ⟨q, before, a, after, hp, hs, he, -⟩⟩ := exec_cases hi h
    · exact ⟨[], by simp⟩
    · refine ⟨_, fun g hg => ?_, he.frames, he.events, he.rx⟩
      obtain ⟨f, hf, rfl⟩ := List.mem_map.1 hg
      obtain ⟨a, ha, rfl⟩ := List.mem_map.1 hf
      exact plan_no_empty_data hi hp a ha
    · refine ⟨_, fun g hg => ?_, he.frames, he.events, he.rx⟩
      have := plan_no_empty_data hi hp
      rw [hs] at this
      rcases List.mem_append.1 hg with hg | hg
      · obtain ⟨f, hf, rfl⟩ := List.mem_map.1 hg
        obtain ⟨b, hb, rfl⟩ := List.mem_map.1 hf
        exact this b (by simp [hb])
      · rw [List.mem_singleton.1 hg]
        exact this a (by simp)
  · obtain ⟨_, _, _, _, rfl⟩ := Instr.eq_create hi
    rcases create_cases h with ⟨-, rfl⟩ | ⟨-, -, -, rfl⟩ <;> exact ⟨[], by simp⟩

/-- What a step can do: wait, run one instruction on the state without the oldest request, or drop that request. -/
theorem step_cases {s t : State} (h : step s = .next t) :
    (s.requests = [] ∧ t = s) ∨
    (∃ r rs, s.requests = r :: rs ∧ ((∃ i, exec i (s.withRequests rs) = .next t) ∨ t = s.withRequests rs)) := by
  unfold step at h
  split at h
  · cases h; exact .inl ⟨‹_›, rfl⟩
  · rename_i r rs hr
    refine .inr ⟨r, rs, hr, ?_⟩
    split at h
    · exact .inl ⟨_, h⟩
    · rename_i e _
      cases e <;> simp only [unaccepted, notAccepted] at h <;> first | (cases h; exact .inr rfl) | exact .inl ⟨.rawCommand _, h⟩

end Sys2Proof.Machine
end

