-- ==== Sys2Proof/Laws/Agree.lean ====
section
/-! SUPPORT. Two machines that agree on everything the block reads do the same: the same answers, the same frames, the
same mirror, the same result (`exec_agrees`). Neither the receiver nor the output lines nor the chip-select line is read. -/

namespace Sys2Proof.Machine

/-- Agreement on what the block reads and writes: all but the receiver, the lines, the pin trace and the wiring. -/
structure Agrees (s s' : State) : Prop where
  created  : s'.created = s.created
  fs       : s'.fs = s.fs
  dcfg     : s'.dcfg = s.dcfg
  offered  : s'.offered = s.offered
  requests : s'.requests = s.requests
  answers  : s'.answers = s.answers
  frames   : s'.frames = s.frames
  result   : s'.result = s.result
  fallible : s'.cfg.par.transportFallible = s.cfg.par.transportFallible

/-- The transport gives the same answer. -/
theorem Agrees.answer {s s' : State} (h : Agrees s s') : s'.answer = s.answer := by
  unfold State.answer
  rw [h.fallible, h.answers, h.frames]

theorem Agrees.dropAnswer {s s' : State} (h : Agrees s s') : Agrees s.dropAnswer s'.dropAnswer := by
  constructor <;> simp [h.created, h.fs, h.dcfg, h.offered, h.requests, h.frames, h.result, h.fallible,
    State.dropAnswer_answers, h.answers]

theorem Agrees.record {s s' : State} (h : Agrees s s') (f : Sent) : Agrees (s.record f) (s'.record f) := by
  constructor <;> simp [h.created, h.fs, h.dcfg, h.offered, h.requests, h.frames, h.result, h.fallible, h.answers]

theorem Agrees.withFs {s s' : State} (h : Agrees s s') (fs : FunctionState) :
    Agrees { s with fs := fs } { s' with fs := fs } :=
  ⟨h.created, rfl, h.dcfg, h.offered, h.requests, h.answers, h.frames, h.result, h.fallible⟩

/-- One frame: both succeed or both fail. -/
theorem emitFrame_agrees {s s' : State} (h : Agrees s s') (f : Frame) :
    (∃ t t' b, emitFrame f s = .ok t ∧ emitFrame f s' = .ok t' ∧ Emits s t [⟨f, b⟩] ∧ Emits s' t' [⟨f, b⟩] ∧ Agrees t t') ∨
    (∃ t t' b, emitFrame f s = .error t ∧ emitFrame f s' = .error t' ∧ Emits s t [⟨f, b⟩] ∧ Emits s' t' [⟨f, b⟩] ∧
      Agrees t t') := by
  have hd : ∀ (u : State) (g : Frame) (b : Bool), Emits u (u.dropAnswer.record ⟨g, b⟩) [⟨g, b⟩] := by
    intro u g b
    constructor <;> simp
  have key : ∀ g : Frame,
      (∃ t t' b, emitTransfer g s = .ok t ∧ emitTransfer g s' = .ok t' ∧ Emits s t [⟨g, b⟩] ∧ Emits s' t' [⟨g, b⟩] ∧
        Agrees t t') ∨
      (∃ t t' b, emitTransfer g s = .error t ∧ emitTransfer g s' = .error t' ∧ Emits s t [⟨g, b⟩] ∧ Emits s' t' [⟨g, b⟩] ∧
        Agrees t t') := by
    intro g
    rcases emitTransfer_cases g s with ⟨ha, e⟩ | ⟨ha, e⟩ <;> rcases emitTransfer_cases g s' with ⟨ha', e'⟩ | ⟨ha', e'⟩
    · exact .inl ⟨_, _, _, e, e', hd _ _ _, hd _ _ _, h.dropAnswer.record _⟩
    · rw [h.answer, ha] at ha'; cases ha'
    · rw [h.answer, ha] at ha'; cases ha'
    · exact .inr ⟨_, _, _, e, e', hd _ _ _, hd _ _ _, h.dropAnswer.record _⟩
  cases f with
  | resetPulse => exact .inl ⟨_, _, _, rfl, rfl, Emits.record _ _, Emits.record _ _, h.record _⟩
  | cmd b => exact key _
  | data bs => exact key _

/-- A plan's frames: both runs succeed or both fail at the same frame. -/
theorem runActs_agrees (as : List Act) {s s' : State} (h : Agrees s s') :
    (∃ t t' gs, runActs as s = .ok t ∧ runActs as s' = .ok t' ∧ Emits s t gs ∧ Emits s' t' gs ∧ Agrees t t') ∨
    (∃ t t' gs, runActs as s = .error t ∧ runActs as s' = .error t' ∧ Emits s t gs ∧ Emits s' t' gs ∧ Agrees t t') := by
  induction as generalizing s s' with
  | nil => exact .inl ⟨s, s', [], rfl, rfl, Emits.refl _, Emits.refl _, h⟩
  | cons a as ih =>
    have hl : ∀ {u w : State} {gs : List Sent}, Emits { u with fs := a.1 } w gs → Emits u w gs :=
      fun he => ⟨he.frames, he.events, he.lines, he.rx, he.created, he.cfg, he.offered, he.requests⟩
    rcases emitFrame_agrees (h.withFs a.1) a.2 with ⟨t, t', b, e, e', he, he', ha⟩ | ⟨t, t', b, e, e', he, he', ha⟩
    · rcases ih ha with ⟨u, u', gs, q, q', hq, hq', hu⟩ | ⟨u, u', gs, q, q', hq, hq', hu⟩
      · exact .inl ⟨u, u', _, by rw [runActs, e]; exact q, by rw [runActs, e']; exact q', (hl he).trans hq, (hl he').trans hq', hu⟩
      · exact .inr ⟨u, u', _, by rw [runActs, e]; exact q, by rw [runActs, e']; exact q', (hl he).trans hq, (hl he').trans hq', hu⟩
    · exact .inr ⟨t, t', _, by rw [runActs, e]; rfl, by rw [runActs, e']; rfl, hl he, hl he', ha⟩

/-- Two machines that agree, and whose plans are the same, do the same. -/
theorem exec_agrees {i : Instr} {s s' t : State} (hi : i.isCreate = false) (h : Agrees s s') (hp : plan i s' = plan i s)
    (ht : exec i s = .next t) :
    ∃ t' gs, exec i s' = .next t' ∧ Emits s t gs ∧ Emits s' t' gs ∧ Agrees t t' := by
  rw [exec_eq_plan i s hi] at ht
  obtain ⟨hc, ht⟩ := withBlock_next ht
  rw [exec_eq_plan i s' hi, withBlock_created (h.created.trans hc), hp]
  have hl : ∀ {u w : State} {gs : List Sent} {f : FunctionState} {d : DisplayConfig},
      Emits { u with fs := f, dcfg := d } w gs → Emits u w gs :=
    fun he => ⟨he.frames, he.events, he.lines, he.rx, he.created, he.cfg, he.offered, he.requests⟩
  cases hq : plan i s with
  | error e =>
    rw [hq] at ht
    cases ht
    exact ⟨_, [], rfl, by constructor <;> simp, by constructor <;> simp,
      ⟨h.created, h.fs, h.dcfg, h.offered, h.requests, h.answers, h.frames, rfl, h.fallible⟩⟩
  | ok p =>
    rw [hq] at ht
    have h' : Agrees { s with fs := p.fs, dcfg := p.dcfg } { s' with fs := p.fs, dcfg := p.dcfg } :=
      ⟨h.created, rfl, rfl, h.offered, h.requests, h.answers, h.frames, h.result, h.fallible⟩
    simp only [Plan.run] at ht ⊢
    rcases runActs_agrees p.acts h' with ⟨u, u', gs, e, e', he, he', ha⟩ | ⟨u, u', gs, e, e', he, he', ha⟩
    · rw [e, finish_ok] at ht
      cases ht
      exact ⟨u'.setResult .ok, gs, by rw [e', finish_ok], hl ⟨he.frames, he.events, he.lines, he.rx, he.created, he.cfg, he.offered, he.requests⟩,
        hl ⟨he'.frames, he'.events, he'.lines, he'.rx, he'.created, he'.cfg, he'.offered, he'.requests⟩,
        ⟨ha.created, ha.fs, ha.dcfg, ha.offered, ha.requests, ha.answers, ha.frames, rfl, ha.fallible⟩⟩
    · rw [e, finish_error] at ht
      cases ht
      refine ⟨_, gs, by rw [e', finish_error], ?_, ?_, ?_⟩
      · cases p.clearsPd <;> exact ⟨he.frames, he.events, he.lines, he.rx, he.created, he.cfg, he.offered, he.requests⟩
      · cases p.clearsPd <;> exact ⟨he'.frames, he'.events, he'.lines, he'.rx, he'.created, he'.cfg, he'.offered, he'.requests⟩
      · cases p.clearsPd <;>
          exact ⟨ha.created, by simp [ha.fs], ha.dcfg, ha.offered, ha.requests, ha.answers, ha.frames, rfl, ha.fallible⟩

end Sys2Proof.Machine
end

