-- ==== Sys2Proof/Laws/Answers.lean ====
section
/-! SUPPORT. A transport that may fail: what its answers make of the frames an instruction sends (`exec_answered`), and
the same machine with one that cannot. -/

namespace Sys2Proof.Machine

/-- R106: what the answers make of frames sent one after the other. -/
structure Answered (s t : State) (gs : List Sent) : Prop where
  answers   : t.answers = s.answers.drop (gs.filter (·.frame.isTransfer)).length
  delivered : ∀ before g after, gs = before ++ g :: after →
    g.delivered = if g.frame.isTransfer then
        s.answers[(before.filter (·.frame.isTransfer)).length]?.getD
          (Config.transportAnswer (s.frames.length + before.length))
      else true

/-- One frame: a transfer takes the oldest answer, a pulse takes none. -/
theorem emitFrame_answered {s : State} (h : s.cfg.par.transportFallible = true) (f : Frame) :
    (∃ t, emitFrame f s = .ok t ∧ Emits s t [⟨f, true⟩] ∧ Answered s t [⟨f, true⟩]) ∨
    (∃ t, emitFrame f s = .error t ∧ Emits s t [⟨f, false⟩] ∧ Answered s t [⟨f, false⟩]) := by
  have ha : s.answer = s.answers[0]?.getD (Config.transportAnswer s.frames.length) := by
    unfold State.answer
    rw [if_pos h]
    cases s.answers <;> rfl
  have one : ∀ (b : Bool) (g : Frame), g.isTransfer = true → s.answer = b →
      Emits s (s.dropAnswer.record ⟨g, b⟩) [⟨g, b⟩] ∧ Answered s (s.dropAnswer.record ⟨g, b⟩) [⟨g, b⟩] := by
    intro b g hg hb
    refine ⟨by constructor <;> simp, ?_, ?_⟩
    · simp [hg, State.dropAnswer_answers, h]
    · intro before g' after hs
      cases before with
      | nil => cases hs; simpa [hg, ha] using hb.symm
      | cons _ before => cases before <;> cases hs
  have key : ∀ g : Frame, g.isTransfer = true →
      (∃ t, emitTransfer g s = .ok t ∧ Emits s t [⟨g, true⟩] ∧ Answered s t [⟨g, true⟩]) ∨
      (∃ t, emitTransfer g s = .error t ∧ Emits s t [⟨g, false⟩] ∧ Answered s t [⟨g, false⟩]) := by
    intro g hg
    rcases emitTransfer_cases g s with ⟨hb, e⟩ | ⟨hb, e⟩
    · exact .inl ⟨_, e, one _ g hg hb⟩
    · exact .inr ⟨_, e, one _ g hg hb⟩
  cases f with
  | cmd b => exact key _ rfl
  | data bs => exact key _ rfl
  | resetPulse =>
    refine .inl ⟨_, rfl, Emits.record s _, rfl, ?_⟩
    intro before g after hs
    cases before with
    | nil => cases hs; rfl
    | cons _ before => cases before <;> cases hs

/-- One frame, and then those. -/
theorem Answered.cons {s t u : State} {f : Sent} {gs : List Sent} (he : Emits s t [f]) (h : Answered s t [f])
    (h' : Answered t u gs) : Answered s u (f :: gs) := by
  have h1 := h.answers
  refine ⟨?_, fun before g after hs => ?_⟩
  · rw [h'.answers, h1, List.drop_drop, List.filter_cons]
    congr 1
    cases hf : f.frame.isTransfer <;> simp [hf, Nat.add_comm]
  · cases before with
    | nil => cases hs; exact h.delivered [] f [] rfl
    | cons b before =>
      cases hs
      have hl : t.frames.length + before.length = s.frames.length + (before.length + 1) := by
        rw [he.frames, List.length_append, List.length_singleton]; omega
      rw [h'.delivered before g after rfl, h1, List.length_cons, hl]
      cases hf : f.frame.isTransfer <;> simp [hf, Nat.add_comm]

/-- The frames of a plan. -/
theorem runActs_answered (as : List Act) {s : State} (h : s.cfg.par.transportFallible = true) :
    (∃ t gs, runActs as s = .ok t ∧ Emits s t gs ∧ Answered s t gs) ∨
    (∃ t gs, runActs as s = .error t ∧ Emits s t gs ∧ Answered s t gs) := by
  induction as generalizing s with
  | nil => exact .inl ⟨s, [], rfl, Emits.refl s, rfl, by intro b g a hs; cases b <;> cases hs⟩
  | cons a as ih =>
    have hl : ∀ {w : State} {gs : List Sent}, Emits { s with fs := a.1 } w gs → Emits s w gs :=
      fun he => ⟨he.frames, he.events, he.lines, he.rx, he.created, he.cfg, he.offered, he.requests⟩
    have hl' : ∀ {w : State} {gs : List Sent}, Answered { s with fs := a.1 } w gs → Answered s w gs :=
      fun he => ⟨he.answers, he.delivered⟩
    rcases emitFrame_answered (s := { s with fs := a.1 }) h a.2 with ⟨t, e, he, ha⟩ | ⟨t, e, he, ha⟩
    · rcases ih (s := t) (by rw [he.cfg]; exact h) with ⟨u, gs, q, hq, hu⟩ | ⟨u, gs, q, hq, hu⟩
      · exact .inl ⟨u, _, by rw [runActs, e]; exact q, (hl he).trans hq, (hl' ha).cons (hl he) hu⟩
      · exact .inr ⟨u, _, by rw [runActs, e]; exact q, (hl he).trans hq, (hl' ha).cons (hl he) hu⟩
    · exact .inr ⟨t, _, by rw [runActs, e]; rfl, hl he, hl' ha⟩

/-- R106: every instruction's transfers take the answers in order. -/
theorem exec_answered {i : Instr} {s t : State} (hi : i.isCreate = false) (h : s.cfg.par.transportFallible = true)
    (ht : exec i s = .next t) : ∃ gs, t.frames = s.frames ++ gs ∧ Answered s t gs := by
  rw [exec_eq_plan i s hi] at ht
  obtain ⟨-, ht⟩ := withBlock_next ht
  cases hq : plan i s with
  | error e =>
    rw [hq] at ht
    cases ht
    exact ⟨[], by simp, rfl, by intro b g a hs; cases b <;> cases hs⟩
  | ok p =>
    rw [hq] at ht
    simp only [Plan.run] at ht
    rcases runActs_answered p.acts (s := { s with fs := p.fs, dcfg := p.dcfg }) h with ⟨u, gs, e, he, ha⟩ | ⟨u, gs, e, he, ha⟩
    · rw [e, finish_ok] at ht
      cases ht
      exact ⟨gs, he.frames, ha.answers, ha.delivered⟩
    · rw [e, finish_error] at ht
      cases ht
      refine ⟨gs, ?_, ?_, ha.delivered⟩ <;> cases p.clearsPd
      · exact he.frames
      · exact he.frames
      · exact ha.answers
      · exact ha.answers

/-! ## The same machine with a transport that cannot fail -/

/-- The receiver takes frames alike. -/
theorem Receiver.take_infallible (s : State) : Receiver.take s.infallible.cfg.par = Receiver.take s.cfg.par := by
  funext rx f
  rcases f with ⟨f, d⟩
  cases f <;> cases rx <;> rfl

/-- Frames have the same events. -/
theorem Sent.events_infallible (s : State) : Sent.events s.infallible.cfg = Sent.events s.cfg := by
  funext f
  rcases f with ⟨f, d⟩
  cases f <;> rfl

/-- Instructions have the same plans. -/
theorem plan_infallible (i : Instr) (s : State) : plan i s.infallible = plan i s := plan_congr i rfl rfl rfl rfl rfl rfl

end Sys2Proof.Machine
end

