-- ==== Sys2Proof/Laws/Codec.lean ====
section
/-! SUPPORT. The operand layout of operation requests (log entry 2): each reader reads back what its writer put, whatever
bytes follow; and each command byte of the reference constants is read back under the latch of its set. -/

namespace Sys2Proof

open Sys2Proof.Machine

@[simp] theorem readBool_put (b : Bool) (rest : List Byte) : readBool (putBool b ++ rest) = .ok (b, rest) := by
  cases b <;> rfl

@[simp] theorem readMode_put (m : AddressingMode) (rest : List Byte) : readMode (putMode m ++ rest) = .ok (m, rest) := by
  cases m <;> rfl

@[simp] theorem readByte_cons (b : Byte) (rest : List Byte) : readByte (b :: rest) = .ok (b, rest) := rfl

/-- A natural is read back, given fuel enough to write it. -/
theorem readNat_putIn (fuel n : Nat) (h : n ≤ fuel) (rest : List Byte) : readNat (putNatIn fuel n ++ rest) = .ok (n, rest) := by
  induction fuel generalizing n with
  | zero =>
    obtain rfl : n = 0 := by omega
    rfl
  | succ fuel ih =>
    unfold putNatIn
    split
    · have h8 : n % 256 = n := by omega
      simp only [List.cons_append, List.nil_append, readNat, BitVec.toNat_ofNat]
      rw [show n % 2 ^ 8 = n by omega, if_pos ‹_›]
    · have h1 : (128 + n % 128) % 2 ^ 8 = 128 + n % 128 := by omega
      simp only [List.cons_append, readNat, BitVec.toNat_ofNat]
      rw [h1, if_neg (by omega), ih (n / 128) (by omega)]
      simp only [Except.ok.injEq, Prod.mk.injEq, and_true]
      omega

@[simp] theorem readNat_put (n : Nat) (rest : List Byte) : readNat (putNat n ++ rest) = .ok (n, rest) :=
  readNat_putIn n n (Nat.le_refl n) rest

@[simp] theorem readOption_put (o : Option Nat) (rest : List Byte) : readOption (putOption o ++ rest) = .ok (o, rest) := by
  cases o with
  | none => rfl
  | some n =>
    simp only [putOption, List.cons_append, readOption]
    rw [if_neg (by decide), if_pos trivial, readNat_put]

theorem readBytesOf_append (bs rest : List Byte) : readBytesOf bs.length (bs ++ rest) = .ok (bs, rest) := by
  induction bs with
  | nil => rfl
  | cons b bs ih => simp only [List.length_cons, List.cons_append, readBytesOf, ih]

@[simp] theorem readBytes_put (bs rest : List Byte) : readBytes (putBytes bs ++ rest) = .ok (bs, rest) := by
  simp only [readBytes, putBytes, List.append_assoc, readNat_put, readBytesOf_append]

theorem readTextOf_append (text : List Nat) (h : ∀ c ∈ text, c ≤ 0x10FFFF) (rest : List Byte) :
    readTextOf text.length (text.flatMap putNat ++ rest) = .ok (text, rest) := by
  induction text with
  | nil => rfl
  | cons c text ih =>
    simp only [List.length_cons, List.flatMap_cons, List.append_assoc, readTextOf, readNat_put]
    rw [if_pos (h c (by simp)), ih fun c hc => h c (by simp [hc])]

theorem readText_put {text : List Nat} (h : ∀ c ∈ text, c ≤ 0x10FFFF) (rest : List Byte) :
    readText (putText text ++ rest) = .ok (text, rest) := by
  simp only [readText, putText, List.append_assoc, readNat_put, readTextOf_append text h]

@[simp] theorem Reading.andThen_ok {α β : Type} (a : α) (rest : List Byte) (k : α → List Byte → Reading β) :
    Reading.andThen (.ok (a, rest) : Reading α) k = k a rest := rfl

@[simp] theorem Reading.make_ok {α β : Type} (a : α) (rest : List Byte) (f : α → β) :
    Reading.make (.ok (a, rest) : Reading α) f = .ok (f a, rest) := rfl

/-! ## Command bytes -/

/-- A reading that answers something answers it. -/
theorem ok_of_toOption {α : Type} {r : Except DecodeError α} {a : α} (h : r.toOption = some a) : r = .ok a := by
  cases r with
  | error e => cases h
  | ok b => cases h; rfl

theorem decodeCommand_fsbyte (h' pd v h : Bool) :
    decodeCommand Codes.reference h' (fsbyte Codes.reference pd v h) = .ok (.wireFunctionSet pd v h) := by
  cases h' <;> cases pd <;> cases v <;> cases h <;> rfl

theorem decodeCommand_tcByte (t : BitVec 2) :
    decodeCommand Codes.reference true (tcByte Codes.reference t) = .ok (.wireSetTc t) := by
  have key : ∀ t : BitVec 2,
      (decodeCommand Codes.reference true (tcByte Codes.reference t)).toOption = some (.wireSetTc t) := by decide
  exact ok_of_toOption (key t)

theorem decodeCommand_biasByte (b : BitVec 3) :
    decodeCommand Codes.reference true (biasByte Codes.reference b) = .ok (.wireSetBias b) := by
  have key : ∀ b : BitVec 3,
      (decodeCommand Codes.reference true (biasByte Codes.reference b)).toOption = some (.wireSetBias b) := by decide
  exact ok_of_toOption (key b)

theorem decodeCommand_vopByte (v : BitVec 7) :
    decodeCommand Codes.reference true (vopByte Codes.reference v) = .ok (.wireSetVop v) := by
  have key : ∀ v : BitVec 7,
      (decodeCommand Codes.reference true (vopByte Codes.reference v)).toOption = some (.wireSetVop v) := by decide
  exact ok_of_toOption (key v)

theorem decodeCommand_columnByte (x : BitVec 7) :
    decodeCommand Codes.reference false (columnByte Codes.reference x.toNat) = .ok (.wireSetColumn x) := by
  have key : ∀ x : BitVec 7,
      (decodeCommand Codes.reference false (columnByte Codes.reference x.toNat)).toOption = some (.wireSetColumn x) := by decide
  exact ok_of_toOption (key x)

theorem decodeCommand_bankByte (y : BitVec 6) :
    decodeCommand Codes.reference false (bankByte Codes.reference y.toNat) = .ok (.wireSetBank y) := by
  have key : ∀ y : BitVec 6,
      (decodeCommand Codes.reference false (bankByte Codes.reference y.toNat)).toOption = some (.wireSetBank y) := by decide
  exact ok_of_toOption (key y)

end Sys2Proof
end

