-- ==== Sys2Proof/Laws/Memory.lean ====
section
/-! SUPPORT. The display memory: a read after a write, and the canonical form, which every write keeps. -/

namespace Sys2Proof.Machine

/-- A location reads as the byte last written to it. -/
@[simp] theorem Memory.read_write_same (m : List Host.Cell) (a : Nat) (v : Byte) :
    Memory.read (Memory.write m a v) a = some v := by
  induction m with
  | nil => simp [Memory.write, Memory.read]
  | cons p m ih =>
    obtain ⟨k, w⟩ := p
    unfold Memory.write
    split
    · simp [Memory.read]
    · split
      · simp [Memory.read]
      · rename_i h1 h2
        simp [Memory.read, ih, Ne.symm h2]

/-- A write leaves every other location alone. -/
theorem Memory.read_write_other (m : List Host.Cell) {a b : Nat} (v : Byte) (h : b ≠ a) :
    Memory.read (Memory.write m a v) b = Memory.read m b := by
  induction m with
  | nil => simp [Memory.write, Memory.read, h.symm]
  | cons p m ih =>
    obtain ⟨k, w⟩ := p
    unfold Memory.write
    split
    · simp [Memory.read, h.symm]
    · split
      · rename_i h1 h2
        subst h2
        simp [Memory.read, h.symm]
      · simp only [Memory.read, ih]

/-- A write at a listed index of a rising list replaces that entry. -/
theorem Memory.keys_write {m : List Host.Cell} (hs : (m.map Prod.fst).Pairwise (· < ·)) {a : Nat}
    (ha : a ∈ m.map Prod.fst) (v : Byte) : (Memory.write m a v).map Prod.fst = m.map Prod.fst := by
  induction m with
  | nil => cases ha
  | cons q m ih =>
    obtain ⟨k, w⟩ := q
    rw [List.map_cons, List.pairwise_cons] at hs
    have hk : a = k ∨ k < a ∧ a ∈ m.map Prod.fst := (List.mem_cons.1 ha).imp id fun h => ⟨hs.1 a h, h⟩
    unfold Memory.write
    rcases hk with rfl | ⟨hlt, hm⟩
    · rw [if_neg (Nat.lt_irrefl a), if_pos rfl]; rfl
    · rw [if_neg (by omega), if_neg (by omega), List.map_cons, List.map_cons, ih hs.2 hm]

/-- The locations are the indexes below 504, in rising order. -/
theorem Memory.mem_locations {a : Nat} : a ∈ Memory.locations ↔ a < 504 := by
  unfold Memory.locations; exact List.mem_range

theorem Memory.locations_rising : Memory.locations.Pairwise (· < ·) := by
  unfold Memory.locations; exact List.pairwise_lt_range

/-- A write at a DDRAM location keeps the canonical form. -/
theorem Memory.wf_write {m : List Host.Cell} (hm : Memory.wf m) {a : Nat} (ha : a < 504) (v : Byte) :
    Memory.wf (Memory.write m a v) :=
  (Memory.keys_write (hm.symm ▸ Memory.locations_rising) (hm.symm ▸ Memory.mem_locations.2 ha) v).trans hm

/-- A draw is in the canonical form. -/
theorem Memory.wf_fresh (draw : Nat) : Memory.wf (Memory.fresh draw) := by
  unfold Memory.fresh
  rw [Memory.wf, List.map_map]
  exact List.map_id _

/-- What a draw holds. -/
theorem Memory.read_fresh (draw a : Nat) :
    Memory.read (Memory.fresh draw) a = if a < 504 then some (Config.ddramByte draw a) else none := by
  have key : ∀ l : List Nat, Memory.read (l.map fun a => (a, Config.ddramByte draw a)) a =
      if a ∈ l then some (Config.ddramByte draw a) else none := by
    intro l
    induction l with
    | nil => rfl
    | cons k l ih =>
      by_cases h : k = a
      · subst h; simp [Memory.read]
      · simp only [List.map_cons, Memory.read, if_neg h, ih, List.mem_cons, Ne.symm h, false_or]
  unfold Memory.fresh
  rw [key]
  simp only [Memory.mem_locations]

/-- R51: eight rows to a bank, and a byte for each column of each bank. -/
theorem ddram_geometry : Config.rows = 8 * Config.banks ∧ Config.ddramBytes = Config.cols * Config.banks := by decide

/-- Every cursor position is a DDRAM location. -/
theorem ddramIndex_lt (x : Fin 84) (y : Fin 6) : ddramIndex x y < 504 := by
  have := x.isLt; have := y.isLt
  simp only [ddramIndex, Config.cols]
  omega

/-- Different cursor positions are different locations. -/
theorem ddramIndex_injective {x x' : Fin 84} {y y' : Fin 6} (h : ddramIndex x y = ddramIndex x' y') :
    x = x' ∧ y = y' := by
  have := x.isLt; have := x'.isLt
  simp only [ddramIndex, Config.cols] at h
  exact ⟨Fin.ext (by omega), Fin.ext (by omega)⟩

/-- A data byte keeps the canonical form. -/
theorem Ctl.wf_store {c : Ctl} (h : Memory.wf c.ddram) (d : Byte) : Memory.wf (c.store d).ddram :=
  Memory.wf_write h (ddramIndex_lt c.x c.y) d

end Sys2Proof.Machine
end

