-- ==== Sys2Proof/Laws/Receiver.lean ====
section
/-! SUPPORT. The receiver: what the bytes of the reference constants classify as, what a command leaves alone, where a
data byte goes, and the place of a cursor in its scan. -/

namespace Sys2Proof.Machine

/-! ## Classification of the bytes LCDENC builds, under the reference constants -/

theorem classify_fsbyte (h' pd v h : Bool) :
    classify Codes.reference h' (fsbyte Codes.reference pd v h) = .functionSet pd v h := by
  revert h' pd v h; decide

theorem classify_tcByte (t : BitVec 2) : classify Codes.reference true (tcByte Codes.reference t) = .setTc t := by
  revert t; decide

theorem classify_biasByte (b : BitVec 3) : classify Codes.reference true (biasByte Codes.reference b) = .setBias b := by
  revert b; decide

theorem classify_vopByte (v : BitVec 7) : classify Codes.reference true (vopByte Codes.reference v) = .setVop v := by
  revert v; decide

theorem classify_columnByte (n : Nat) :
    classify Codes.reference false (columnByte Codes.reference n) = .setColumn (BitVec.ofNat 7 n) := by
  have h1 : columnByte Codes.reference n = columnByte Codes.reference (n % 128) := by
    rw [columnByte_eq, columnByte_eq, Nat.mod_mod]
  have h2 : BitVec.ofNat 7 n = BitVec.ofNat 7 (n % 128) := by
    apply BitVec.eq_of_toNat_eq; simp
  have h3 : ∀ k : Fin 128, classify Codes.reference false (columnByte Codes.reference k.val) =
      .setColumn (BitVec.ofNat 7 k.val) := by decide
  rw [h1, h2]
  exact h3 ⟨n % 128, Nat.mod_lt _ (by decide)⟩

/-- C6: LCDENC sends six bits of bank, of which the controller knows three. -/
theorem classify_bankByte (n : Nat) :
    classify Codes.reference false (bankByte Codes.reference n) =
      if n % 64 < 8 then .setBank (BitVec.ofNat 3 (n % 64)) else .undefined := by
  have h1 : bankByte Codes.reference n = bankByte Codes.reference (n % 64) := by
    rw [bankByte_eq, bankByte_eq, Nat.mod_mod]
  have h3 : ∀ k : Fin 64, classify Codes.reference false (bankByte Codes.reference k.val) =
      if k.val < 8 then .setBank (BitVec.ofNat 3 k.val) else .undefined := by decide
  rw [h1]
  exact h3 ⟨n % 64, Nat.mod_lt _ (by decide)⟩

theorem classify_display :
    classify Codes.reference false Codes.reference.displayBlank = .display .blank ∧
    classify Codes.reference false Codes.reference.displayAllOn = .display .allOn ∧
    classify Codes.reference false Codes.reference.displayNormal = .display .normal ∧
    classify Codes.reference false Codes.reference.displayInverse = .display .inverse := by
  decide

theorem classify_nop (h : Bool) : classify Codes.reference h Codes.reference.nop = .nop := by
  revert h; decide

/-! ## What the receiver takes -/

/-- A delivered command at a defined receiver. -/
@[simp] theorem Receiver.take_cmd (p : Params) (c : Ctl) (b : Byte) :
    Receiver.take p (.defined c) ⟨.cmd b, true⟩ = c.execute (classify p.codes c.h b) := rfl

/-- Delivered data at a defined receiver. -/
@[simp] theorem Receiver.take_data (p : Params) (c : Ctl) (bs : List Byte) :
    Receiver.take p (.defined c) ⟨.data bs, true⟩ = .defined (bs.foldl Ctl.store c) := rfl

/-- A reset pulse at any receiver. -/
@[simp] theorem Receiver.take_pulse (p : Params) (rx : Receiver) (b : Bool) :
    Receiver.take p rx ⟨.resetPulse, b⟩ = rx.pulsed p := rfl

/-- R209: nothing but a pulse leads out of `Unpredictable`. -/
theorem Receiver.take_unpredictable (p : Params) (n : Nat) {f : Sent} (h : f.frame ≠ .resetPulse) :
    Receiver.take p (.unpredictable n) f = .unpredictable n := by
  rcases f with ⟨f, d⟩
  cases f with
  | resetPulse => exact absurd rfl h
  | cmd b => rfl
  | data bs => rfl

/-- R233: a failed transfer leaves the receiver unpredictable. -/
theorem Receiver.take_failed (p : Params) (rx : Receiver) {f : Frame} (h : f ≠ .resetPulse) :
    Receiver.take p rx ⟨f, false⟩ = .unpredictable rx.draws := by
  cases f with
  | resetPulse => exact absurd rfl h
  | cmd b => cases rx <;> rfl
  | data bs => cases rx <;> rfl

/-- A pulse of a well-formed width. -/
theorem Receiver.pulsed_wf {p : Params} (h : p.pulseWf = true) (rx : Receiver) :
    rx.pulsed p = .defined (Ctl.afterReset rx.draws) := if_pos h

/-- A command does not draw. -/
theorem Ctl.execute_draws (i : CtlInstr) (c : Ctl) : (c.execute i).draws = c.draws := by
  cases i <;> simp only [Ctl.execute, Ctl.setBank, Ctl.setColumn] <;> first | rfl | (split <;> rfl)

/-- R53: no command changes the display memory. -/
theorem Ctl.execute_ddram {i : CtlInstr} {c c' : Ctl} (h : c.execute i = .defined c') : c'.ddram = c.ddram := by
  cases i <;> simp only [Ctl.execute, Ctl.setBank, Ctl.setColumn] at h
  case setBank | setColumn => split at h <;> cases h; rfl
  case undefined => cases h
  all_goals cases h; rfl

/-- R202: nothing the receiver takes lowers the count of draws. -/
theorem Receiver.draws_take_le (p : Params) (rx : Receiver) (f : Sent) : rx.draws ≤ (rx.take p f).draws := by
  have hs : ∀ (bs : List Byte) (c : Ctl), (bs.foldl Ctl.store c).draws = c.draws := by
    intro bs
    induction bs with
    | nil => exact fun _ => rfl
    | cons b bs ih => exact fun c => ih (c.store b)
  obtain ⟨f, d⟩ := f
  cases f with
  | resetPulse =>
    simp only [Receiver.take, Receiver.pulsed]
    split
    · exact Nat.le_succ _
    · exact Nat.le_refl _
  | cmd b =>
    cases rx with
    | unpredictable n => exact Nat.le_refl _
    | defined c =>
      cases d
      · exact Nat.le_refl _
      · exact Nat.le_of_eq (Ctl.execute_draws _ c).symm
  | data bs =>
    cases rx with
    | unpredictable n => exact Nat.le_refl _
    | defined c =>
      cases d
      · exact Nat.le_refl _
      · exact Nat.le_of_eq (hs bs c).symm

/-! ## Data bytes -/

@[simp] theorem Ctl.store_draws (c : Ctl) (d : Byte) : (c.store d).draws = c.draws := rfl
@[simp] theorem Ctl.store_pd (c : Ctl) (d : Byte) : (c.store d).pd = c.pd := rfl
@[simp] theorem Ctl.store_v (c : Ctl) (d : Byte) : (c.store d).v = c.v := rfl
@[simp] theorem Ctl.store_h (c : Ctl) (d : Byte) : (c.store d).h = c.h := rfl
@[simp] theorem Ctl.store_de (c : Ctl) (d : Byte) : (c.store d).de = c.de := rfl
@[simp] theorem Ctl.store_tc (c : Ctl) (d : Byte) : (c.store d).tc = c.tc := rfl
@[simp] theorem Ctl.store_bs (c : Ctl) (d : Byte) : (c.store d).bs = c.bs := rfl
@[simp] theorem Ctl.store_vop (c : Ctl) (d : Byte) : (c.store d).vop = c.vop := rfl
@[simp] theorem Ctl.store_cursor (c : Ctl) (d : Byte) : (c.store d).cursor = advance c.v c.cursor := rfl

/-- Data bytes change the cursor and the display memory alone. -/
theorem Ctl.stores_fields (bs : List Byte) (c : Ctl) :
    { bs.foldl Ctl.store c with x := c.x, y := c.y, ddram := c.ddram } = c := by
  induction bs generalizing c with
  | nil => rfl
  | cons b bs ih => exact congrArg (fun k : Ctl => { k with x := c.x, y := c.y, ddram := c.ddram }) (ih (c.store b))

/-- After so many data bytes the cursor is so many places on. -/
theorem Ctl.stores_cursor (bs : List Byte) (c : Ctl) :
    (bs.foldl Ctl.store c).cursor = (advance c.v)^[bs.length] c.cursor := by
  induction bs generalizing c with
  | nil => rfl
  | cons b bs ih => rw [List.foldl_cons, ih, List.length_cons, Function.iterate_succ_apply]; rfl

/-- A location the cursor does not visit keeps its byte. -/
theorem Ctl.stores_other (bs : List Byte) (c : Ctl) (a : Nat)
    (h : ∀ k < bs.length, a ≠ ddramIndex ((advance c.v)^[k] c.cursor).1 ((advance c.v)^[k] c.cursor).2) :
    Memory.read (bs.foldl Ctl.store c).ddram a = Memory.read c.ddram a := by
  induction bs generalizing c with
  | nil => rfl
  | cons b bs ih =>
    rw [List.foldl_cons, ih (c.store b) fun k hk => ?_]
    · exact Memory.read_write_other _ _ (h 0 (by simp))
    · have := h (k + 1) (by simpa using hk)
      rwa [Function.iterate_succ_apply] at this

/-- The canonical form survives any number of data bytes. -/
theorem Ctl.wf_stores (bs : List Byte) {c : Ctl} (h : Memory.wf c.ddram) : Memory.wf (bs.foldl Ctl.store c).ddram := by
  induction bs generalizing c with
  | nil => exact h
  | cons b bs ih => exact ih (Ctl.wf_store h b)

/-! ## The scan -/

/-- The place of a cursor in the scan: along the banks or down the columns. -/
def place (v : Bool) (p : Fin 84 × Fin 6) : Nat :=
  if v then p.1.val * 6 + p.2.val else p.2.val * 84 + p.1.val

theorem place_lt (v : Bool) (p : Fin 84 × Fin 6) : place v p < 504 := by
  have := p.1.isLt; have := p.2.isLt
  unfold place
  split <;> omega

theorem place_injective {v : Bool} {p q : Fin 84 × Fin 6} (h : place v p = place v q) : p = q := by
  have := p.1.isLt; have := p.2.isLt; have := q.1.isLt; have := q.2.isLt
  unfold place at h
  split at h <;> exact Prod.ext (Fin.ext (by omega)) (Fin.ext (by omega))

/-- R211, R212: one place on, and from the last back to the first. -/
theorem place_advance (v : Bool) (p : Fin 84 × Fin 6) : place v (advance v p) = (place v p + 1) % 504 := by
  obtain ⟨⟨x, hx⟩, ⟨y, hy⟩⟩ := p
  cases v
  · by_cases h : x < 83
    · simp only [place, advance, nextColumn, h, Bool.false_eq_true, if_false, if_true, dif_pos]; omega
    · by_cases h' : y < 5
      · simp [place, advance, nextColumn, nextBank, h, h']; omega
      · simp [place, advance, nextColumn, nextBank, h, h']; omega
  · by_cases h' : y < 5
    · simp [place, advance, nextBank, h']; omega
    · by_cases h : x < 83
      · simp [place, advance, nextColumn, nextBank, h, h']; omega
      · simp [place, advance, nextColumn, nextBank, h, h']; omega

theorem place_iterate (v : Bool) (k : Nat) (p : Fin 84 × Fin 6) :
    place v ((advance v)^[k] p) = (place v p + k) % 504 := by
  have hp := place_lt v p
  induction k with
  | zero => simp [Nat.mod_eq_of_lt hp]
  | succ k ih => rw [Function.iterate_succ_apply', place_advance, ih]; omega

/-- In fewer than 504 steps no location is visited twice. -/
theorem iterate_injective {v : Bool} {p : Fin 84 × Fin 6} {j k : Nat} (hj : j < 504) (hk : k < 504)
    (h : (advance v)^[j] p = (advance v)^[k] p) : j = k := by
  have := place_lt v p
  have h' := congrArg (place v) h
  rw [place_iterate, place_iterate] at h'
  omega

/-- Up to 504 data bytes each stay where they were stored. -/
theorem Ctl.stores_read (bs : List Byte) (c : Ctl) (hl : bs.length ≤ 504) (k : Nat) (hk : k < bs.length) :
    Memory.read (bs.foldl Ctl.store c).ddram
      (ddramIndex ((advance c.v)^[k] c.cursor).1 ((advance c.v)^[k] c.cursor).2) = some bs[k] := by
  induction bs generalizing c k with
  | nil => simp at hk
  | cons b bs ih =>
    cases k with
    | zero =>
      rw [List.foldl_cons, Ctl.stores_other]
      · exact Memory.read_write_same _ _ _
      · intro j hj heq
        obtain ⟨h1, h2⟩ := ddramIndex_injective heq
        have h3 : (advance c.v)^[0] c.cursor = (advance c.v)^[j + 1] c.cursor := by
          rw [Function.iterate_succ_apply]; exact Prod.ext h1 h2
        have := iterate_injective (by simp) (by simp at hl; omega) h3
        omega
    | succ k =>
      have := ih (c.store b) (by simp at hl; omega) k (by simpa using hk)
      rwa [Function.iterate_succ_apply]

end Sys2Proof.Machine
end

