-- ==== Sys2Proof/Tests/Slice0.lean ====
section
/-! SUPPORT. Small tests, each with its expected value from spec/ (the word or the vector named in its comment), and for
every obligation with hypotheses a named state that meets them. -/

namespace Sys2Proof.Tests

open Sys2Proof.Machine

/-! ## WellFormed refuses an ill-formed term -/

/-- R9: a code point above 0x10FFFF is no operand. -/
theorem test_wf_refuses_code_point : (Instr.drawText [65, 0x110000]).wf = false := by decide

/-- R9: the largest code point is one. -/
theorem test_wf_accepts_last_code_point : (Instr.drawText [0x10FFFF, 0]).wf = true := by decide

/-- R9, log entry 2: the decoder refuses that character by name (0x110000 in seven-bit groups: 00 00 44). -/
theorem test_decode_refuses_code_point :
    decode Codes.reference false (.operation [0x0F#8, 1#8, 0x80#8, 0x80#8, 0x44#8]) = .error (.badCodePoint 0x110000) := rfl

/-! ## Words written out from the encodings of R72 and R81 -/

/-- R72, `0 0 1 0 0 PD V H`. -/
theorem test_decode_function_set :
    decode Codes.reference false (.command 0b00100100#8) = .ok (.wireFunctionSet true false false) ∧
    decode Codes.reference true (.command 0b00100010#8) = .ok (.wireFunctionSet false true false) ∧
    decode Codes.reference true (.command 0b00100001#8) = .ok (.wireFunctionSet false false true) := ⟨rfl, rfl, rfl⟩

/-- R72, the four display modes, and R78: reserved in the extended set. -/
theorem test_decode_display :
    decode Codes.reference false (.command 0b00001000#8) = .ok .wireDisplayBlank ∧
    decode Codes.reference false (.command 0b00001001#8) = .ok .wireDisplayAllOn ∧
    decode Codes.reference false (.command 0b00001100#8) = .ok .wireDisplayNormal ∧
    decode Codes.reference false (.command 0b00001101#8) = .ok .wireDisplayInverse ∧
    decode Codes.reference true (.command 0b00001100#8) = .error (.undefinedCommand 0x0C#8) := ⟨rfl, rfl, rfl, rfl, rfl⟩

/-- R72, `0 1 y5 y4 y3 y2 y1 y0` and `1 x6 x5 x4 x3 x2 x1 x0`. -/
theorem test_decode_address :
    decode Codes.reference false (.command 0b01000011#8) = .ok (.wireSetBank 3#6) ∧
    decode Codes.reference false (.command 0b01100000#8) = .ok (.wireSetBank 32#6) ∧
    decode Codes.reference false (.command 0b10010100#8) = .ok (.wireSetColumn 20#7) := ⟨rfl, rfl, rfl⟩

/-- R72, `0 0 0 0 0 1 t1 t0`, `0 0 0 1 0 b2 b1 b0`, `1 v6 .. v0`, and R78: reserved in the basic set. -/
theorem test_decode_extended :
    decode Codes.reference true (.command 0b00000110#8) = .ok (.wireSetTc 2#2) ∧
    decode Codes.reference true (.command 0b00010100#8) = .ok (.wireSetBias 4#3) ∧
    decode Codes.reference true (.command 0b10111111#8) = .ok (.wireSetVop 63#7) ∧
    decode Codes.reference false (.command 0b00000110#8) = .error (.undefinedCommand 0x06#8) := ⟨rfl, rfl, rfl, rfl⟩

/-- R72, R118: the no-operation in both sets; a data byte is data whatever its value. -/
theorem test_decode_nop_and_data :
    decode Codes.reference false (.command 0b00000000#8) = .ok .wireNop ∧
    decode Codes.reference true (.command 0b00000000#8) = .ok .wireNop ∧
    decode Codes.reference true (.data 0b00100001#8) = .ok (.wireDataByte 0x21#8) := ⟨rfl, rfl, rfl⟩

/-- R81: select codes 0x00 to 0x04; 300 is `2 × 128 + 44`. -/
theorem test_decode_operations_00_04 :
    decode Codes.reference false (.operation [0x00#8, 1#8, 1#8, 0#8, 1#8]) = .ok (.create true true false true) ∧
    decode Codes.reference false (.operation [0x01#8, 1#8]) = .ok (.setAddressingMode true) ∧
    decode Codes.reference false (.operation [0x02#8, 0xAC#8, 2#8]) = .ok (.setContrast 300) ∧
    decode Codes.reference false (.operation [0x03#8, 7#8]) = .ok (.setBias 7) ∧
    decode Codes.reference false (.operation [0x04#8, 3#8]) = .ok (.setTemperatureCoefficient 3) :=
  ⟨rfl, rfl, rfl, rfl, rfl⟩

/-- R81: select codes 0x05 to 0x0A. -/
theorem test_decode_operations_05_0A :
    decode Codes.reference false (.operation [0x05#8, 84#8, 6#8]) = .ok (.setCursor 84 6) ∧
    decode Codes.reference false (.operation [0x06#8, 0#8]) = .ok (.setPower false) ∧
    decode Codes.reference false (.operation [0x07#8, 1#8]) = .ok (.setInverted true) ∧
    decode Codes.reference false (.operation [0x08#8, 1#8]) = .ok (.setBlanked true) ∧
    decode Codes.reference false (.operation [0x09#8, 0#8]) = .ok (.setTestPattern false) ∧
    decode Codes.reference false (.operation [0x0A#8, 0x21#8]) = .ok (.rawCommand 0x21#8) :=
  ⟨rfl, rfl, rfl, rfl, rfl, rfl⟩

/-- R81: select codes 0x0B to 0x10. -/
theorem test_decode_operations_0B_10 :
    decode Codes.reference false (.operation [0x0B#8, 2#8, 0x1F#8, 0x05#8]) = .ok (.rawData [0x1F#8, 0x05#8]) ∧
    decode Codes.reference false (.operation [0x0C#8, 1#8, 1#8, 63#8, 0#8, 1#8, 2#8]) =
      .ok (.initialise .vertical (some 63) none (some 2)) ∧
    decode Codes.reference false (.operation [0x0D#8]) = .ok .reset ∧
    decode Codes.reference false (.operation [0x0E#8, 1#8]) = .ok (.fill true) ∧
    decode Codes.reference false (.operation [0x0F#8, 2#8, 72#8, 105#8]) = .ok (.drawText [72, 105]) ∧
    decode Codes.reference false (.operation [0x10#8, 1#8, 0xFF#8]) = .ok (.writeData [0xFF#8]) :=
  ⟨rfl, rfl, rfl, rfl, rfl, rfl⟩

/-- Every refusal of a request has its name (R81, log entry 2). -/
theorem test_decode_refusals :
    decode Codes.reference false (.operation []) = .error .truncated ∧
    decode Codes.reference false (.operation [0x11#8]) = .error (.unknownSelect 0x11#8) ∧
    decode Codes.reference false (.operation [0x0E#8, 2#8]) = .error (.badBool 2#8) ∧
    decode Codes.reference false (.operation [0x0C#8, 2#8]) = .error (.badMode 2#8) ∧
    decode Codes.reference false (.operation [0x0C#8, 1#8, 3#8]) = .error (.badPresence 3#8) ∧
    decode Codes.reference false (.operation [0x0D#8, 1#8]) = .error .trailingBytes := ⟨rfl, rfl, rfl, rfl, rfl, rfl⟩

/-- R71: within a set every command byte spells at most one instruction: what it spells is spelled by that byte alone. -/
theorem test_command_bytes_encode_back : ∀ (h : Bool) (b : Byte),
    (match decodeCommand Codes.reference h b with
      | .ok i => encode Codes.reference i == .command b
      | .error _ => true) = true := by decide

/-- A word of the opcode table, as the table numbers its bits. -/
theorem test_table_words :
    decodeTableWord 8 0x25 = some (.wireFunctionSet true false true) ∧ decodeTableWord 8 0x43 = some (.wireSetBank 3#6) ∧
    decodeTableWord 8 0x94 = some (.wireSetColumn 20#7) ∧ decodeTableWord 8 0x0D = some .reset ∧
    decodeTableWord 8 0x10 = some (.writeData []) ∧ decodeTableWord 8 0x18 = none := ⟨rfl, rfl, rfl, rfl, rfl, rfl⟩

/-! ## One step each -/

/-- A block with both lines and the reference parameters (R7), its mirror and the receiver as given. -/
def block (fs : FunctionState) (dcfg : DisplayConfig) (rx : Ctl) : State :=
  { State.reset with fs := fs, dcfg := dcfg, rx := .defined rx }

/-- The receiver the vectors of 95_test_vectors.md 2.6 start from, at a cursor. -/
def receiver (v h : Bool) (x : Fin 84) (y : Fin 6) : Ctl := ⟨false, v, h, .normal, x, y, 2#2, 4#3, 63#7, Memory.fresh 0, 1⟩

/-- A powered block in the basic set, mirror and receiver in agreement. -/
def running : State := block ⟨false, false, false⟩ ⟨0x3F#7, 4#3, 2#2⟩ (receiver false false 5 1)

/-- The same with the receiver in the extended set (after `rawCommand(0x21)`, R264). -/
def misled : State := block ⟨false, false, false⟩ ⟨0x3F#7, 4#3, 2#2⟩ (receiver false true 5 1)

/-- The same, the receiver unpredictable. -/
def lost : State := { running with rx := .unpredictable 1 }

/-- The same without chip-select and reset lines. -/
def bare : State := { running with cfg := ⟨false, false, Params.reference⟩ }

/-- The same with a transport that fails where the list says so. -/
def fallible (answers : List Bool) : State :=
  { running with cfg := ⟨true, true, { Params.reference with transportFallible := true }⟩, answers := answers }

/-- The same before `create`. -/
def absent : State := { running with created := false }

/-- The state an instruction leads to. -/
def next (i : Instr) (s : State) : State :=
  match exec i s with
  | .next t => t
  | .fault _ => s
  | .refused _ => s

/-- The frames an instruction sends. -/
def sent (i : Instr) (s : State) : List Frame := (next i s).frames.map Sent.frame

/-- R204, X8: `C:21` at the basic set. -/
theorem test_function_set : sent (.wireFunctionSet false false true) running = [.cmd 0x21#8] ∧
    (next (.wireFunctionSet false false true) running).rx = .defined (receiver false true 5 1) := ⟨rfl, rfl⟩

/-- R202: each pulse draws the display memory afresh; X14: a pulse leads out of `Unpredictable`. -/
theorem test_reset_draws :
    (next .reset running).rx = .defined (Ctl.afterReset 1) ∧
    (next .reset { running with rx := .unpredictable 7 }).rx = .defined (Ctl.afterReset 7) := ⟨rfl, rfl⟩

/-- R205: the four modes. -/
theorem test_display_modes :
    (next .wireDisplayBlank running).rx = .defined { receiver false false 5 1 with de := .blank } ∧
    (next .wireDisplayAllOn running).rx = .defined { receiver false false 5 1 with de := .allOn } ∧
    (next .wireDisplayNormal running).rx = .defined { receiver false false 5 1 with de := .normal } ∧
    (next .wireDisplayInverse running).rx = .defined { receiver false false 5 1 with de := .inverse } :=
  ⟨rfl, rfl, rfl, rfl⟩

/-- R206: `C:94`, `C:43` give X = 20, Y = 3; X12: bank 6 and 8 name no location. -/
theorem test_address_commands :
    (next (.wireSetColumn 20#7) running).rx = .defined (receiver false false 20 1) ∧
    (next (.wireSetBank 3#6) running).rx = .defined (receiver false false 5 3) ∧
    (next (.wireSetColumn 84#7) running).rx = .unpredictable 1 ∧ (next (.wireSetBank 6#6) running).rx = .unpredictable 1 ∧
    (next (.wireSetBank 8#6) running).rx = .unpredictable 1 := ⟨rfl, rfl, rfl, rfl, rfl⟩

/-- R207: `C:07`, `C:10`, `C:80` in the extended set. -/
theorem test_extended_commands :
    (next (.wireSetTc 3#2) misled).rx = .defined { receiver false true 5 1 with tc := 3#2 } ∧
    (next (.wireSetBias 0#3) misled).rx = .defined { receiver false true 5 1 with bs := 0#3 } ∧
    (next (.wireSetVop 0#7) misled).rx = .defined { receiver false true 5 1 with vop := 0#7 } := ⟨rfl, rfl, rfl⟩

/-- X9, X10, X11: bytes of the other set. -/
theorem test_misread :
    (next (.wireSetColumn 20#7) misled).rx = .defined { receiver false true 5 1 with vop := 20#7 } ∧
    (next (.wireSetBank 3#6) misled).rx = .unpredictable 1 ∧ (next .wireDisplayNormal misled).rx = .unpredictable 1 ∧
    (next (.wireSetTc 2#2) running).rx = .unpredictable 1 ∧ (next (.wireSetBias 4#3) running).rx = .unpredictable 1 :=
  ⟨rfl, rfl, rfl, rfl, rfl⟩

/-- X15: `C:00` changes nothing. -/
theorem test_nop : sent .wireNop misled = [.cmd 0x00#8] ∧ (next .wireNop misled).rx = misled.rx := ⟨rfl, rfl⟩

/-- X1 (first byte): 0xAA at (83, 2), then the cursor at (0, 3). -/
theorem test_data_byte :
    (next (.wireDataByte 0xAA#8) (block ⟨false, false, false⟩ ⟨0x3F#7, 4#3, 2#2⟩ (receiver false false 83 2))).rx =
      .defined { receiver false false 0 3 with ddram := Memory.write (Memory.fresh 0) 251 0xAA#8 } := rfl

/-- I1, I2: `create`. -/
theorem test_create :
    (next (.create true true true true) absent).created = true ∧
    (next (.create true true true true) absent).fs = ⟨true, false, false⟩ ∧
    (next (.create true true true true) absent).lines = ⟨none, none, none⟩ ∧
    (next (.create true false true true) absent).result = some .configurationError ∧
    (next (.create true false true true) absent).created = false := ⟨rfl, rfl, rfl, rfl, rfl⟩

/-- E1: the addressing mode is stored, nothing is sent. -/
theorem test_set_addressing_mode :
    (next (.setAddressingMode true) running).fs = ⟨false, true, false⟩ ∧ sent (.setAddressingMode true) running = [] :=
  ⟨rfl, rfl⟩

/-- E6, E7: `setContrast(0x45)` and `setContrast(128)`. -/
theorem test_set_contrast :
    sent (.setContrast 0x45) running = [.cmd 0x21#8, .cmd 0xC5#8, .cmd 0x20#8] ∧
    (next (.setContrast 0x45) running).dcfg.vop = 0x45#7 ∧
    (next (.setContrast 128) running).result = some (.outOfRange .contrast 128) ∧ sent (.setContrast 128) running = [] :=
  ⟨rfl, rfl, rfl, rfl⟩

/-- E12, E13: `setBias(3)` under vertical addressing, and `setBias(8)`. -/
theorem test_set_bias :
    sent (.setBias 3) { running with fs := ⟨false, true, false⟩ } = [.cmd 0x23#8, .cmd 0x13#8, .cmd 0x22#8] ∧
    (next (.setBias 8) running).result = some (.outOfRange .bias 8) := ⟨rfl, rfl⟩

/-- E14, E16: `setTemperatureCoefficient(0)` in power-down, and 4. -/
theorem test_set_temperature_coefficient :
    sent (.setTemperatureCoefficient 0) { running with fs := ⟨true, false, false⟩ } =
      [.cmd 0x25#8, .cmd 0x04#8, .cmd 0x24#8] ∧
    (next (.setTemperatureCoefficient 4) running).result = some (.outOfRange .temperatureCoefficient 4) := ⟨rfl, rfl⟩

/-- E19, E24: `setCursor(20, 3)` and `setCursor(212, 8)`. -/
theorem test_set_cursor :
    sent (.setCursor 20 3) running = [.cmd 0x94#8, .cmd 0x43#8] ∧
    sent (.setCursor 212 8) running = [.cmd 0xD4#8, .cmd 0x48#8] := ⟨rfl, rfl⟩

/-- E26: `setPower(false)` keeps the addressing mode. -/
theorem test_set_power :
    sent (.setPower false) { running with fs := ⟨false, true, false⟩ } = [.cmd 0x26#8] ∧
    (next (.setPower false) running).fs = ⟨true, false, false⟩ := ⟨rfl, rfl⟩

/-- E29, E30, E31. -/
theorem test_display_operations :
    sent (.setInverted true) running = [.cmd 0x0D#8] ∧ sent (.setInverted false) running = [.cmd 0x0C#8] ∧
    sent (.setBlanked true) running = [.cmd 0x08#8] ∧ sent (.setBlanked false) running = [.cmd 0x0C#8] ∧
    sent (.setTestPattern true) running = [.cmd 0x09#8] ∧ sent (.setTestPattern false) running = [.cmd 0x0C#8] :=
  ⟨rfl, rfl, rfl, rfl, rfl, rfl⟩

/-- E33: a raw function-set byte bypasses the mirror. -/
theorem test_raw_command :
    sent (.rawCommand 0x21#8) running = [.cmd 0x21#8] ∧ (next (.rawCommand 0x21#8) running).fs = ⟨false, false, false⟩ ∧
    (next (.rawCommand 0x21#8) running).rx = misled.rx := ⟨rfl, rfl, rfl⟩

/-- E35, E36: a raw buffer, and an empty one. -/
theorem test_raw_data :
    sent (.rawData [0x1F#8, 0x05#8, 0x07#8]) running = [.data [0x1F#8, 0x05#8, 0x07#8]] ∧
    (next (.rawData []) running).events = [] := ⟨rfl, rfl⟩

/-- S1, third row. -/
theorem test_initialise :
    sent (.initialise .horizontal (some 63) (some 4) (some 2)) State.reset =
      [.resetPulse, .cmd 0x25#8, .cmd 0x06#8, .cmd 0x14#8, .cmd 0xBF#8, .cmd 0x24#8, .cmd 0x20#8, .cmd 0x0C#8] ∧
    (next (.initialise .horizontal (some 63) (some 4) (some 2)) State.reset).fs = ⟨false, false, false⟩ := ⟨rfl, rfl⟩

/-- I10: the first operand out of range is named, and nothing is stored. -/
theorem test_initialise_out_of_range :
    (next (.initialise .vertical (some 1) (some 8) (some 9)) State.reset).result = some (.outOfRange .bias 8) ∧
    (next (.initialise .vertical (some 1) (some 8) (some 9)) State.reset).fs = ⟨true, false, false⟩ ∧
    (next (.initialise .vertical (some 1) (some 8) (some 9)) State.reset).dcfg.vop = 0x3F#7 := ⟨rfl, rfl, rfl⟩

/-- S10, I12, I13: the six events of the pulse; none without a reset line. -/
theorem test_reset :
    (next .reset running).events = [.pin .rst true, .wait Config.tSetup, .pin .rst false, .wait 500000, .pin .rst true,
      .wait 100000] ∧
    (next .reset bare).events = [] := ⟨rfl, rfl⟩

/-- W5: with a chunk of 100 five frames of 100 and one of 4. -/
theorem test_fill_chunks : chunkSizes 100 504 504 = [100, 100, 100, 100, 100, 4] := by decide

/-- S4 with one chunk of 504 bytes: one data frame, then `C:80 C:40`. -/
theorem test_fill :
    (sent (.fill true) { running with cfg := ⟨true, true, { Params.reference with fillChunk := 504 }⟩ }).length = 3 ∧
    (sent (.fill true) { running with cfg := ⟨true, true, { Params.reference with fillChunk := 504 }⟩ }).drop 1 =
      [.cmd 0x80#8, .cmd 0x40#8] := ⟨rfl, rfl⟩

/-- A font all of whose glyphs are eight bytes 0x5A. -/
def plain : FontTable := Vector.replicate 96 (Vector.replicate 8 0x5A#8)

/-- W9, W13, W14: the glyphs of `H`, `i`, of 10 and of 200, and one frame of eight bytes for each character. -/
theorem test_draw_text :
    [72, 105, 10, 200].map glyphIndex = [40, 73, 95, 95] ∧
    sent (.drawText [72, 200]) { running with cfg := ⟨true, true, { Params.reference with font := plain }⟩ } =
      [.data (List.replicate 8 0x5A#8), .data (List.replicate 8 0x5A#8)] := ⟨by decide, rfl⟩

/-- 2.2, `D:[7E 11]` with and without a chip-select line. -/
theorem test_write_data :
    (next (.writeData [0x7E#8, 0x11#8]) running).events =
      [.pin .dc true, .pin .cs false, .xfer [0x7E#8, 0x11#8] true, .pin .cs true] ∧
    (next (.writeData [0x7E#8, 0x11#8]) bare).events = [.pin .dc true, .xfer [0x7E#8, 0x11#8] true] := ⟨rfl, rfl⟩

/-- F3: the second transfer of `setContrast(0x45)` fails. -/
theorem test_transport_error :
    (next (.setContrast 0x45) (fallible [true, false])).events =
      [.pin .dc false, .pin .cs false, .xfer [0x21#8] true, .pin .cs true,
       .pin .dc false, .pin .cs false, .xfer [0xC5#8] false, .pin .cs true] ∧
    (next (.setContrast 0x45) (fallible [true, false])).fs = ⟨false, false, false⟩ ∧
    (next (.setContrast 0x45) (fallible [true, false])).dcfg.vop = 0x45#7 ∧
    (next (.setContrast 0x45) (fallible [true, false])).rx = .unpredictable 1 := ⟨rfl, rfl, rfl, rfl⟩

/-- R230: the result codes. -/
theorem test_result_codes :
    [OpResult.ok, .configurationError, .outOfRange .contrast 128, .transportError].map OpResult.code = [0, 1, 2, 3] := by
  decide

/-- A table word placed by `withFetchWord` is what the next step runs. -/
theorem test_step_runs_fetch_word :
    step (State.reset.withFetchWord 8 0x0D) = exec .reset State.reset := rfl

/-! ## States that meet the hypotheses of the obligations -/

theorem ready_running : Ready running := ⟨rfl, rfl⟩
theorem ready_misled : Ready misled := ⟨rfl, rfl⟩
theorem ready_bare : Ready bare := ⟨rfl, rfl⟩
theorem ready_reset : Ready State.reset := ⟨rfl, rfl⟩
theorem sync_running : Sync running (receiver false false 5 1) := ⟨⟨rfl, rfl, rfl, rfl, rfl⟩, rfl⟩

theorem witness_EncodedInstructionDecodesBack : (Instr.drawText [0, 0x10FFFF]).wf = true := by decide

theorem witness_FunctionSetByteCarriesAllThreeFlags : Codes.reference.wf = true ∧
    fsbyte Codes.reference true false true = fsbyte Codes.reference true false true := ⟨by decide, rfl⟩

theorem witness_StepRunsTheDecodedRequest :
    (∃ s r rs, s.requests = r :: rs ∧ fetch s r = .ok (.setPower true)) ∧ running.requests = [] :=
  ⟨⟨{ running with requests := [.operation [0x06#8, 1#8]] }, _, _, rfl, rfl⟩, rfl⟩

theorem witness_UnnamedSelectCodeIsNotAccepted :
    (0x10 < (0x11#8).toNat ∧ ({ running with requests := [.operation [0x11#8]] } : State).requests =
      .operation (0x11#8 :: []) :: []) ∧
    (0x10 < (0xFF#8).toNat ∧ ({ running with requests := [.operation [0xFF#8, 1#8]] } : State).requests =
      .operation (0xFF#8 :: [1#8]) :: []) := ⟨⟨by decide, rfl⟩, by decide, rfl⟩

theorem witness_UndefinedCommandByteIsSent :
    Ready { running with requests := [.command 0x01#8] } ∧ running.rx = .defined (receiver false false 5 1) ∧
    decodeCommand running.cfg.par.codes false 0x01#8 = .error (.undefinedCommand 0x01#8) ∧
    running.cfg.par.codes = Codes.reference := ⟨⟨rfl, rfl⟩, rfl, rfl, rfl⟩

theorem witness_CommandFrameEvents : Ready running ∧ running.cfg.hasCs = true ∧ Ready bare ∧ bare.cfg.hasCs = false :=
  ⟨ready_running, rfl, ready_bare, rfl⟩

theorem witness_DataFrameEvents : Ready running ∧ Ready bare ∧ Params.reference.wf = true :=
  ⟨ready_running, ready_bare, by decide⟩

theorem witness_ResetPulseEvents : running.created = true ∧ running.cfg.hasRst = true ∧ bare.created = true ∧
    bare.cfg.hasRst = false ∧ Params.reference.wf = true := ⟨rfl, rfl, rfl, rfl, by decide⟩

theorem witness_CreateConstructsTheBlock :
    absent.offered.wf = true ∧ absent.created = false ∧
    ({ absent with offered := { Params.reference with fillChunk := 0 } } : State).offered.wf = false ∧
    ({ absent with offered := { Params.reference with fillChunk := 505 } } : State).offered.wf = false ∧
    Instr.reset.isCreate = false := ⟨by decide, rfl, by decide, by decide, rfl⟩

theorem witness_CreateLeavesTheNewBlockOrNone : (false = false ∨ true = false) ∧ (true = false ∨ false = false) := by decide

theorem witness_AddressingModeIsStoredNotSent : running.created = true := rfl

theorem witness_SetContrastBracketsTheOperatingVoltage : Ready running ∧ 127 ≤ 127 ∧ running.created = true ∧ 128 ≤ 128 :=
  ⟨ready_running, by decide, rfl, by decide⟩

theorem witness_SetBiasBracketsTheBias : Ready running ∧ 7 ≤ 7 ∧ running.created = true ∧ 8 ≤ 8 :=
  ⟨ready_running, by decide, rfl, by decide⟩

theorem witness_SetTemperatureCoefficientBracketsTheCoefficient :
    Ready running ∧ 3 ≤ 3 ∧ running.created = true ∧ 4 ≤ 4 := ⟨ready_running, by decide, rfl, by decide⟩

theorem witness_SetCursorWrapsNeverRejects : Ready running ∧ running.cfg.par.codes = Codes.reference := ⟨ready_running, rfl⟩

theorem witness_SetPowerResendsTheFunctionByte : Ready running ∧ running.fs.h = false := ⟨ready_running, rfl⟩

theorem witness_DisplayModeOperationsSendOneCommand : Ready running := ready_running

theorem witness_RawCommandBypassesTheMirror : Ready misled := ready_misled

theorem witness_BuffersAreSentWhole : Ready running := ready_running

theorem witness_InitialiseRunsTheFixedSequence : Ready State.reset ∧ Ready bare ∧
    (∀ n ∈ some 127, n ≤ 127) ∧ (∀ n ∈ some 7, n ≤ 7) ∧ (∀ n ∈ some 3, n ≤ 3) :=
  ⟨ready_reset, ready_bare, by decide, by decide, by decide⟩

theorem witness_InitialiseChecksBeforeItStores : running.created = true ∧ 127 < 128 ∧ 7 < 8 ∧ 3 < 4 ∧
    (∀ m ∈ some 127, m ≤ 127) ∧ (∀ m ∈ some 7, m ≤ 7) := ⟨rfl, by decide, by decide, by decide, by decide, by decide⟩

theorem witness_ResetPulsesAndKeepsTheMirror : running.created = true ∧ bare.created = true := ⟨rfl, rfl⟩

theorem witness_FillStreamsTheWholeMemory :
    (Ready running ∧ running.cfg.par.wf = true) ∧
    ({ Params.reference with fillChunk := 1 } : Params).wf = true ∧
    ({ Params.reference with fillChunk := 504 } : Params).wf = true := ⟨⟨ready_running, by decide⟩, by decide, by decide⟩

theorem witness_DrawTextSendsOneGlyphPerCharacter : Ready running := ready_running

theorem witness_WireCommandsSendOneFrame : Ready running := ready_running

theorem witness_WireDataByteSendsOneFrame : Ready misled := ready_misled

theorem witness_ResetPulseResetsTheReceiver : lost.created = true ∧ lost.cfg.hasRst = true ∧ 100 < lost.cfg.par.tPulse ∧
    lost.cfg.par.tPulse < 100000000 ∧
    100 < ({ Params.reference with tPulse := 101 } : Params).tPulse ∧
    ({ Params.reference with tPulse := 99999999 } : Params).tPulse < 100000000 :=
  ⟨rfl, rfl, by decide, by decide, by decide, by decide⟩

theorem witness_FunctionSetAndNopWorkInBothSets :
    (Ready running ∧ running.cfg.par.codes = Codes.reference ∧ running.rx = .defined (receiver false false 5 1)) ∧
    (Ready misled ∧ misled.cfg.par.codes = Codes.reference ∧ misled.rx = .defined (receiver false true 5 1)) :=
  ⟨⟨ready_running, rfl, rfl⟩, ready_misled, rfl, rfl⟩

theorem witness_DisplayCommandsSelectTheMode : Ready running ∧ running.cfg.par.codes = Codes.reference ∧
    running.rx = .defined (receiver false false 5 1) ∧ (receiver false false 5 1).h = false := ⟨ready_running, rfl, rfl, rfl⟩

theorem witness_AddressCommandsMoveTheCursor : Ready running ∧ running.cfg.par.codes = Codes.reference ∧
    running.rx = .defined (receiver false false 5 1) ∧ (receiver false false 5 1).h = false ∧
    (83#7).toNat < 84 ∧ ¬ (84#7).toNat < 84 ∧ (5#6).toNat < 6 ∧ ¬ (6#6).toNat < 6 :=
  ⟨ready_running, rfl, rfl, rfl, by decide, by decide, by decide, by decide⟩

theorem witness_ConfigurationCommandsOverwriteOneRegister : Ready misled ∧ misled.cfg.par.codes = Codes.reference ∧
    misled.rx = .defined (receiver false true 5 1) ∧ (receiver false true 5 1).h = true := ⟨ready_misled, rfl, rfl, rfl⟩

theorem witness_UnpredictableUntilAResetPulse :
    (Ready running ∧ running.rx = .defined (receiver false false 5 1) ∧
      classify running.cfg.par.codes false 0x01#8 = .undefined) ∧
    (lost.rx = .unpredictable 1 ∧ (∃ t, exec (.setPower true) lost = .next t) ∧ (Instr.setPower true).pulses = false) ∧
    (lost.created = true ∧ lost.cfg.hasRst = true ∧ lost.cfg.par.wf = true) :=
  ⟨⟨ready_running, rfl, rfl⟩, ⟨rfl, ⟨_, rfl⟩, rfl⟩, rfl, rfl, by decide⟩

theorem witness_BytesOfTheOtherSetAreMisread :
    (Ready misled ∧ misled.cfg.par.codes = Codes.reference ∧ misled.rx = .defined (receiver false true 5 1) ∧
      (receiver false true 5 1).h = true) ∧
    (Ready running ∧ running.cfg.par.codes = Codes.reference ∧ running.rx = .defined (receiver false false 5 1) ∧
      (receiver false false 5 1).h = false) := ⟨⟨ready_misled, rfl, rfl, rfl⟩, ready_running, rfl, rfl, rfl⟩

/-- Each clause at its edge: within a row, at its end, within a column, at its end. -/
theorem witness_DataByteIsStoredAtTheCursor :
    (Ready running ∧ running.rx = .defined (receiver false false 5 1)) ∧
    ((receiver false false 82 5).v = false ∧ (receiver false false 82 5).x.val < 83) ∧
    ((receiver false false 83 5).v = false ∧ (receiver false false 83 5).x.val = 83) ∧
    ((receiver true false 83 4).v = true ∧ (receiver true false 83 4).y.val < 5) ∧
    ((receiver true false 83 5).v = true ∧ (receiver true false 83 5).y.val = 5) :=
  ⟨⟨ready_running, rfl⟩, by decide, by decide, by decide, by decide⟩

/-- The longest buffer whose bytes all stay (504), its last byte (503), a longer one, and a text. -/
theorem witness_BuffersLandAlongTheScan : Ready running ∧ running.rx = .defined (receiver false false 5 1) ∧
    (∀ n : Nat, Instr.writeData (.replicate n 0xAA#8) = .rawData (.replicate n 0xAA#8) ∨
      Instr.writeData (.replicate n 0xAA#8) = .writeData (.replicate n 0xAA#8) ∨
      ∃ text, Instr.writeData (.replicate n 0xAA#8) = .drawText text ∧
        .replicate n 0xAA#8 = text.flatMap fun k => (running.cfg.par.font.get (glyphIndex k)).toList) ∧
    ((List.replicate 504 0xAA#8).length ≤ 504 ∧ 503 < (List.replicate 504 0xAA#8).length) ∧
    ¬ (List.replicate 505 0xAA#8).length ≤ 504 ∧
    (∃ text, Instr.drawText [65] = .drawText text ∧
      (running.cfg.par.font.get (glyphIndex 65)).toList =
        text.flatMap fun k => (running.cfg.par.font.get (glyphIndex k)).toList) :=
  ⟨ready_running, rfl, fun _ => .inr (.inl rfl), by simp only [List.length_replicate]; omega,
    by simp only [List.length_replicate]; omega, [65], rfl, (List.append_nil _).symm⟩

theorem witness_OnlyDataBytesStore : (Instr.setCursor 20 3).storesData = false ∧ (Instr.setCursor 20 3).pulses = false ∧
    (∃ t, exec (.setCursor 20 3) running = .next t ∧ t.rx = .defined (receiver false false 20 3)) ∧
    running.rx = .defined (receiver false false 5 1) := ⟨rfl, rfl, ⟨_, rfl, rfl⟩, rfl⟩

theorem witness_ChunkingDoesNotMatter : [[1#8, 2#8], [3#8]].flatten = [[1#8], [2#8, 3#8]].flatten := rfl

theorem witness_InitialiseConfiguresTheReceiver :
    (Ready misled ∧ misled.cfg.par.codes = Codes.reference ∧ misled.cfg.par.wf = true ∧
      misled.rx = .defined (receiver false true 5 1) ∧ misled.cfg.hasRst = true) ∧
    (Ready bare ∧ bare.cfg.par.codes = Codes.reference ∧ bare.cfg.par.wf = true ∧
      bare.rx = .defined (receiver false false 5 1) ∧ bare.cfg.hasRst = false) ∧
    (∀ n ∈ some 127, n ≤ 127) ∧ (∀ n ∈ some 7, n ≤ 7) ∧ (∀ n ∈ (none : Option Nat), n ≤ 3) :=
  ⟨⟨ready_misled, rfl, by decide, rfl, rfl⟩, ⟨ready_bare, rfl, by decide, rfl, rfl⟩, by decide, by decide, by decide⟩

/-- The mirror ahead of the receiver in V alone (R265), and one instruction of each kind. -/
theorem witness_FunctionByteRestoresSync :
    Ready { running with fs := ⟨false, true, false⟩ } ∧ running.cfg.par.codes = Codes.reference ∧
    running.rx = .defined (receiver false false 5 1) ∧
    SyncModV { running with fs := ⟨false, true, false⟩ } (receiver false false 5 1) ∧
    (∃ on, Instr.setPower false = .setPower on) ∧ (∃ n ≤ 127, Instr.setContrast 127 = .setContrast n) ∧
    (∃ n ≤ 7, Instr.setBias 7 = .setBias n) ∧
    (∃ n ≤ 3, Instr.setTemperatureCoefficient 3 = .setTemperatureCoefficient n) :=
  ⟨⟨rfl, rfl⟩, rfl, rfl, ⟨rfl, rfl, rfl, rfl, rfl⟩, ⟨_, rfl⟩, ⟨_, by decide, rfl⟩, ⟨_, by decide, rfl⟩, ⟨_, by decide, rfl⟩⟩

theorem witness_SyncIsPreserved : Ready running ∧ running.cfg.par.codes = Codes.reference ∧
    running.rx = .defined (receiver false false 5 1) ∧ running.fs.h = false ∧ Sync running (receiver false false 5 1) ∧
    (∃ column bank, column % 128 ≤ 83 ∧ bank % 64 ≤ 5 ∧ Instr.setCursor 83 5 = .setCursor column bank) :=
  ⟨ready_running, rfl, rfl, rfl, sync_running, 83, 5, by decide, by decide, rfl⟩

theorem witness_SyncIsLost : Ready running ∧ running.cfg.par.codes = Codes.reference ∧
    running.rx = .defined (receiver false false 5 1) ∧ running.fs.h = false ∧ running.cfg.hasRst = true ∧
    running.cfg.par.wf = true ∧ running.fs.pd = false ∧ (receiver false false 5 1).h = false ∧
    (83 < 84 % 128 ∨ 5 < 0 % 64) ∧ (83 < 0 % 128 ∨ 5 < 6 % 64) :=
  ⟨ready_running, rfl, rfl, rfl, rfl, by decide, rfl, rfl, by decide, by decide⟩

theorem witness_SemanticOperationsReturnToTheBasicSet : (Instr.setContrast 127).semantic = true ∧
    running.cfg.par.codes = Codes.reference ∧ running.cfg.par.transportFallible = false ∧ running.fs.h = false ∧
    running.rx = .defined (receiver false false 5 1) ∧
    ∃ t, exec (.setContrast 127) running = .next t ∧ t.rx = .defined { receiver false false 5 1 with vop := 127#7 } ∧
      t.frames = running.frames ++ ([⟨.cmd 0x21#8, true⟩] ++ ⟨.cmd 0xFF#8, true⟩ :: [⟨.cmd 0x20#8, true⟩]) ∧
      [Sent.mk (.cmd 0x21#8) true].foldl (Receiver.take running.cfg.par) running.rx =
        .defined (receiver false true 5 1) :=
  ⟨rfl, rfl, rfl, rfl, rfl, _, rfl, rfl, rfl, rfl⟩

theorem witness_FillPaintsEveryLocation : Ready running ∧ running.cfg.par.codes = Codes.reference ∧
    running.cfg.par.wf = true ∧ running.rx = .defined (receiver false false 5 1) ∧ (receiver false false 5 1).h = false :=
  ⟨ready_running, rfl, by decide, rfl, rfl⟩

theorem witness_EveryOperationCompletes : (Instr.fill true).isCreate = false ∧ running.created = true ∧
    (fallible []).created = true ∧ running.cfg.par.transportFallible = false := ⟨rfl, rfl, rfl, rfl⟩

/-- A state with levels on the lines and a byte in the memory. -/
def used : State :=
  { running with
    lines := ⟨some true, some true, some true⟩
    rx := .defined { receiver false false 0 3 with ddram := Memory.write (Memory.fresh 0) 251 0xAA#8 } }

/-- The boundary invariant holds in it. -/
theorem atRest_used : AtRest used := by
  refine ⟨rfl, by decide, .inr ⟨rfl, rfl⟩, .inr ⟨rfl, rfl⟩, fun c h => ?_⟩
  cases h
  exact Memory.wf_write (Memory.wf_fresh 0) (by decide) _

theorem witness_StepKeepsTheBoundaryInvariant : ∃ s t, AtRest s ∧ step s = .next t ∧ t ≠ s :=
  ⟨{ running with requests := [.operation [0x0D#8]] }, _,
    ⟨rfl, by decide, .inl rfl, .inl rfl, fun c h => by cases h; exact Memory.wf_fresh 0⟩, rfl, fun h => by
      have := congrArg (fun s : State => s.requests.length) h
      exact absurd this (by decide)⟩

/-- The canonical form of the memory at reset. -/
theorem reset_memory_wf : ∀ c, State.reset.rx = .defined c → Memory.wf c.ddram := by
  intro c h
  cases h
  exact Memory.wf_fresh 0

theorem witness_OnlyTheNamedOperationsWriteTheMirror :
    (∃ t, exec (.setPower false) running = .next t ∧ t.fs.pd ≠ running.fs.pd) ∧ (Instr.setPower false).isCreate = false ∧
    (∃ t, exec (.setAddressingMode true) running = .next t ∧ t.fs.v ≠ running.fs.v) ∧
    (∃ t, exec (.setContrast 0) running = .next t ∧ t.dcfg.vop ≠ running.dcfg.vop) ∧
    (∃ t, exec (.setBias 0) running = .next t ∧ t.dcfg.bias ≠ running.dcfg.bias) ∧
    (∃ t, exec (.setTemperatureCoefficient 0) running = .next t ∧ t.dcfg.tc ≠ running.dcfg.tc) ∧
    (∃ t, exec .reset running = .next t ∧ t.lines.rst ≠ running.lines.rst) :=
  ⟨⟨_, rfl, by decide⟩, rfl, ⟨_, rfl, by decide⟩, ⟨_, rfl, by decide⟩, ⟨_, rfl, by decide⟩, ⟨_, rfl, by decide⟩,
    ⟨_, rfl, by decide⟩⟩

theorem witness_LastFunctionByteIsTheMirrors : ∃ t, exec (.setContrast 0x45) running = .next t ∧
    (Instr.setContrast 0x45).semantic = true ∧ (∀ v, Instr.setContrast 0x45 ≠ .setAddressingMode v) ∧
    running.cfg.par.codes = Codes.reference ∧ running.fs.h = false ∧ t.result = some .ok ∧
    ((t.frames.drop running.frames.length).filterMap (Sent.functionSetByte running.cfg.par.codes)).getLast? = some 0x20#8 :=
  ⟨next (.setContrast 0x45) running, rfl, rfl, fun _ h => Instr.noConfusion h, rfl, rfl, rfl, rfl⟩

theorem witness_OutOfRangeHasNoEffect :
    ∃ t, exec (.setBias 8) running = .next t ∧ t.result = some (.outOfRange .bias 8) := ⟨_, rfl, rfl⟩

/-- F3 again: the transfer that fails is the second of three. -/
theorem witness_TransportErrorLeavesTheIntendedMirror : (fallible [true, false]).fs.h = false ∧
    ∃ t, exec (.setContrast 0x45) (fallible [true, false]) = .next t ∧ t.result = some .transportError ∧
      t.frames = (fallible [true, false]).frames ++ [⟨.cmd 0x21#8, true⟩, ⟨.cmd 0xC5#8, false⟩] :=
  ⟨rfl, _, rfl, rfl, rfl⟩

/-- F3 again, the answers used up by the second transfer; and a run in which every transfer succeeds. -/
theorem witness_TransfersTakeTheAnswersInOrder :
    (fallible [true, false]).cfg.par.transportFallible = true ∧ (Instr.setContrast 0x45).isCreate = false ∧
    (∃ t, exec (.setContrast 0x45) (fallible [true, false]) = .next t ∧
      t.frames = (fallible [true, false]).frames ++ ([⟨.cmd 0x21#8, true⟩] ++ ⟨.cmd 0xC5#8, false⟩ :: [])) ∧
    (∃ t, exec (.setPower true) (fallible [true]) = .next t ∧
      t.frames = (fallible [true]).frames ++ [⟨.cmd 0x20#8, true⟩] ∧ ∀ g ∈ [Sent.mk (.cmd 0x20#8) true], g.delivered = true) :=
  ⟨rfl, rfl, ⟨_, rfl, rfl⟩, _, rfl, rfl, by decide⟩

theorem witness_ReceiverFoldsOverTheTrace :
    ∃ t, step { running with requests := [.operation [0x06#8, 1#8]] } = .next t ∧ t.frames ≠ [] :=
  ⟨_, rfl, fun h => by cases h⟩

theorem witness_ChipSelectBracketsOneTransfer :
    (∃ t, step { running with requests := [.operation [0x06#8, 1#8]] } = .next t) ∧ running.cfg.hasCs = true ∧
    (∃ t, step { bare with requests := [.operation [0x06#8, 1#8]] } = .next t) ∧ bare.cfg.hasCs = false :=
  ⟨⟨_, rfl⟩, rfl, ⟨_, rfl⟩, rfl⟩

theorem witness_AbsentChipSelectRemovesOnlyItsEvents : (Instr.setPower true).isCreate = false ∧
    running.cfg.hasCs = true ∧ ∃ t, exec (.setPower true) running = .next t := ⟨rfl, rfl, _, rfl⟩

theorem witness_BlockIgnoresTheReceiver : ∃ t, exec (.setPower true) misled = .next t := ⟨_, rfl⟩

theorem witness_WireInstructionIsItsRawByte :
    encode running.cfg.par.codes (.wireSetColumn 20#7) = .command 0x94#8 ∧
    encode running.cfg.par.codes (.wireDataByte 0x94#8) = .data 0x94#8 := ⟨rfl, rfl⟩

end Sys2Proof.Tests
end

/-! ## The step (R12, R62): one equation per case of the queue and of the decoder -/

namespace Sys2Proof.Machine

section StepEquations

variable {s : State} {r : Request} {rs : List Request}

/-- An empty queue: the machine waits (log entry 9). -/
theorem step_of_no_requests (h : s.requests = []) : step s = .next s := by
  simp only [step, h, idle]

/-- The oldest request spells `i`: it is taken off and `i` runs to its end. -/
theorem step_of_fetch_ok {i : Instr} (h : s.requests = r :: rs) (hf : fetch s r = .ok i) :
    step s = exec i (s.withRequests rs) := by
  simp only [step, h, hf]

/-- The oldest request spells no instruction: it is taken off, and R80 and R81 say what becomes of it. -/
theorem step_of_fetch_error {e : DecodeError} (h : s.requests = r :: rs) (hf : fetch s r = .error e) :
    step s = unaccepted e (s.withRequests rs) := by
  simp only [step, h, hf]

end StepEquations

/-- Settles O5: each clause is the step's equation for that case. -/
theorem stepRunsTheDecodedRequest : Obligations.StepRunsTheDecodedRequest :=
  ⟨fun _ _ _ _ hr hf => step_of_fetch_ok hr hf, fun _ hr => step_of_no_requests hr⟩

end Sys2Proof.Machine

/-! ## The boundary state (R22 to R28, R34, R103, R105): the frames an instruction sends, what they leave on the lines
and in the display memory, and what an instruction writes of the mirror -/

namespace Sys2Proof.Machine

section Boundary

variable {i : Instr} {s t : State} {p : Plan}

/-! ### Frames and lines -/

/-- Every frame an instruction sends is one of its plan. -/
theorem exec_emits_plan (hi : i.isCreate = false) (h : exec i s = .next t) :
    ∃ gs, Emits s t gs ∧ ∀ g ∈ gs, ∃ p, plan i s = .ok p ∧ ∃ a ∈ p.acts, a.2 = g.frame := by
  have planned : ∀ {as : List Act}, ∀ g ∈ delivered (as.map Prod.snd), ∃ a ∈ as, a.2 = g.frame := by
    intro as g hg
    obtain ⟨f, hf, rfl⟩ := List.mem_map.1 hg
    exact List.mem_map.1 hf
  obtain ⟨-, ⟨w, n, -, rfl⟩ | ⟨p, hp, he, -⟩ | ⟨p, before, a, after, hp, hs, he, -⟩⟩ := exec_cases hi h
  · exact ⟨[], Emits.right s.fs s.dcfg s.answers _ (Emits.refl s), by simp⟩
  · exact ⟨_, he, fun g hg => ⟨p, hp, planned g hg⟩⟩
  · refine ⟨_, he, fun g hg => ⟨p, hp, ?_⟩⟩
    rw [hs]
    rcases List.mem_append.1 hg with hg | hg
    · obtain ⟨b, hb, hbg⟩ := planned g hg
      exact ⟨b, List.mem_append_left _ hb, hbg⟩
    · obtain rfl := List.mem_singleton.1 hg
      exact ⟨a, by simp, rfl⟩

/-- R103: a transfer leaves chip-select deasserted, where there is one; a pulse does not touch it. -/
theorem Sent.events_drive_cs (cfg : Cfg) (f : Sent) (l : Lines) :
    ((f.events cfg).foldl Lines.drive l).cs =
      if f.frame.isTransfer && cfg.hasCs then some (!cfg.par.lvlCsAssert) else l.cs := by
  obtain ⟨f, d⟩ := f
  cases f <;> cases h : cfg.hasCs <;>
    simp [Sent.events, transferEvents, pulseEvents, csPin, h, Lines.drive, Frame.isTransfer]

/-- R105: a pulse leaves the reset line high; a transfer does not touch it. -/
theorem Sent.events_drive_rst (cfg : Cfg) (f : Sent) (l : Lines) :
    ((f.events cfg).foldl Lines.drive l).rst = if f.frame.isTransfer then l.rst else some true := by
  obtain ⟨f, d⟩ := f
  cases f <;> cases h : cfg.hasCs <;>
    simp [Sent.events, transferEvents, pulseEvents, csPin, h, Lines.drive, Frame.isTransfer]

/-- Any number of frames leave chip-select as it was, or deasserted. -/
theorem Emits.cs {gs : List Sent} (h : Emits s t gs) :
    t.lines.cs = s.lines.cs ∨ (s.cfg.hasCs = true ∧ t.lines.cs = some (!s.cfg.par.lvlCsAssert)) := by
  have key : ∀ (gs : List Sent) (l : Lines), ((gs.flatMap (Sent.events s.cfg)).foldl Lines.drive l).cs = l.cs ∨
      (s.cfg.hasCs = true ∧
        ((gs.flatMap (Sent.events s.cfg)).foldl Lines.drive l).cs = some (!s.cfg.par.lvlCsAssert)) := by
    intro gs
    induction gs with
    | nil => exact fun l => .inl rfl
    | cons g gs ih =>
      intro l
      rw [List.flatMap_cons, List.foldl_append]
      refine (ih _).elim (fun h => ?_) .inr
      rw [h, Sent.events_drive_cs]
      cases g.frame.isTransfer <;> cases s.cfg.hasCs <;> simp
  rw [h.lines]
  exact key gs s.lines

/-- Any number of frames leave the reset line as it was, or high after a pulse. -/
theorem Emits.rst {gs : List Sent} (h : Emits s t gs) :
    t.lines.rst = s.lines.rst ∨ ((∃ g ∈ gs, g.frame = .resetPulse) ∧ t.lines.rst = some true) := by
  have key : ∀ (gs : List Sent) (l : Lines), ((gs.flatMap (Sent.events s.cfg)).foldl Lines.drive l).rst = l.rst ∨
      ((∃ g ∈ gs, g.frame = .resetPulse) ∧
        ((gs.flatMap (Sent.events s.cfg)).foldl Lines.drive l).rst = some true) := by
    intro gs
    induction gs with
    | nil => exact fun l => .inl rfl
    | cons g gs ih =>
      intro l
      rw [List.flatMap_cons, List.foldl_append]
      rcases ih ((g.events s.cfg).foldl Lines.drive l) with h | ⟨⟨g', hg', hp⟩, h⟩
      · rw [h, Sent.events_drive_rst]
        cases hf : g.frame with
        | resetPulse => exact .inr ⟨⟨g, List.mem_cons_self, hf⟩, rfl⟩
        | cmd b => exact .inl rfl
        | data bs => exact .inl rfl
      · exact .inr ⟨⟨g', List.mem_cons_of_mem _ hg', hp⟩, h⟩
  rw [h.lines]
  exact key gs s.lines

/-- R27, R28: chip-select moves only where the block has it, and is then deasserted at the end. -/
theorem exec_cs (hi : i.isCreate = false) (h : exec i s = .next t) :
    t.lines.cs = s.lines.cs ∨ (s.cfg.hasCs = true ∧ t.lines.cs = some (!s.cfg.par.lvlCsAssert)) := by
  obtain ⟨gs, he, -⟩ := exec_emits_plan hi h
  exact he.cs

/-- R35: the reset line moves only in an instruction that pulses a line the block has, and is then high at the end. -/
theorem exec_rst (hi : i.isCreate = false) (h : exec i s = .next t) :
    t.lines.rst = s.lines.rst ∨ ((i.pulses = true ∧ s.cfg.hasRst = true) ∧ t.lines.rst = some true) := by
  obtain ⟨gs, he, hgs⟩ := exec_emits_plan hi h
  refine he.rst.imp id (And.imp ?_ id)
  rintro ⟨g, hg, hpulse⟩
  obtain ⟨p, hp, a, ha, hag⟩ := hgs g hg
  exact plan_pulse hi hp ha (hag.trans hpulse)

/-! ### The display memory -/

/-- R51, R52: if the receiver is defined, its display memory is in the canonical form. -/
def Receiver.Canonical (rx : Receiver) : Prop := ∀ c, rx = .defined c → Memory.wf c.ddram

/-- Whatever the receiver takes, the canonical form survives: a pulse draws afresh, a command stores nothing, data bytes
go to the cursor, and a failed transfer leaves no memory to speak of. -/
theorem Receiver.Canonical.take {rx : Receiver} (h : rx.Canonical) (p : Params) (f : Sent) :
    (rx.take p f).Canonical := by
  intro c hc
  obtain ⟨f, d⟩ := f
  cases f with
  | resetPulse =>
    rw [Receiver.take_pulse, Receiver.pulsed] at hc
    split at hc <;> cases hc
    exact Memory.wf_fresh _
  | cmd b =>
    cases d with
    | false => rw [Receiver.take_failed p rx (by simp)] at hc; cases hc
    | true =>
      cases rx with
      | unpredictable n => cases hc
      | defined k => rw [Receiver.take_cmd] at hc; rw [Ctl.execute_ddram hc]; exact h k rfl
  | data bs =>
    cases d with
    | false => rw [Receiver.take_failed p rx (by simp)] at hc; cases hc
    | true =>
      cases rx with
      | unpredictable n => cases hc
      | defined k => rw [Receiver.take_data] at hc; cases hc; exact Ctl.wf_stores bs (h k rfl)

theorem Receiver.Canonical.takes {rx : Receiver} (h : rx.Canonical) (p : Params) (gs : List Sent) :
    (gs.foldl (Receiver.take p) rx).Canonical := by
  induction gs generalizing rx with
  | nil => exact h
  | cons g gs ih => exact ih (h.take p g)

/-! ### The mirror -/

/-- The values the function register has while a plan is carried out. -/
def Plan.flags (p : Plan) : List FunctionState := p.fs :: p.acts.map Prod.fst

theorem finalFlags_mem_flags (p : Plan) : finalFlags p.fs p.acts ∈ p.flags := by
  obtain ⟨fs, d, as, c⟩ := p
  induction as generalizing fs with
  | nil => exact List.mem_cons_self
  | cons a as ih => rw [finalFlags_cons]; exact List.mem_cons_of_mem _ (ih a.1)

/-- R24: flags `f` that instruction `i` may give the mirror on state `s`: another power-down bit only in `initialize` and
`setPower`, another addressing bit only in `initialize` and `setAddressingMode`. -/
structure WritesFlags (i : Instr) (s : State) (f : FunctionState) : Prop where
  pd : f.pd = s.fs.pd ∨ (∃ m c b tc, i = .initialise m c b tc) ∨ ∃ on, i = .setPower on
  v  : f.v = s.fs.v ∨ (∃ m c b tc, i = .initialise m c b tc) ∨ ∃ v, i = .setAddressingMode v

theorem plan_writesFlags (hi : i.isCreate = false) (h : plan i s = .ok p) {f : FunctionState} (hf : f ∈ p.flags) :
    WritesFlags i s f := by
  rcases plan_cases hi h with ⟨frames, rfl, -⟩ | ⟨v, rfl, rfl⟩ | ⟨on, rfl, rfl⟩ | ⟨d, b, rfl, -⟩ |
    ⟨m, c, b, tc, d, rfl, -, -⟩
  · simp only [Plan.flags, plainActs, List.map_map, List.mem_cons, List.mem_map, Function.comp_apply] at hf
    rcases hf with rfl | ⟨_, -, rfl⟩ <;> exact ⟨.inl rfl, .inl rfl⟩
  · obtain rfl := List.mem_singleton.1 hf
    exact ⟨.inl rfl, .inr (.inr ⟨v, rfl⟩)⟩
  · simp only [Plan.flags, List.map_cons, List.map_nil, List.mem_cons, List.not_mem_nil, or_false, or_self] at hf
    exact ⟨.inr (.inr ⟨on, rfl⟩), .inl (by rw [hf])⟩
  · simp only [Plan.flags, bracketActs, List.map_cons, List.map_nil, List.cons_append, List.nil_append, List.mem_cons,
      List.not_mem_nil, or_false] at hf
    rcases hf with rfl | rfl | rfl | rfl <;> exact ⟨.inl rfl, .inl rfl⟩
  · exact ⟨.inr (.inl ⟨m, c, b, tc, rfl⟩), .inr (.inl ⟨m, c, b, tc, rfl⟩)⟩

/-- R233: only `initialize` clears the power-down bit when a transfer fails. -/
theorem plan_clearsPd (hi : i.isCreate = false) (h : plan i s = .ok p) (hc : p.clearsPd = true) :
    ∃ m c b tc, i = .initialise m c b tc := by
  rcases plan_cases hi h with ⟨frames, rfl, -⟩ | ⟨v, -, rfl⟩ | ⟨on, -, rfl⟩ | ⟨d, b, rfl, -⟩ |
    ⟨m, c, b, tc, d, rfl, -, -⟩
  · cases hc
  · cases hc
  · cases hc
  · cases hc
  · exact ⟨m, c, b, tc, rfl⟩

theorem exec_writesFlags (hi : i.isCreate = false) (h : exec i s = .next t) : WritesFlags i s t.fs := by
  obtain ⟨-, ⟨w, n, -, rfl⟩ | ⟨p, hp, -, -, hf, -⟩ | ⟨p, before, a, after, hp, hs, -, -, hf, -⟩⟩ := exec_cases hi h
  · exact ⟨.inl rfl, .inl rfl⟩
  · rw [hf]
    exact plan_writesFlags hi hp (finalFlags_mem_flags p)
  · have ha : WritesFlags i s a.1 :=
      plan_writesFlags hi hp (List.mem_cons_of_mem _ (List.mem_map_of_mem (by simp [hs])))
    rw [hf]
    cases hc : p.clearsPd
    · exact ⟨ha.pd, ha.v⟩
    · exact ⟨.inr (.inl (plan_clearsPd hi hp hc)), ha.v⟩

/-- R23: an instruction leaves the instruction-set bit as it was, or clear. -/
theorem exec_h (hi : i.isCreate = false) (h : exec i s = .next t) : t.fs.h = s.fs.h ∨ t.fs.h = false := by
  obtain ⟨-, ⟨w, n, -, rfl⟩ | ⟨p, hp, -, -, hf, -⟩ | ⟨p, before, a, after, -, -, -, -, hf, -⟩⟩ := exec_cases hi h
  · exact .inl rfl
  · rw [hf]
    rcases plan_cases hi hp with ⟨frames, rfl, -⟩ | ⟨v, -, rfl⟩ | ⟨on, -, rfl⟩ | ⟨d, b, rfl, -⟩ |
      ⟨m, c, b, tc, d, -, -, rfl⟩
    · exact .inl (by rw [finalFlags_plain])
    · exact .inl rfl
    · exact .inl rfl
    · exact .inr rfl
    · exact .inr (by simp [Plan.initialisation, FunctionState.basic])
  · rw [hf]
    exact .inr rfl

/-- R162: a field whose override is absent stays. -/
theorem checkConfig_keeps {contrast bias tc : Option Nat} {old d : DisplayConfig}
    (h : checkConfig contrast bias tc old = .ok d) :
    (d.vop = old.vop ∨ ∃ n, contrast = some n) ∧ (d.bias = old.bias ∨ ∃ n, bias = some n) ∧
      (d.tc = old.tc ∨ ∃ n, tc = some n) := by
  have keeps : ∀ {w : Nat} {check : Nat → Except OpResult (BitVec w)} {o : Option Nat} {old v : BitVec w},
      checkOptional check o old = .ok v → v = old ∨ ∃ n, o = some n := by
    intro w check o old v hv
    cases o with
    | none => cases hv; exact .inl rfl
    | some n => exact .inr ⟨n, rfl⟩
  unfold checkConfig at h
  split at h
  · cases h
  · rename_i v hv
    split at h
    · cases h
    · rename_i b hb
      split at h
      · cases h
      · rename_i t ht
        cases h
        exact ⟨keeps hv, keeps hb, keeps ht⟩

/-- R24, R25: the configuration `d` that instruction `i` may leave on state `s`: another field only in that field's setter
and in `initialize` with its override given. -/
structure WritesConfig (i : Instr) (s : State) (d : DisplayConfig) : Prop where
  vop  : d.vop = s.dcfg.vop ∨ (∃ m n b tc, i = .initialise m (some n) b tc) ∨ ∃ n, i = .setContrast n
  bias : d.bias = s.dcfg.bias ∨ (∃ m c n tc, i = .initialise m c (some n) tc) ∨ ∃ n, i = .setBias n
  tc   : d.tc = s.dcfg.tc ∨ (∃ m c b n, i = .initialise m c b (some n)) ∨ ∃ n, i = .setTemperatureCoefficient n

theorem plan_writesConfig (hi : i.isCreate = false) (h : plan i s = .ok p) : WritesConfig i s p.dcfg := by
  rcases plan_cases hi h with ⟨frames, rfl, -⟩ | ⟨v, -, rfl⟩ | ⟨on, -, rfl⟩ |
    ⟨d, b, rfl, ⟨n, rfl, -, rfl, -⟩ | ⟨n, rfl, -, rfl, -⟩ | ⟨n, rfl, -, rfl, -⟩⟩ | ⟨m, c, b, tc, d, rfl, hc, rfl⟩
  · exact ⟨.inl rfl, .inl rfl, .inl rfl⟩
  · exact ⟨.inl rfl, .inl rfl, .inl rfl⟩
  · exact ⟨.inl rfl, .inl rfl, .inl rfl⟩
  · exact ⟨.inr (.inr ⟨n, rfl⟩), .inl rfl, .inl rfl⟩
  · exact ⟨.inl rfl, .inr (.inr ⟨n, rfl⟩), .inl rfl⟩
  · exact ⟨.inl rfl, .inl rfl, .inr (.inr ⟨n, rfl⟩)⟩
  · obtain ⟨hvop, hbias, htc⟩ := checkConfig_keeps hc
    refine ⟨hvop.imp id ?_, hbias.imp id ?_, htc.imp id ?_⟩
    · rintro ⟨n, rfl⟩; exact .inl ⟨m, n, b, tc, rfl⟩
    · rintro ⟨n, rfl⟩; exact .inl ⟨m, c, n, tc, rfl⟩
    · rintro ⟨n, rfl⟩; exact .inl ⟨m, c, b, n, rfl⟩

theorem exec_writesConfig (hi : i.isCreate = false) (h : exec i s = .next t) : WritesConfig i s t.dcfg := by
  obtain ⟨-, ⟨w, n, -, rfl⟩ | ⟨p, hp, -, -, -, hd, -⟩ | ⟨p, before, a, after, hp, -, -, -, -, hd, -⟩⟩ := exec_cases hi h
  · exact ⟨.inl rfl, .inl rfl, .inl rfl⟩
  · rw [hd]; exact plan_writesConfig hi hp
  · rw [hd]; exact plan_writesConfig hi hp

/-! ### The boundary invariant -/

/-- Every instruction on a block keeps the invariant. -/
theorem AtRest.of_exec (hs : AtRest s) (hi : i.isCreate = false) (h : exec i s = .next t) : AtRest t := by
  obtain ⟨gs, he, -⟩ := exec_emits_plan hi h
  refine ⟨?_, ?_, ?_, ?_, ?_⟩
  · exact (exec_h hi h).elim (·.trans hs.basicSet) id
  · rw [he.cfg]; exact hs.params
  · rw [he.cfg]
    exact (exec_cs hi h).elim (fun hcs => by rw [hcs]; exact hs.csIdle) .inr
  · rw [he.cfg]
    exact (exec_rst hi h).elim (fun hrst => by rw [hrst]; exact hs.rstIdle) fun ⟨⟨_, hr⟩, hrst⟩ => .inr ⟨hr, hrst⟩
  · have hc : t.rx.Canonical := by rw [he.rx]; exact Receiver.Canonical.takes hs.ddram _ gs
    exact hc

/-- `create` keeps it too: a failed one writes no part of it, a successful one installs a well-formed record, drives no
line and leaves the receiver. -/
theorem AtRest.of_create {hasBus hasDc hasCs hasRst : Bool} (hs : AtRest s)
    (h : exec (.create hasBus hasDc hasCs hasRst) s = .next t) : AtRest t := by
  rcases create_cases h with ⟨-, rfl⟩ | ⟨-, -, hw, rfl⟩
  · exact ⟨hs.basicSet, hs.params, hs.csIdle, hs.rstIdle, hs.ddram⟩
  · exact ⟨rfl, hw, .inl rfl, .inl rfl, hs.ddram⟩

/-- The invariant does not speak of the requests. -/
theorem AtRest.withRequests (hs : AtRest s) (rs : List Request) : AtRest (s.withRequests rs) :=
  ⟨hs.basicSet, hs.params, hs.csIdle, hs.rstIdle, hs.ddram⟩

end Boundary

/-- Settles O49: whatever the step runs, an instruction on the block or `create`, keeps the invariant. -/
theorem stepKeepsTheBoundaryInvariant : Obligations.StepKeepsTheBoundaryInvariant := by
  intro s t hs h
  rcases step_cases h with ⟨-, rfl⟩ | ⟨r, rs, -, ⟨i, hi⟩ | rfl⟩
  · exact hs
  · cases hc : i.isCreate
    · exact (hs.withRequests rs).of_exec hc hi
    · obtain ⟨_, _, _, _, rfl⟩ := Instr.eq_create hc
      exact (hs.withRequests rs).of_create hi
  · exact hs.withRequests rs

/-- Settles O50: no line is driven, and the display memory is a draw. -/
theorem resetIsAtRest : Obligations.ResetIsAtRest :=
  ⟨rfl, by decide, .inl rfl, .inl rfl, fun c h => by cases h; exact Memory.wf_fresh 0⟩

/-- R160: `create` with everything bound and a well-formed record constructs the block. -/
theorem exec_create_wf {s : State} (h : s.offered.wf = true) (hasCs hasRst : Bool) :
    exec (.create true true hasCs hasRst) s = .next ((s.construct hasCs hasRst).setResult .ok) := by
  simp [exec, execCreate, h]

/-- Settles O13: `create` on the reset state constructs from the offered reference record what is there already. -/
theorem resetStateHoldsTheReferenceValues : Obligations.ResetStateHoldsTheReferenceValues :=
  ⟨rfl, rfl, rfl, rfl, rfl, exec_create_wf (s := State.reset) (by decide) true true⟩

/-- Settles O51: what can be written is said by `exec_writesFlags`, `exec_h`, `exec_writesConfig`, `exec_rst`, `exec_cs`
and, for the rest of the block, by `Emits`. -/
theorem onlyTheNamedOperationsWriteTheMirror : Obligations.OnlyTheNamedOperationsWriteTheMirror := by
  intro i s t h hi
  obtain ⟨gs, he, -⟩ := exec_emits_plan hi h
  have hfs := exec_writesFlags hi h
  have hd := exec_writesConfig hi h
  exact ⟨he.cfg, he.created, he.offered, he.requests, hfs.pd.resolve_left, hfs.v.resolve_left, (exec_h hi h).resolve_left,
    hd.vop.resolve_left, hd.bias.resolve_left, hd.tc.resolve_left, fun hne => ((exec_rst hi h).resolve_left hne).1,
    fun hne => ((exec_cs hi h).resolve_left hne).1⟩

end Sys2Proof.Machine

/-! ## The last function-set byte (R22) -/

namespace Sys2Proof.Machine

/-- R203: a byte the receiver takes for anything but a function set or a no-operation is no function-set byte. -/
theorem isFunctionSet_of_classify {c : Codes} {h : Bool} {b : Byte} (hn : classify c h b ≠ .nop)
    (hf : ∀ pd v h', classify c h b ≠ .functionSet pd v h') : isFunctionSet c b = false := by
  unfold classify at hn hf
  split at hn
  · exact absurd rfl hn
  · rename_i hb
    simp only [hb] at hf
    cases hfs : isFunctionSet c b
    · rfl
    · simp [hfs] at hf

theorem isFunctionSet_fsbyte (pd v h : Bool) :
    isFunctionSet Codes.reference (fsbyte Codes.reference pd v h) = true := by
  revert pd v h; decide

theorem isFunctionSet_columnByte (n : Nat) : isFunctionSet Codes.reference (columnByte Codes.reference n) = false :=
  isFunctionSet_of_classify (h := false) (by simp [classify_columnByte]) (by simp [classify_columnByte])

theorem isFunctionSet_bankByte (n : Nat) : isFunctionSet Codes.reference (bankByte Codes.reference n) = false := by
  apply isFunctionSet_of_classify (h := false) <;> rw [classify_bankByte] <;> split <;> simp

theorem isFunctionSet_display :
    isFunctionSet Codes.reference Codes.reference.displayBlank = false ∧
    isFunctionSet Codes.reference Codes.reference.displayAllOn = false ∧
    isFunctionSet Codes.reference Codes.reference.displayNormal = false ∧
    isFunctionSet Codes.reference Codes.reference.displayInverse = false := by
  decide

/-- The function-set bytes among frames, in order. -/
def functionSetBytes (c : Codes) (fs : List Frame) : List Byte := (delivered fs).filterMap (Sent.functionSetByte c)

@[simp] theorem functionSetBytes_append (c : Codes) (fs gs : List Frame) :
    functionSetBytes c (fs ++ gs) = functionSetBytes c fs ++ functionSetBytes c gs := by
  simp [functionSetBytes]

@[simp] theorem functionSetBytes_nil (c : Codes) : functionSetBytes c [] = [] := rfl

@[simp] theorem functionSetBytes_cmd (c : Codes) (b : Byte) (fs : List Frame) :
    functionSetBytes c (.cmd b :: fs) = (if isFunctionSet c b then [b] else []) ++ functionSetBytes c fs := by
  cases h : isFunctionSet c b <;> simp [functionSetBytes, Sent.functionSetByte, h]

@[simp] theorem functionSetBytes_pulse (c : Codes) (fs : List Frame) :
    functionSetBytes c (.resetPulse :: fs) = functionSetBytes c fs := rfl

@[simp] theorem functionSetBytes_dataFrames (c : Codes) (ds : List (List Byte)) :
    functionSetBytes c (dataFrames ds) = [] := by
  simp only [functionSetBytes, delivered, dataFrames, List.filterMap_eq_nil_iff, List.mem_map]
  rintro _ ⟨_, ⟨d, -, rfl⟩, rfl⟩
  rfl

/-- R22: the last function-set byte among the frames, if there is one, carries these flags. -/
def LastByteCarries (f : FunctionState) (fs : List Frame) : Prop :=
  ∀ b, (functionSetBytes Codes.reference fs).getLast? = some b → b = f.byte Codes.reference

theorem LastByteCarries.of_none {f : FunctionState} {fs : List Frame} (h : functionSetBytes Codes.reference fs = []) :
    LastByteCarries f fs := by
  intro b hb
  rw [h] at hb
  cases hb

theorem LastByteCarries.of_last (f : FunctionState) (before : List Frame) {after : List Frame}
    (h : functionSetBytes Codes.reference after = []) :
    LastByteCarries f (before ++ .cmd (f.byte Codes.reference) :: after) := by
  intro b hb
  have hf : isFunctionSet Codes.reference (f.byte Codes.reference) = true := isFunctionSet_fsbyte _ _ _
  simp only [functionSetBytes_append, functionSetBytes_cmd, hf, if_true, h, List.append_nil, List.getLast?_concat,
    Option.some.injEq] at hb
  exact hb.symm

/-- R22 for plans. -/
theorem plan_lastByteCarries {i : Instr} {s : State} {p : Plan} (hsem : i.semantic = true)
    (hmode : ∀ v, i ≠ .setAddressingMode v) (hcodes : s.cfg.par.codes = Codes.reference) (hp : plan i s = .ok p) :
    LastByteCarries (finalFlags p.fs p.acts) (p.acts.map Prod.snd) := by
  have plain : ∀ {frames : List Frame}, functionSetBytes Codes.reference frames = [] →
      Plan.plain s frames = .ok p → LastByteCarries (finalFlags p.fs p.acts) (p.acts.map Prod.snd) := by
    rintro frames hfr hp
    cases hp
    rw [plainActs_frames]
    exact .of_none hfr
  have bracket : ∀ {d : DisplayConfig} {b : Byte}, Plan.bracket s d b = .ok p →
      LastByteCarries (finalFlags p.fs p.acts) (p.acts.map Prod.snd) := by
    rintro d b hp
    cases hp
    rw [hcodes]
    exact .of_last s.fs.basic [.cmd (s.fs.ext.byte Codes.reference), .cmd b] rfl
  obtain ⟨hblank, hallOn, hnormal, hinverse⟩ := isFunctionSet_display
  cases i with
  | setAddressingMode v => exact absurd rfl (hmode v)
  | setContrast n =>
    rcases checkVop_cases n with ⟨-, h⟩ | ⟨-, h⟩ <;> simp only [plan, h] at hp
    · exact bracket hp
    · cases hp
  | setBias n =>
    rcases checkBias_cases n with ⟨-, h⟩ | ⟨-, h⟩ <;> simp only [plan, h] at hp
    · exact bracket hp
    · cases hp
  | setTemperatureCoefficient n =>
    rcases checkTc_cases n with ⟨-, h⟩ | ⟨-, h⟩ <;> simp only [plan, h] at hp
    · exact bracket hp
    · cases hp
  | setPower on =>
    cases hp
    rw [hcodes]
    exact .of_last { s.fs with pd := !on } [] rfl
  | initialise mode contrast bias tc =>
    cases h : checkConfig contrast bias tc s.dcfg with
    | error e => simp only [plan, h] at hp; cases hp
    | ok d =>
      simp only [plan, h] at hp
      cases hp
      have hlast := LastByteCarries.of_last ⟨false, isVertical mode, false⟩
        ((if s.cfg.hasRst then [.resetPulse] else []) ++
          (bracketActs Codes.reference { s.fs with v := isVertical mode }
            [tcByte Codes.reference d.tc, biasByte Codes.reference d.bias, vopByte Codes.reference d.vop]).map Prod.snd)
        (after := [.cmd Codes.reference.displayNormal]) (by simp [hnormal])
      cases hr : s.cfg.hasRst <;>
        simpa [Plan.initialisation, hcodes, hr, FunctionState.basic, FunctionState.byte] using hlast
  | setCursor column bank => exact plain (by simp [hcodes, isFunctionSet_columnByte, isFunctionSet_bankByte]) hp
  | setInverted on => exact plain (by cases on <;> simp [hcodes, hnormal, hinverse]) hp
  | setBlanked on => exact plain (by cases on <;> simp [hcodes, hnormal, hblank]) hp
  | setTestPattern on => exact plain (by cases on <;> simp [hcodes, hnormal, hallOn]) hp
  | reset => exact plain (by cases s.cfg.hasRst <;> simp) hp
  | fill on => exact plain (by simp [hcodes, isFunctionSet_columnByte, isFunctionSet_bankByte]) hp
  | drawText text => exact plain (functionSetBytes_dataFrames _ _) hp
  | rawData bytes => exact plain (functionSetBytes_dataFrames _ _) hp
  | writeData bytes => exact plain (functionSetBytes_dataFrames _ _) hp
  | create | rawCommand | wireFunctionSet | wireDisplayBlank | wireDisplayAllOn | wireDisplayNormal
  | wireDisplayInverse | wireSetBank | wireSetColumn | wireSetTc | wireSetBias | wireSetVop | wireNop
  | wireDataByte => cases hsem

/-- A semantic operation is not `create`. -/
theorem isCreate_of_semantic {i : Instr} (h : i.semantic = true) : i.isCreate = false := by
  cases i with
  | create => cases h
  | _ => rfl

/-- Settles O52: an operation that ends with `Ok` has sent its whole plan and left the flags its plan ends with. -/
theorem lastFunctionByteIsTheMirrors : Obligations.LastFunctionByteIsTheMirrors := by
  intro i s t b hsem hmode hcodes _ h hok hb
  obtain ⟨-, ⟨w, n, -, rfl⟩ | ⟨p, hp, he, -, hf, -⟩ | ⟨p, _, _, _, -, -, -, herr, -⟩⟩ :=
    exec_cases (isCreate_of_semantic hsem) h
  · cases hok
  · rw [he.frames, List.drop_left, hcodes] at hb
    rw [hcodes, hf]
    exact plan_lastByteCarries hsem hmode hcodes hp b hb
  · rw [herr] at hok
    cases hok

end Sys2Proof.Machine

/-! ## The machine without a chip-select line (R27) -/

namespace Sys2Proof.Machine

/-- R27, R103: a frame of a block without the line has the same events less those of the line. -/
theorem Sent.events_withoutCs (s : State) (f : Sent) :
    f.events s.withoutCs.cfg = (f.events s.cfg).filter Event.notCs := by
  obtain ⟨f, d⟩ := f
  cases f <;> cases h : s.cfg.hasCs <;>
    simp [Sent.events, transferEvents, pulseEvents, csPin, h, State.withoutCs, Event.notCs, List.filter_cons]

/-- R28: less the events of the line, its latch keeps its level and the other latches end the same. -/
theorem Lines.drive_notCs (es : List Event) (l : Lines) (level : Option Level) :
    (es.filter Event.notCs).foldl Lines.drive { l with cs := level } = { es.foldl Lines.drive l with cs := level } := by
  induction es generalizing l with
  | nil => rfl
  | cons e es ih =>
    cases he : e.notCs
    · have hdrop : { l.drive e with cs := level } = { l with cs := level } := by
        cases e with
        | pin line level' =>
          cases line with
          | cs => rfl
          | dc | rst => cases he
        | xfer | wait => cases he
      rw [List.filter_cons_of_neg (by simp [he]), ← hdrop]
      exact ih (l.drive e)
    · have hkeep : Lines.drive { l with cs := level } e = { l.drive e with cs := level } := by
        cases e with
        | pin line level' =>
          cases line with
          | cs => cases he
          | dc | rst => rfl
        | xfer | wait => rfl
      rw [List.filter_cons_of_pos he, List.foldl_cons, hkeep]
      exact ih (l.drive e)

/-- What two machines that agree have in common, the receiver too where it is the same. -/
theorem Agrees.eq {s u : State} (h : Agrees s u) (hrx : u.rx = s.rx) :
    { u with events := s.events, lines := s.lines, cfg := s.cfg } = s := by
  obtain ⟨_, _, _, _, _, _, _, _, _, _, _, _⟩ := s
  simp only [h.created, h.fs, h.dcfg, h.offered, h.requests, h.answers, h.frames, h.result, hrx]

/-- Settles O57: the block reads nothing of the line (`exec_agrees`), so both machines send the same frames. -/
theorem absentChipSelectRemovesOnlyItsEvents : Obligations.AbsentChipSelectRemovesOnlyItsEvents := by
  intro i s t hi _ h
  have hagree : Agrees s s.withoutCs := ⟨rfl, rfl, rfl, rfl, rfl, rfl, rfl, rfl, rfl⟩
  have hplan : plan i s.withoutCs = plan i s := plan_congr i rfl rfl rfl rfl rfl rfl
  obtain ⟨u, gs, hu, he, he', ha⟩ := exec_agrees hi hagree hplan h
  have hev : gs.flatMap (Sent.events s.withoutCs.cfg) = (gs.flatMap (Sent.events s.cfg)).filter Event.notCs := by
    rw [List.filter_flatMap]
    exact congrArg (gs.flatMap ·) (funext (Sent.events_withoutCs s))
  have hlines : u.lines = { t.lines with cs := s.lines.cs } := by
    rw [he'.lines, he.lines, hev]
    exact Lines.drive_notCs _ s.lines s.lines.cs
  have hevents : u.events = s.events ++ (gs.flatMap (Sent.events s.cfg)).filter Event.notCs := by
    rw [he'.events, hev]
    rfl
  have hrx : u.rx = t.rx := he'.rx.trans he.rx.symm
  exact ⟨u, _, hu, he.events, hevents, by rw [hlines], by rw [hlines], by rw [hlines], ha.eq hrx⟩

end Sys2Proof.Machine

/-! ## The display memory and the order in which it is written (R50, R53, R62, R65) -/

namespace Sys2Proof.Machine

section DisplayMemory

variable {i : Instr} {s t : State} {p : Params} {rx : Receiver} {c' : Ctl}

/-! ### The receiver along the trace -/

/-- R201, R62: what a step appends to the traces, the receiver taking the appended frames one after the other. -/
theorem step_emits (h : step s = .next t) : ∃ gs : List Sent,
    t.frames = s.frames ++ gs ∧ t.events = s.events ++ gs.flatMap (Sent.events s.cfg) ∧
      t.rx = gs.foldl (Receiver.take s.cfg.par) s.rx := by
  rcases step_cases h with ⟨-, rfl⟩ | ⟨r, rs, -, ⟨i, hi⟩ | rfl⟩
  · exact ⟨[], by simp⟩
  · obtain ⟨gs, -, hframes, hevents, hrx⟩ := exec_emits hi
    exact ⟨gs, hframes, hevents, hrx⟩
  · exact ⟨[], by simp⟩

/-! ### Commands store nothing -/

/-- R53: a receiver that is defined after a command frame was defined before it, with the same display memory. -/
theorem Receiver.take_command_ddram {f : Sent} (hf : f.frame.isCommand = true) (h : rx.take p f = .defined c') :
    ∃ c, rx = .defined c ∧ c'.ddram = c.ddram := by
  obtain ⟨f, d⟩ := f
  cases f with
  | data | resetPulse => cases hf
  | cmd b =>
    cases d with
    | false => rw [Receiver.take_failed p rx (by simp)] at h; cases h
    | true =>
      cases rx with
      | unpredictable n => cases h
      | defined c => exact ⟨c, rfl, Ctl.execute_ddram h⟩

/-- R53: the same for any number of command frames. -/
theorem Receiver.takes_commands_ddram {gs : List Sent} (hgs : ∀ g ∈ gs, g.frame.isCommand = true)
    (h : gs.foldl (Receiver.take p) rx = .defined c') : ∃ c, rx = .defined c ∧ c'.ddram = c.ddram := by
  induction gs generalizing rx with
  | nil => exact ⟨c', h, rfl⟩
  | cons g gs ih =>
    obtain ⟨k, hk, hrest⟩ := ih (fun g' hg' => hgs g' (List.mem_cons_of_mem _ hg')) h
    obtain ⟨c, hc, hfirst⟩ := Receiver.take_command_ddram (hgs g List.mem_cons_self) hk
    exact ⟨c, hc, hrest.trans hfirst⟩

/-- An instruction without data and without a pulse sends command frames alone. -/
theorem exec_emits_commands (hi : i.isCreate = false) (hdata : i.storesData = false)
    (hpulse : i.pulses = false ∨ s.cfg.hasRst = false) (h : exec i s = .next t) :
    ∃ gs, Emits s t gs ∧ ∀ g ∈ gs, g.frame.isCommand = true := by
  obtain ⟨gs, he, hgs⟩ := exec_emits_plan hi h
  refine ⟨gs, he, fun g hg => ?_⟩
  obtain ⟨p, hp, a, ha, hag⟩ := hgs g hg
  cases hf : g.frame with
  | cmd b => rfl
  | data bs =>
    have hstores : i.storesData = true := plan_data hi hp ha (by rw [hag, hf]; rfl)
    rw [hdata] at hstores
    cases hstores
  | resetPulse =>
    obtain ⟨hpulses, hrst⟩ := plan_pulse hi hp ha (hag.trans hf)
    rcases hpulse with hno | hno
    · rw [hno] at hpulses; cases hpulses
    · rw [hno] at hrst; cases hrst

/-- R260: `create` does not touch the receiver. -/
theorem exec_create_rx (hi : i.isCreate = true) (h : exec i s = .next t) : t.rx = s.rx := by
  obtain ⟨_, _, _, _, rfl⟩ := Instr.eq_create hi
  rcases create_cases h with ⟨-, rfl⟩ | ⟨-, -, -, rfl⟩ <;> rfl

/-- R50, R53: without data and without a pulse the display memory is the same as a whole. -/
theorem exec_keeps_ddram (hdata : i.storesData = false) (hpulse : i.pulses = false ∨ s.cfg.hasRst = false)
    (h : exec i s = .next t) (hc' : t.rx = .defined c') : ∃ c, s.rx = .defined c ∧ c'.ddram = c.ddram := by
  cases hi : i.isCreate with
  | true => exact ⟨c', (exec_create_rx hi h).symm.trans hc', rfl⟩
  | false =>
    obtain ⟨gs, he, hgs⟩ := exec_emits_commands hi hdata hpulse h
    exact Receiver.takes_commands_ddram hgs (he.rx.symm.trans hc')

/-! ### Chunks of data -/

/-- R211: a data frame without bytes, if there were one, would change nothing. -/
@[simp] theorem Receiver.take_data_nil (p : Params) (rx : Receiver) : rx.take p ⟨.data [], true⟩ = rx := by
  cases rx <;> rfl

/-- R213: two data frames act as one with the bytes of both. -/
theorem Receiver.take_data_append (p : Params) (rx : Receiver) (bs bs' : List Byte) :
    rx.take p ⟨.data (bs ++ bs'), true⟩ = (rx.take p ⟨.data bs, true⟩).take p ⟨.data bs', true⟩ := by
  cases rx with
  | unpredictable n => rfl
  | defined c => simp only [Receiver.take_data, List.foldl_append]

/-- R213, R65: data frames one after the other act as one with the bytes of all. -/
theorem Receiver.takes_datas (p : Params) (rx : Receiver) (ds : List (List Byte)) :
    (delivered (ds.map .data)).foldl (Receiver.take p) rx = rx.take p ⟨.data ds.flatten, true⟩ := by
  induction ds generalizing rx with
  | nil => exact (Receiver.take_data_nil p rx).symm
  | cons d ds ih =>
    rw [List.map_cons, delivered_cons, List.foldl_cons, ih, List.flatten_cons, Receiver.take_data_append]

end DisplayMemory

/-- Settles O40: such an instruction sends command frames alone, and no command stores (`exec_keeps_ddram`). -/
theorem onlyDataBytesStore : Obligations.OnlyDataBytesStore := by
  intro i s t c c' hdata hpulse h hc hc' a
  obtain ⟨k, hk, hddram⟩ := exec_keeps_ddram hdata hpulse h hc'
  obtain rfl : c = k := Receiver.defined.inj (hc.symm.trans hk)
  rw [hddram]

/-- Settles O41: both chunkings act as one frame with the same bytes. -/
theorem chunkingDoesNotMatter : Obligations.ChunkingDoesNotMatter := by
  intro p rx ds ds' h
  rw [Receiver.takes_datas, Receiver.takes_datas, h]

/-- Settles O55, by the cases of a step. -/
theorem receiverFoldsOverTheTrace : Obligations.ReceiverFoldsOverTheTrace := fun _ _ h => step_emits h

end Sys2Proof.Machine

/-! ## Encoding and decoding (R71 to R81): the encoder's requests are read back, the function-set byte carries its three
flags, and what becomes of a request that spells no instruction -/

namespace Sys2Proof

open Sys2Proof.Machine

/-! ### Requests read back from their encoding -/

/-- The bytes an operation is encoded to are read back, whatever follows them and whatever the constants are. -/
theorem decodeOperation_encode {c : Codes} {i : Instr} {bytes : List Byte} (hwf : i.wf = true)
    (h : encode c i = .operation bytes) (rest : List Byte) : decodeOperation (bytes ++ rest) = .ok (i, rest) := by
  cases i <;> cases h
  case create => simp [decodeOperation, readBool_put]
  case setAddressingMode | setPower | setInverted | setBlanked | setTestPattern | fill =>
    simp [decodeOperation, readBool_put]
  case setContrast | setBias | setTemperatureCoefficient | setCursor => simp [decodeOperation, readNat_put]
  case rawCommand | reset => rfl
  case rawData | writeData => simp [decodeOperation, readBytes_put]
  case initialise => simp [decodeOperation, readMode_put, readOption_put]
  case drawText text =>
    have htext : ∀ c ∈ text, c ≤ 0x10FFFF := by simpa [Instr.wf] using hwf
    simp [decodeOperation, readText_put htext]

/-- A command byte of the reference constants is read back under the latch of its set. -/
theorem decodeCommand_encode {i : Instr} {b : Byte} (h : Bool) (he : encode Codes.reference i = .command b) :
    decodeCommand Codes.reference (i.latch h) b = .ok i := by
  cases i <;> cases he
  case wireFunctionSet pd v h' => exact decodeCommand_fsbyte h pd v h'
  case wireDisplayBlank | wireDisplayAllOn | wireDisplayNormal | wireDisplayInverse => rfl
  case wireSetBank bank => exact decodeCommand_bankByte bank
  case wireSetColumn column => exact decodeCommand_columnByte column
  case wireSetTc tc => exact decodeCommand_tcByte tc
  case wireSetBias bias => exact decodeCommand_biasByte bias
  case wireSetVop vop => exact decodeCommand_vopByte vop
  case wireNop => rfl

/-- R118: only the data byte is encoded as data. -/
theorem eq_wireDataByte_of_encode {c : Codes} {i : Instr} {d : Byte} (h : encode c i = .data d) :
    i = .wireDataByte d := by
  cases i <;> cases h
  rfl

/-- Settles O2, by the three kinds of request an instruction is encoded to. -/
theorem encodedInstructionDecodesBack : Obligations.EncodedInstructionDecodesBack := by
  intro i h hwf
  rcases hr : encode Codes.reference i with bytes | b | d
  · have hread := decodeOperation_encode hwf hr []
    rw [List.append_nil] at hread
    simp [decode, hread]
  · exact decodeCommand_encode h hr
  · rw [eq_wireDataByte_of_encode hr]
    rfl

/-! ### The function-set byte (R73) -/

/-- A shifted flag is read at its own position and leaves every other bit zero. -/
theorem flagBit_getLsbD (flag : Bool) {pos : Nat} (hpos : pos < 8) (k : Nat) :
    (flagBit flag pos).getLsbD k = (decide (k = pos) && flag) := by
  cases flag
  · simp [flagBit]
  · rw [Bool.eq_iff_iff]
    simp only [flagBit, if_true, BitVec.getLsbD_shiftLeft, BitVec.getLsbD_one, Bool.and_eq_true,
      Bool.not_eq_true', and_true, decide_eq_true_eq, decide_eq_false_iff_not]
    omega

section FunctionSetByte

variable {c : Codes}

/-- What a well-formed record says of the function-set byte: the positions lie inside the byte and differ, and the opcode
has zeros there. -/
theorem Codes.flagPositions_of_wf (hc : c.wf = true) :
    (c.bitPd < 8 ∧ c.bitV < 8 ∧ c.bitH < 8) ∧ (c.bitPd ≠ c.bitV ∧ c.bitPd ≠ c.bitH ∧ c.bitV ≠ c.bitH) ∧
      c.functionSet &&& c.flagMask = 0#8 := by
  simp only [Codes.wf, Bool.and_eq_true, decide_eq_true_eq, bne_iff_ne, beq_iff_eq, and_assoc] at hc
  obtain ⟨-, -, -, -, -, hpd, hv, hh, hpv, hph, hvh, hzero, -⟩ := hc
  exact ⟨⟨hpd, hv, hh⟩, ⟨hpv, hph, hvh⟩, hzero⟩

/-- R73: the opcode has zeros at the flag positions. -/
theorem Codes.functionSet_getLsbD_flag (hc : c.wf = true) {k : Nat} (hk : k = c.bitPd ∨ k = c.bitV ∨ k = c.bitH) :
    c.functionSet.getLsbD k = false := by
  obtain ⟨⟨hpd, hv, hh⟩, -, hzero⟩ := Codes.flagPositions_of_wf hc
  have hmask : c.flagMask.getLsbD k = true := by
    simp only [Codes.flagMask, BitVec.getLsbD_or, flagBit_getLsbD, hpd, hv, hh]
    simpa [or_assoc] using hk
  have hbit : (c.functionSet &&& c.flagMask).getLsbD k = false := by rw [hzero, BitVec.getLsbD_zero]
  rwa [BitVec.getLsbD_and, hmask, Bool.and_true] at hbit

/-- Each flag is read back from the function-set byte at its position. -/
theorem fsbyte_getLsbD_flags (hc : c.wf = true) (pd v h : Bool) :
    (fsbyte c pd v h).getLsbD c.bitPd = pd ∧ (fsbyte c pd v h).getLsbD c.bitV = v ∧
      (fsbyte c pd v h).getLsbD c.bitH = h := by
  obtain ⟨⟨hpd, hv, hh⟩, ⟨hpv, hph, hvh⟩, -⟩ := Codes.flagPositions_of_wf hc
  have hbits (k : Nat) (hk : k = c.bitPd ∨ k = c.bitV ∨ k = c.bitH) : (fsbyte c pd v h).getLsbD k =
      (decide (k = c.bitPd) && pd || decide (k = c.bitV) && v || decide (k = c.bitH) && h) := by
    simp only [fsbyte, BitVec.getLsbD_or, flagBit_getLsbD, hpd, hv, hh, Codes.functionSet_getLsbD_flag hc hk,
      Bool.false_or]
  refine ⟨?_, ?_, ?_⟩
  · simp [hbits, hpv, hph]
  · simp [hbits, hpv.symm, hvh]
  · simp [hbits, hph.symm, hvh.symm]

/-- Two settings of the flags never give one byte. -/
theorem fsbyte_injective (hc : c.wf = true) {pd v h pd' v' h' : Bool}
    (heq : fsbyte c pd v h = fsbyte c pd' v' h') : pd = pd' ∧ v = v' ∧ h = h' := by
  obtain ⟨hpd, hv, hh⟩ := fsbyte_getLsbD_flags hc pd v h
  obtain ⟨hpd', hv', hh'⟩ := fsbyte_getLsbD_flags hc pd' v' h'
  rw [heq] at hpd hv hh
  exact ⟨hpd.symm.trans hpd', hv.symm.trans hv', hh.symm.trans hh'⟩

end FunctionSetByte

/-- Settles O3: the formula and the eight bytes by computation, the rest by reading each flag at its position. -/
theorem functionSetByteCarriesAllThreeFlags : Obligations.FunctionSetByteCarriesAllThreeFlags := by
  refine ⟨fun _ _ _ _ => rfl, rfl, fun c hc => ?_⟩
  obtain ⟨-, hdistinct, -⟩ := Codes.flagPositions_of_wf hc
  have hzero : ∀ k, k = c.bitPd ∨ k = c.bitV ∨ k = c.bitH → c.functionSet.getLsbD k = false :=
    fun _ => Codes.functionSet_getLsbD_flag hc
  exact ⟨hdistinct, ⟨hzero _ (.inl rfl), hzero _ (.inr (.inl rfl)), hzero _ (.inr (.inr rfl))⟩,
    fun _ _ _ _ _ _ => fsbyte_injective hc⟩

/-- Settles O1: the decoder run on each sample word. -/
theorem sampleWordsDecode : Obligations.SampleWordsDecode :=
  ⟨rfl, rfl, rfl, rfl, rfl, rfl, rfl, rfl, rfl, rfl⟩

/-! ### Requests that spell no instruction -/

/-- R81: a select code above 0x10 is refused by name, whatever bytes follow it. -/
theorem decodeOperation_unknownSelect {sel : Byte} (h : 0x10 < sel.toNat) (bs : List Byte) :
    decodeOperation (sel :: bs) = .error (.unknownSelect sel) := by
  simp only [decodeOperation]
  split
  rotate_right
  · rfl
  all_goals omega

/-- R80: a command byte the decoder finds no instruction for is undefined to the receiver too, whose table differs in the
bank row alone and knows fewer bytes there (C6). -/
theorem classify_of_decodeCommand_error {c : Codes} {h : Bool} {b : Byte} {e : DecodeError}
    (hbank : c.setBank &&& 0xC0#8 = c.setBank) (he : decodeCommand c h b = .error e) : classify c h b = .undefined := by
  have hrow (hb : b &&& 0xC0#8 ≠ c.setBank) : b &&& 0xF8#8 ≠ c.setBank := fun heq =>
    hb (by rw [← hbank, ← heq, BitVec.and_assoc]; rfl)
  cases h
  · simp only [decodeCommand, Bool.false_eq_true, if_false] at he
    split_ifs at he with hnop hfs hblank hallOn hnormal hinverse hbk hcolumn
    simp [classify, isFunctionSet, classifyBasic, hnop, hfs, hblank, hallOn, hnormal, hinverse, hrow hbk, hcolumn]
  · simp only [decodeCommand, if_true] at he
    split_ifs at he with hnop hfs hvop htc hbias
    simp [classify, isFunctionSet, classifyExtended, hnop, hfs, hvop, htc, hbias]

end Sys2Proof

namespace Sys2Proof.Machine

/-- Settles O6: the decoder refuses the select code, and the request is dropped. -/
theorem unnamedSelectCodeIsNotAccepted : Obligations.UnnamedSelectCodeIsNotAccepted := by
  intro s sel bs rs hsel hr
  have hf : fetch s (.operation (sel :: bs)) = .error (.unknownSelect sel) := by
    simp [fetch, decode, decodeOperation_unknownSelect hsel]
  exact step_of_fetch_error hr hf

/-- A command request at a defined receiver is read by that receiver's latch (R78). -/
theorem fetch_command {s : State} {c : Ctl} (hrx : s.rx = .defined c) (b : Byte) :
    fetch s (.command b) = decodeCommand s.cfg.par.codes c.h b := by
  simp [fetch, decode, State.instructionSet, hrx, Receiver.latch]

/-- Settles O7: the step sends the byte as one command frame, which the receiver classifies as undefined. -/
theorem undefinedCommandByteIsSent : Obligations.UndefinedCommandByteIsSent := by
  intro s b rs c hready hrx hdec hr
  have hready' : Ready (s.withRequests rs) := ⟨hready.created, hready.infallible⟩
  refine ⟨((s.withRequests rs).record ⟨.cmd b, true⟩).setResult .ok, ?_, ?_, rfl, rfl, fun hcodes => ?_⟩
  · rw [step_of_fetch_error hr ((fetch_command hrx b).trans hdec)]
    exact sendCmd_ready hready' b
  · exact (Sends.record (s.withRequests rs) (.cmd b)).mirror_right s.fs s.dcfg (some .ok)
  · have hundef : classify s.cfg.par.codes c.h b = .undefined :=
      classify_of_decodeCommand_error (by rw [hcodes]; rfl) hdec
    simp [hrx, hundef, Ctl.execute]

end Sys2Proof.Machine

/-! ## Frames on the wire (R101 to R106): the events of one frame, the chip-select bracket along a step, and what the
transport's answers make of an instruction -/

namespace Sys2Proof.Machine

section WireFrames

variable {i : Instr} {s t u : State} {cfg : Cfg} {p : Params}

/-! ### The events of one frame -/

/-- R101, R102: a transfer's events, with and without the chip-select line. -/
theorem transferEvents_eq (cfg : Cfg) (level : Level) (bytes : List Byte) (d : Bool) :
    transferEvents cfg level bytes d =
      if cfg.hasCs then
        [.pin .dc level, .pin .cs cfg.par.lvlCsAssert, .xfer bytes d, .pin .cs (!cfg.par.lvlCsAssert)]
      else [.pin .dc level, .xfer bytes d] := by
  cases h : cfg.hasCs <;> simp [transferEvents, csPin, h]

/-- R28: what a transfer leaves on the lines. -/
theorem drive_transferEvents (cfg : Cfg) (level : Level) (bytes : List Byte) (d : Bool) (l : Lines) :
    (transferEvents cfg level bytes d).foldl Lines.drive l =
      ⟨some level, if cfg.hasCs then some (!cfg.par.lvlCsAssert) else l.cs, l.rst⟩ := by
  rw [transferEvents_eq]
  cases cfg.hasCs <;> rfl

/-- R160: what a well-formed parameter record is. -/
theorem Params.wf_iff : p.wf = true ↔ p.codes.wf = true ∧ (1 ≤ p.fillChunk ∧ p.fillChunk ≤ 504) ∧
    p.lvlCmd ≠ p.lvlData ∧ 100 < p.tPulse ∧ p.tPulse < 100000000 := by
  simp [Params.wf, Params.pulseWf, and_assoc]

/-! ### The chip-select discipline (R103) -/

/-- One trace after the other. -/
theorem Select.run_append (a : Level) (q : Select) (es es' : List Event) :
    Select.run a q (es ++ es') = (Select.run a q es).bind fun q' => Select.run a q' es' := by
  induction es generalizing q with
  | nil => rfl
  | cons e es ih =>
    simp only [List.cons_append, Select.run]
    cases q.next a e with
    | none => rfl
    | some q' => exact ih q'

/-- R103 (a), (b), (d): a transfer of some bytes is one bracket. -/
theorem Select.run_transferEvents (hcs : cfg.hasCs = true) (level : Level) {bytes : List Byte} (hb : bytes ≠ [])
    (d : Bool) : Select.run cfg.par.lvlCsAssert .idle (transferEvents cfg level bytes d) = some .idle := by
  simp [transferEvents_eq, hcs, Select.run, Select.next, hb]

/-- R103: a frame begins and ends with chip-select deasserted, and asserts it around its one transfer alone. -/
theorem Select.run_frame (hcs : cfg.hasCs = true) {g : Sent} (hg : g.frame ≠ .data []) :
    Select.run cfg.par.lvlCsAssert .idle (g.events cfg) = some .idle := by
  obtain ⟨f, d⟩ := g
  cases f with
  | cmd b => exact Select.run_transferEvents hcs _ (List.cons_ne_nil b []) d
  | data bs => exact Select.run_transferEvents hcs _ (fun hbs => hg (congrArg Frame.data hbs)) d
  | resetPulse => rfl

/-- R103: so does any number of frames. -/
theorem Select.run_frames (hcs : cfg.hasCs = true) {gs : List Sent} (hgs : ∀ g ∈ gs, g.frame ≠ .data []) :
    Select.run cfg.par.lvlCsAssert .idle (gs.flatMap (Sent.events cfg)) = some .idle := by
  induction gs with
  | nil => rfl
  | cons g gs ih =>
    rw [List.flatMap_cons, Select.run_append, Select.run_frame hcs (hgs g List.mem_cons_self)]
    exact ih fun g' hg' => hgs g' (List.mem_cons_of_mem g hg')

/-- R27: without the line a frame has no event of it. -/
theorem Sent.events_notCs (hcs : cfg.hasCs = false) (g : Sent) : ∀ e ∈ g.events cfg, e.notCs = true := by
  obtain ⟨f, d⟩ := g
  cases f <;> simp [Sent.events, transferEvents_eq, pulseEvents, hcs, Event.notCs]

/-- R102: no frame a step sends is an empty data frame. -/
theorem step_emits_no_empty_data (h : step s = .next t) : ∃ gs : List Sent,
    (∀ g ∈ gs, g.frame ≠ .data []) ∧ t.events = s.events ++ gs.flatMap (Sent.events s.cfg) := by
  rcases step_cases h with ⟨-, rfl⟩ | ⟨r, rs, -, ⟨i, hi⟩ | rfl⟩
  · exact ⟨[], by simp⟩
  · obtain ⟨gs, hne, -, hevents, -⟩ := exec_emits hi
    exact ⟨gs, hne, hevents⟩
  · exact ⟨[], by simp⟩

/-! ### The same instruction on a transport that cannot fail (R106) -/

/-- What the machine with an infallible transport ends as, when it sends the frames the other one delivered and leaves the
same mirror and result: the same state but for the transport and its answers. -/
theorem Sends.eq_of_infallible {fs : List Frame} (h : Sends s.infallible u fs) (h' : Emits s t (delivered fs))
    (hfs : u.fs = t.fs) (hdcfg : u.dcfg = t.dcfg) (hresult : u.result = t.result) :
    u = { t with cfg := s.infallible.cfg, answers := s.answers } := by
  have hframes : u.frames = t.frames := h.frames.trans h'.frames.symm
  have hevents : u.events = t.events := by rw [h.events, h'.events, Sent.events_infallible]; rfl
  have hlines : u.lines = t.lines := by rw [h.lines, h'.lines, Sent.events_infallible]; rfl
  have hrx : u.rx = t.rx := by rw [h.rx, h'.rx, Receiver.take_infallible]; rfl
  have hcreated : u.created = t.created := h.created.trans h'.created.symm
  have hoffered : u.offered = t.offered := h.offered.trans h'.offered.symm
  have hrequests : u.requests = t.requests := h.requests.trans h'.requests.symm
  have hanswers : u.answers = s.answers := h.answers
  rw [← hframes, ← hevents, ← hlines, ← hrx, ← hcreated, ← hoffered, ← hrequests, ← hfs, ← hdcfg, ← hresult, ← h.cfg,
    ← hanswers]

/-- R106: an instruction none of whose transfers failed does the same on a transport that cannot fail. -/
theorem exec_infallible {gs : List Sent} (hi : i.isCreate = false) (h : exec i s = .next t)
    (hframes : t.frames = s.frames ++ gs) (hgs : ∀ g ∈ gs, g.delivered = true) :
    exec i s.infallible = .next { t with cfg := s.infallible.cfg, answers := s.answers } := by
  obtain ⟨hc, ⟨w, n, hp, rfl⟩ | ⟨p, hp, he, hr, hf, hd, -⟩ | ⟨p, before, a, after, -, -, he, -⟩⟩ := exec_cases hi h
  · rw [exec_eq_plan i _ hi, withBlock_created (s := s.infallible) hc, plan_infallible, hp]
    rfl
  · have hready : Ready s.infallible := ⟨hc, rfl⟩
    obtain ⟨u, hu, hs, hr', hf', hd'⟩ := exec_ready hi hready ((plan_infallible i s).trans hp)
    rw [hu, hs.eq_of_infallible he (hf'.trans hf.symm) (hd'.trans hd.symm) (hr'.trans hr.symm)]
  · obtain rfl : gs = _ := List.append_cancel_left (hframes.symm.trans he.frames)
    have hfailed : false = true := hgs ⟨a.2, false⟩ (by simp)
    cases hfailed

/-! ### Instructions that leave the mirror alone -/

/-- An instruction planned as frames sent with the mirror as it is completes with these frames. -/
theorem completes_of_plain {frames : List Frame} (hi : i.isCreate = false) (h : Ready s)
    (hp : plan i s = Plan.plain s frames) : Completes i s frames s.fs s.dcfg := by
  simpa using exec_ready hi h hp

/-- R75: a column of seven bits goes out as it is. -/
theorem columnByte_toNat (c : Codes) (x : BitVec 7) : columnByte c x.toNat = c.setColumn ||| x.setWidth 8 := by
  rw [columnByte_eq, Nat.mod_eq_of_lt x.isLt]
  simp

/-- R75: a bank of six bits goes out as it is. -/
theorem bankByte_toNat (c : Codes) (y : BitVec 6) : bankByte c y.toNat = c.setBank ||| y.setWidth 8 := by
  rw [bankByte_eq, Nat.mod_eq_of_lt y.isLt]
  simp

end WireFrames

/-- Settles O56: what a step sends are frames, none of them without bytes, and each is one bracket or, without the line,
has no event of it. -/
theorem chipSelectBracketsOneTransfer : Obligations.ChipSelectBracketsOneTransfer := by
  intro s t h
  obtain ⟨gs, hne, hevents⟩ := step_emits_no_empty_data h
  refine ⟨_, hevents, fun hcs => Select.run_frames hcs hne, fun hcs e he => ?_⟩
  obtain ⟨g, -, heg⟩ := List.mem_flatMap.1 he
  exact Sent.events_notCs hcs g e heg

/-- Settles O60: the answers are `exec_answered`'s, the run without a failure `exec_infallible`'s. -/
theorem transfersTakeTheAnswersInOrder : Obligations.TransfersTakeTheAnswersInOrder := by
  intro i s t gs hi hfallible h hframes
  obtain ⟨gs', hframes', hanswered⟩ := exec_answered hi hfallible h
  obtain rfl : gs = gs' := List.append_cancel_left (hframes.symm.trans hframes')
  exact ⟨hanswered.answers, hanswered.delivered, exec_infallible hi h hframes⟩

/-- Settles O8: the one frame's events and what they leave on the lines. -/
theorem commandFrameEvents : Obligations.CommandFrameEvents := by
  intro s b hs
  exact ⟨_, sendCmd_ready hs b, congrArg (s.events ++ ·) (transferEvents_eq ..), drive_transferEvents ..⟩

/-- Settles O9: one frame for a buffer with bytes, none for an empty one; the levels differ by well-formedness. -/
theorem dataFrameEvents : Obligations.DataFrameEvents := by
  refine ⟨fun s bs hs => ?_, fun p hp => ?_⟩
  · by_cases hb : bs = []
    · subst hb
      exact ⟨_, sendData_nil hs.created, (List.append_nil _).symm⟩
    · rw [if_neg hb]
      exact ⟨_, sendData_ready hs hb, congrArg (s.events ++ ·) (transferEvents_eq ..)⟩
  · obtain ⟨-, -, hlevels, -⟩ := Params.wf_iff.1 hp
    exact hlevels.symm

/-- Settles O10: the pulse is sent where there is a reset line, and nothing otherwise. -/
theorem resetPulseEvents : Obligations.ResetPulseEvents := by
  refine ⟨fun s hs => ?_, fun p hp => ?_⟩
  · obtain ⟨r, hr, hsends, -⟩ := emitReset_ok s
    have hexec : exec .reset s = .next (r.setResult .ok) := by
      rw [exec, execReset, withBlock_created hs, hr, finish_ok]
    refine ⟨_, hexec, ?_, ?_⟩
    · rw [State.setResult_events, hsends.events]
      cases s.cfg.hasRst <;> rfl
    · rw [State.setResult_lines, hsends.lines]
      cases s.cfg.hasRst <;> rfl
  · obtain ⟨-, -, -, hpulse⟩ := Params.wf_iff.1 hp
    exact hpulse

/-- Settles O28: each is planned as its one frame; the bytes of the masked parameters are those of the operand lemmas. -/
theorem wireCommandsSendOneFrame : Obligations.WireCommandsSendOneFrame := by
  intro s hs
  have command {i : Instr} {b : Byte} (hi : i.isCreate = false) (hp : plan i s = Plan.plain s [.cmd b]) :
      Completes i s [.cmd b] s.fs s.dcfg := completes_of_plain hi hs hp
  exact ⟨fun _ _ _ => command rfl rfl, command rfl rfl, command rfl rfl, command rfl rfl, command rfl rfl,
    fun x => columnByte_toNat _ x ▸ command rfl rfl, fun y => bankByte_toNat _ y ▸ command rfl rfl,
    fun t => tcByte_eq _ t ▸ command rfl rfl, fun b => biasByte_eq _ b ▸ command rfl rfl,
    fun v => vopByte_eq _ v ▸ command rfl rfl, command rfl rfl⟩

/-- Settles O29: a buffer of one byte is planned as one data frame. -/
theorem wireDataByteSendsOneFrame : Obligations.WireDataByteSendsOneFrame :=
  fun _ _ hs => completes_of_plain rfl hs rfl

end Sys2Proof.Machine

/-! ## The encoder's operations (R131 to R141): what each writes of the mirror and which frames it sends, by its plan -/

namespace Sys2Proof.Machine

section EncoderOperations

variable {i : Instr} {s : State}

/-- An instruction whose plan refuses it leaves its result and nothing else (R237). -/
theorem exec_of_plan_error {e : OpResult} (hi : i.isCreate = false) (hs : s.created = true) (hp : plan i s = .error e) :
    exec i s = .next { s with result := some e } := by
  rw [exec_eq_plan i s hi, withBlock_created hs, hp]
  rfl

/-- R108: an instruction planned as one extended write sends the bracket's three frames and ends in the basic set. -/
theorem completes_of_bracket {d : DisplayConfig} {b : Byte} (hi : i.isCreate = false) (hs : Ready s)
    (hp : plan i s = Plan.bracket s d b) :
    Completes i s [.cmd (fsbyte s.cfg.par.codes s.fs.pd s.fs.v true), .cmd b,
      .cmd (fsbyte s.cfg.par.codes s.fs.pd s.fs.v false)] { s.fs with h := false } d :=
  exec_ready hi hs hp

/-- R26: a value that fits its field goes out as it was given. -/
theorem instrByte_ofNat {w n : Nat} (h : n < 2 ^ w) (opc : Byte) (mask : Nat) :
    instrByte opc (BitVec.ofNat w n).toNat mask = opc ||| BitVec.ofNat 8 (n &&& mask) := by
  rw [BitVec.toNat_ofNat, Nat.mod_eq_of_lt h, instrByte]

/-- R102: a buffer is one frame, and none where it is empty. -/
theorem dataFrames_singleton (bs : List Byte) : dataFrames [bs] = if bs = [] then [] else [.data bs] := by
  by_cases h : bs = [] <;> simp [dataFrames, h]

/-- A wire command goes out as the byte it is encoded to. -/
theorem exec_eq_sendCmd {b : Byte} (h : encode s.cfg.par.codes i = .command b) : exec i s = sendCmd b s := by
  cases i with
  | wireFunctionSet | wireDisplayBlank | wireDisplayAllOn | wireDisplayNormal | wireDisplayInverse | wireSetBank
  | wireSetColumn | wireSetTc | wireSetBias | wireSetVop | wireNop => cases h; rfl
  | wireDataByte | create | setAddressingMode | setContrast | setBias | setTemperatureCoefficient | setCursor | setPower
  | setInverted | setBlanked | setTestPattern | rawCommand | rawData | initialise | reset | fill | drawText
  | writeData => cases h

end EncoderOperations

/-- Settles O15: the check decides between the plan's bracket and a refusal. -/
theorem setContrastBracketsTheOperatingVoltage : Obligations.SetContrastBracketsTheOperatingVoltage := by
  refine ⟨fun s vop hs hvop => ?_, fun s vop hs hvop => ?_⟩
  · rw [← instrByte_ofNat (w := 7) (by omega)]
    exact completes_of_bracket rfl hs (by rw [plan, checkVop_ok hvop]; rfl)
  · exact exec_of_plan_error rfl hs (by rw [plan, checkVop_error hvop])

/-- Settles O16, as for the contrast. -/
theorem setBiasBracketsTheBias : Obligations.SetBiasBracketsTheBias := by
  refine ⟨fun s bias hs hbias => ?_, fun s bias hs hbias => ?_⟩
  · rw [← instrByte_ofNat (w := 3) (by omega)]
    exact completes_of_bracket rfl hs (by rw [plan, checkBias_ok hbias]; rfl)
  · exact exec_of_plan_error rfl hs (by rw [plan, checkBias_error hbias])

/-- Settles O17, as for the contrast. -/
theorem setTemperatureCoefficientBracketsTheCoefficient : Obligations.SetTemperatureCoefficientBracketsTheCoefficient := by
  refine ⟨fun s tc hs htc => ?_, fun s tc hs htc => ?_⟩
  · rw [← instrByte_ofNat (w := 2) (by omega)]
    exact completes_of_bracket rfl hs (by rw [plan, checkTc_ok htc]; rfl)
  · exact exec_of_plan_error rfl hs (by rw [plan, checkTc_error htc])

/-- Settles O18: the masks are remainders (R188); the named bytes are the general ones under the reference constants. -/
theorem setCursorWrapsNeverRejects : Obligations.SetCursorWrapsNeverRejects := by
  have wraps (s : State) (column bank : Nat) (hs : Ready s) :
      Completes (.setCursor column bank) s
        [.cmd (s.cfg.par.codes.setColumn ||| BitVec.ofNat 8 (column % 128)),
         .cmd (s.cfg.par.codes.setBank ||| BitVec.ofNat 8 (bank % 64))] s.fs s.dcfg := by
    rw [← columnByte_eq, ← bankByte_eq]
    exact completes_of_plain rfl hs rfl
  refine ⟨wraps, fun s hs hcodes => ?_⟩
  have reference (column bank : Nat) := hcodes ▸ wraps s column bank hs
  exact ⟨reference 84 6, reference 148 70, reference 128 64⟩

/-- Settles O48: each of the three ends in `exec_cases` has its own result, and a transfer fails only on a fallible
transport. -/
theorem everyOperationCompletes : Obligations.EveryOperationCompletes := by
  intro i s hi hs
  obtain ⟨t, ht⟩ := exec_next hi hs
  refine ⟨t, ht, ?_⟩
  obtain ⟨-, ⟨w, n, -, rfl⟩ | ⟨p, -, -, hr, -⟩ | ⟨p, before, a, after, -, -, -, hr, -, -, -, hfallible⟩⟩ := exec_cases hi ht
  · simp
  · simp [hr]
  · simp [hr, hfallible]

/-- Settles O14: the plan stores the flag and holds no frame. -/
theorem addressingModeIsStoredNotSent : Obligations.AddressingModeIsStoredNotSent := by
  intro s vertical hs
  rw [exec_eq_plan _ s rfl, withBlock_created hs]
  rfl

/-- Settles O19: the one planned frame carries the mirror's `H`, which is 0 at a boundary. -/
theorem setPowerResendsTheFunctionByte : Obligations.SetPowerResendsTheFunctionByte := by
  intro s on hs hh
  rw [← hh]
  exact exec_ready (i := .setPower on) rfl hs rfl

/-- Settles O20: each is planned as its one frame. -/
theorem displayModeOperationsSendOneCommand : Obligations.DisplayModeOperationsSendOneCommand := by
  intro s hs
  refine ⟨?_, ?_, ?_, ?_, ?_, ?_⟩ <;> exact completes_of_plain rfl hs rfl

/-- Settles O21: the byte is planned as one frame, with the mirror as it is. -/
theorem rawCommandBypassesTheMirror : Obligations.RawCommandBypassesTheMirror :=
  fun _ _ hs => completes_of_plain rfl hs rfl

/-- Settles O22: both are planned as the frames of the one buffer. -/
theorem buffersAreSentWhole : Obligations.BuffersAreSentWhole := by
  intro s bs hs
  rw [← dataFrames_singleton]
  exact ⟨completes_of_plain rfl hs rfl, completes_of_plain rfl hs rfl⟩

/-- Settles O59: a wire instruction and the raw operation with its byte are the same sending. -/
theorem wireInstructionIsItsRawByte : Obligations.WireInstructionIsItsRawByte := by
  intro i s b
  refine ⟨fun h => exec_eq_sendCmd h, fun h => ?_⟩
  obtain rfl := eq_wireDataByte_of_encode h
  rfl

end Sys2Proof.Machine

/-! ## The initialization sequencer (R160 to R170): `create`, `initialize` and `reset`, each said once -/

namespace Sys2Proof.Machine

section Sequencer

variable {i : Instr} {s : State} {mode : AddressingMode} {contrast bias tc : Option Nat}

/-! ### Construction (R160) -/

/-- Without the bus or the data/command line there is no block, and nothing else is written. -/
theorem exec_create_unbound {hasBus hasDc : Bool} (h : hasBus = false ∨ hasDc = false) (hasCs hasRst : Bool) :
    exec (.create hasBus hasDc hasCs hasRst) s =
      .next { s with created := false, result := some .configurationError } := by
  rcases h with rfl | rfl
  · rfl
  · cases hasBus <;> rfl

/-- With both, an ill-formed record is refused. -/
theorem exec_create_illFormed (h : s.offered.wf = false) (hasCs hasRst : Bool) :
    exec (.create true true hasCs hasRst) s = .refused .illFormedParameters := by
  simp [exec, execCreate, h]

/-- Where no block exists only `create` can be issued. -/
theorem exec_noBlock (hi : i.isCreate = false) (hs : s.created = false) : exec i s = .fault .noBlock := by
  rw [exec_eq_plan i s hi, withBlock, if_neg (by simp [hs])]

/-! ### The checks of `initialize` (R162) -/

theorem checkConfig_error_contrast {n : Nat} (hn : 127 < n) (old : DisplayConfig) :
    checkConfig (some n) bias tc old = .error (.outOfRange .contrast n) := by
  rw [checkConfig, checkOptional, checkVop_error hn]

theorem checkConfig_error_bias {n : Nat} (hc : ∀ m ∈ contrast, m ≤ 127) (hn : 7 < n) (old : DisplayConfig) :
    checkConfig contrast (some n) tc old = .error (.outOfRange .bias n) := by
  rw [checkConfig, checkOptional_ok fun m hm => checkVop_ok (hc m hm)]
  simp only [checkOptional, checkBias_error hn]

theorem checkConfig_error_tc {n : Nat} (hc : ∀ m ∈ contrast, m ≤ 127) (hb : ∀ m ∈ bias, m ≤ 7) (hn : 3 < n)
    (old : DisplayConfig) :
    checkConfig contrast bias (some n) old = .error (.outOfRange .temperatureCoefficient n) := by
  rw [checkConfig, checkOptional_ok fun m hm => checkVop_ok (hc m hm)]
  simp only
  rw [checkOptional_ok fun m hm => checkBias_ok (hb m hm)]
  simp only [checkOptional, checkTc_error hn]

/-- An `initialize` whose overrides are refused leaves the refusal as its result and nothing else. -/
theorem exec_initialise_of_checkConfig_error {e : OpResult} (hs : s.created = true)
    (h : checkConfig contrast bias tc s.dcfg = .error e) :
    exec (.initialise mode contrast bias tc) s = .next { s with result := some e } :=
  exec_of_plan_error rfl hs (by rw [plan, h])

/-! ### The sequence of `initialize` (R163, R164) -/

/-- An `initialize` whose overrides give the configuration `d` commits it with the addressing mode and sends the sequence
from there. -/
theorem completes_initialise {d : DisplayConfig} (hs : Ready s) (h : checkConfig contrast bias tc s.dcfg = .ok d) :
    Completes (.initialise mode contrast bias tc) s
      ((if s.cfg.hasRst then [.resetPulse] else []) ++
        [.cmd (fsbyte s.cfg.par.codes s.fs.pd (isVertical mode) true), .cmd (tcByte s.cfg.par.codes d.tc),
         .cmd (biasByte s.cfg.par.codes d.bias), .cmd (vopByte s.cfg.par.codes d.vop),
         .cmd (fsbyte s.cfg.par.codes s.fs.pd (isVertical mode) false),
         .cmd (fsbyte s.cfg.par.codes false (isVertical mode) false), .cmd s.cfg.par.codes.displayNormal])
      ⟨false, isVertical mode, false⟩ d := by
  obtain ⟨t, ht, hsends, hfs, hdcfg, -⟩ := emitInitialisation_infallible (s := s.commit mode d) hs.infallible
  have hexec : exec (.initialise mode contrast bias tc) s = .next (t.setResult .ok) := by
    rw [exec, execInitialise, withBlock_created hs.created, h]
    simp only [ht, finish_ok]
  have hsends' : Sends s t _ := hsends.mirror_left { s.fs with v := isVertical mode } d
  exact ⟨_, hexec, hsends'.mirror_right t.fs t.dcfg (some .ok), rfl, hfs, hdcfg⟩

theorem isVertical_eq_decide (mode : AddressingMode) : isVertical mode = decide (mode = .vertical) := by
  cases mode <;> rfl

end Sequencer

/-- Settles O23: `checkConfig_ok` gives the configuration committed, `completes_initialise` the rest. -/
theorem initialiseRunsTheFixedSequence : Obligations.InitialiseRunsTheFixedSequence := by
  intro s mode contrast bias tc hs hcontrast hbias htc
  rw [← isVertical_eq_decide]
  exact completes_initialise hs (checkConfig_ok s.dcfg hcontrast hbias htc)

/-- Settles O11: a clause for each way `create` can go, and the fault of every other instruction. -/
theorem createConstructsTheBlock : Obligations.CreateConstructsTheBlock := by
  refine ⟨fun s hasCs hasRst _ hwf => exec_create_wf hwf hasCs hasRst, fun s hasBus hasDc hasCs hasRst hbound hs _ => ?_,
    fun s hasCs hasRst _ hwf => exec_create_illFormed hwf hasCs hasRst, fun s i hi hs => exec_noBlock hi hs⟩
  rw [exec_create_unbound hbound, ← hs]

/-- Settles O24: each clause is the check's refusal of that override. -/
theorem initialiseChecksBeforeItStores : Obligations.InitialiseChecksBeforeItStores := by
  intro s mode contrast bias tc hs
  refine ⟨?_, ?_, ?_⟩
  · rintro n rfl hn
    exact exec_initialise_of_checkConfig_error hs (checkConfig_error_contrast hn _)
  · rintro n hcontrast rfl hn
    exact exec_initialise_of_checkConfig_error hs (checkConfig_error_bias hcontrast hn _)
  · rintro n hcontrast hbias rfl hn
    exact exec_initialise_of_checkConfig_error hs (checkConfig_error_tc hcontrast hbias hn _)

/-- Settles O25: `emitReset_ok`, which asks nothing of the transport. -/
theorem resetPulsesAndKeepsTheMirror : Obligations.ResetPulsesAndKeepsTheMirror := by
  intro s hs
  obtain ⟨r, hr, hsends, hfs, hdcfg, -⟩ := emitReset_ok s
  have hexec : exec .reset s = .next (r.setResult .ok) := by
    rw [exec, execReset, withBlock_created hs, hr, finish_ok]
  exact ⟨_, hexec, hsends.mirror_right r.fs r.dcfg (some .ok), rfl, hfs, hdcfg⟩

end Sys2Proof.Machine

/-! ## The pixel and text writer (R180 to R187): the frames `fill` and `drawText` send, and where their bytes land -/

namespace Sys2Proof.Machine

section Writer

variable {i : Instr} {s : State} {c : Ctl} {ds : List (List Byte)}

/-! ### The buffers -/

/-- Where no buffer is empty each is a frame. -/
theorem dataFrames_eq_map (h : ∀ d ∈ ds, d ≠ []) : dataFrames ds = ds.map .data := by
  rw [dataFrames, List.filter_eq_self.2 (by simpa using h)]

/-- R183: no glyph is empty. -/
theorem ne_nil_of_mem_textBuffers {p : Params} {text : List Nat} : ∀ d ∈ textBuffers p text, d ≠ [] := by
  intro d hd
  obtain ⟨k, -, rfl⟩ := List.mem_map.1 hd
  exact List.ne_nil_of_length_pos (by simp)

/-- R180: a buffer of `fill` is as long as its chunk. -/
theorem map_length_fillBuffers (p : Params) (on : Bool) :
    (fillBuffers p on).map List.length = chunkSizes p.fillChunk 504 504 := by
  simp [fillBuffers, Function.comp_def]

/-- R180: together the buffers of `fill` are 504 copies of its byte. -/
theorem flatten_fillBuffers {p : Params} (hchunk : 1 ≤ p.fillChunk) (on : Bool) :
    (fillBuffers p on).flatten = List.replicate 504 (fillByte on) := by
  refine List.eq_replicate_iff.2 ⟨?_, fun b hb => ?_⟩
  · rw [List.length_flatten, map_length_fillBuffers, chunkSizes_sum hchunk 504 504 le_rfl]
  · obtain ⟨d, hd, hbd⟩ := List.mem_flatten.1 hb
    obtain ⟨n, -, rfl⟩ := List.mem_map.1 hd
    exact List.eq_of_mem_replicate hbd

/-- R181: no buffer of `fill` is empty and none is longer than the chunk size. -/
theorem fillBuffers_bounds {p : Params} (hchunk : 1 ≤ p.fillChunk) {on : Bool} :
    ∀ d ∈ fillBuffers p on, d ≠ [] ∧ d.length ≤ p.fillChunk := by
  intro d hd
  have hlen : d.length ∈ chunkSizes p.fillChunk 504 504 :=
    map_length_fillBuffers p on ▸ List.mem_map_of_mem hd
  obtain ⟨hpos, hle⟩ := chunkSizes_bounds hchunk 504 504 _ hlen
  exact ⟨List.ne_nil_of_length_pos hpos, hle⟩

/-- R181: every buffer of `fill` but the last has the chunk size. -/
theorem fillBuffers_dropLast {p : Params} {on : Bool} :
    ∀ d ∈ (fillBuffers p on).dropLast, d.length = p.fillChunk := by
  intro d hd
  have hlen : d.length ∈ (chunkSizes p.fillChunk 504 504).dropLast := by
    rw [← map_length_fillBuffers p on, ← List.map_dropLast]
    exact List.mem_map_of_mem hd
  exact chunkSizes_dropLast 504 504 _ hlen

/-- R180: `fill` completes with its buffers, then column 0 and bank 0. -/
theorem completes_fill (hs : Ready s) (hchunk : 1 ≤ s.cfg.par.fillChunk) (on : Bool) :
    Completes (.fill on) s ((fillBuffers s.cfg.par on).map .data ++
      [.cmd (columnByte s.cfg.par.codes 0), .cmd (bankByte s.cfg.par.codes 0)]) s.fs s.dcfg := by
  rw [← dataFrames_eq_map fun d hd => (fillBuffers_bounds hchunk d hd).1]
  exact completes_of_plain rfl hs rfl

/-! ### The bytes at the receiver -/

/-- R213: the frames of some buffers act as one frame with the bytes of all; an empty buffer adds none. -/
theorem Receiver.takes_dataFrames (p : Params) (rx : Receiver) (ds : List (List Byte)) :
    (delivered (dataFrames ds)).foldl (Receiver.take p) rx = rx.take p ⟨.data ds.flatten, true⟩ := by
  rw [dataFrames, Receiver.takes_datas, List.flatten_filter_ne_nil]

/-- R187: an instruction planned as the frames of some buffers has their bytes stored one after the other. -/
theorem exec_stores (hi : i.isCreate = false) (hs : Ready s) (hp : plan i s = Plan.plain s (dataFrames ds))
    (hrx : s.rx = .defined c) : ∃ t, exec i s = .next t ∧ t.rx = .defined (ds.flatten.foldl Ctl.store c) := by
  obtain ⟨t, ht, hsends, -⟩ := completes_of_plain hi hs hp
  refine ⟨t, ht, ?_⟩
  rw [hsends.rx, Receiver.takes_dataFrames, hrx, Receiver.take_data]

/-- R212: the scan leads from any cursor to any other in fewer than 504 steps. -/
theorem exists_iterate_advance_eq (v : Bool) (p q : Fin 84 × Fin 6) : ∃ k < 504, (advance v)^[k] p = q := by
  have hp := place_lt v p
  have hq := place_lt v q
  refine ⟨(place v q + 504 - place v p) % 504, Nat.mod_lt _ (by decide), place_injective (v := v) ?_⟩
  rw [place_iterate]
  omega

/-- R182: 504 equal bytes cover the display memory, wherever the cursor stands. -/
theorem Ctl.stores_cover {bs : List Byte} {b : Byte} (hlen : bs.length = 504) (hbs : ∀ d ∈ bs, d = b) (c : Ctl)
    (x : Fin 84) (y : Fin 6) : Memory.read (bs.foldl Ctl.store c).ddram (ddramIndex x y) = some b := by
  obtain ⟨k, hk, hxy⟩ := exists_iterate_advance_eq c.v c.cursor (x, y)
  have hread := Ctl.stores_read bs c hlen.le k (hlen ▸ hk)
  rwa [hxy, hbs _ (List.getElem_mem _)] at hread

/-- R180, R182: the data of `fill` paints every location and changes nothing else but the cursor. -/
theorem Receiver.takes_fillBuffers {p : Params} (hchunk : 1 ≤ p.fillChunk) (on : Bool) (c : Ctl) :
    ∃ c', (delivered ((fillBuffers p on).map .data)).foldl (Receiver.take p) (.defined c) = .defined c' ∧
      (∀ x y, Memory.read c'.ddram (ddramIndex x y) = some (fillByte on)) ∧
      { c' with x := c.x, y := c.y, ddram := c.ddram } = c := by
  obtain ⟨hlen, hbytes⟩ := List.eq_replicate_iff.1 (flatten_fillBuffers hchunk on)
  rw [Receiver.takes_datas, Receiver.take_data]
  exact ⟨_, rfl, Ctl.stores_cover hlen hbytes c, Ctl.stores_fields _ c⟩

/-- R180, R206: in the basic set column 0 and bank 0 take the cursor to (0, 0) and change nothing else. -/
theorem Receiver.takes_home {p : Params} (hcodes : p.codes = Codes.reference) (hh : c.h = false) :
    (delivered [.cmd (columnByte p.codes 0), .cmd (bankByte p.codes 0)]).foldl (Receiver.take p) (.defined c) =
      .defined { c with x := 0, y := 0 } := by
  have hcolumn : classify p.codes c.h (columnByte p.codes 0) = .setColumn 0#7 := by
    rw [hcodes, hh, classify_columnByte]
  have hbank : classify p.codes c.h (bankByte p.codes 0) = .setBank 0#3 := by
    rw [hcodes, hh, classify_bankByte, if_pos (by decide)]
  calc
    _ = Receiver.take p (c.execute (.setColumn 0#7)) ⟨.cmd (bankByte p.codes 0), true⟩ := by rw [← hcolumn]; rfl
    _ = Ctl.execute (.setBank 0#3) { c with x := 0 } := by rw [← hbank]; rfl
    _ = _ := rfl

end Writer

/-- Settles O26: the frames are the chunks of `fillBuffers`, whose sizes are `chunkSizes`. -/
theorem fillStreamsTheWholeMemory : Obligations.FillStreamsTheWholeMemory := by
  intro s on hs hwf
  obtain ⟨-, ⟨hchunk, -⟩, -⟩ := Params.wf_iff.1 hwf
  have hcount : (fillBuffers s.cfg.par on).length = (504 + s.cfg.par.fillChunk - 1) / s.cfg.par.fillChunk := by
    rw [← List.length_map List.length, map_length_fillBuffers, chunkSizes_length hchunk 504 504 le_rfl]
  have hcompletes := completes_fill hs hchunk on
  rw [columnByte_eq, bankByte_eq] at hcompletes
  exact ⟨fillBuffers s.cfg.par on, hcompletes, flatten_fillBuffers hchunk on, hcount, fillBuffers_bounds hchunk,
    fillBuffers_dropLast⟩

/-- Settles O27: the selection is `glyphIndex`, and no glyph is empty. -/
theorem drawTextSendsOneGlyphPerCharacter : Obligations.DrawTextSendsOneGlyphPerCharacter := by
  refine ⟨glyphIndex, glyphIndex_val, fun s text hs => ?_⟩
  have hframes : dataFrames (textBuffers s.cfg.par text) =
      text.map fun k => .data (s.cfg.par.font.get (glyphIndex k)).toList := by
    rw [dataFrames_eq_map ne_nil_of_mem_textBuffers, textBuffers, List.map_map]
    rfl
  rw [← hframes]
  exact completes_of_plain rfl hs rfl

/-- Settles O39: all three operations have their bytes stored one after the other (`exec_stores`), and the lemmas on
`Ctl.store` say where these land along the scan. -/
theorem buffersLandAlongTheScan : Obligations.BuffersLandAlongTheScan := by
  intro s c bs i hs hrx hi
  have hstores : ∃ t, exec i s = .next t ∧ t.rx = .defined (bs.foldl Ctl.store c) := by
    rcases hi with rfl | rfl | ⟨text, rfl, rfl⟩
    · simpa using exec_stores (ds := [bs]) rfl hs rfl hrx
    · simpa using exec_stores (ds := [bs]) rfl hs rfl hrx
    · exact exec_stores rfl hs rfl hrx
  obtain ⟨t, ht, ht'⟩ := hstores
  exact ⟨t, _, ht, ht', Ctl.stores_cursor bs c, Ctl.stores_other bs c, Ctl.stores_read bs c, Ctl.stores_fields bs c⟩

/-- Settles O47: the 504 bytes cover the memory from any cursor, and the two commands take the cursor home. -/
theorem fillPaintsEveryLocation : Obligations.FillPaintsEveryLocation := by
  intro s c on hs hcodes hwf hrx hh
  obtain ⟨-, ⟨hchunk, -⟩, -⟩ := Params.wf_iff.1 hwf
  obtain ⟨t, ht, hsends, -⟩ := completes_fill hs hchunk on
  obtain ⟨c', hdata, hpainted, hframe⟩ := Receiver.takes_fillBuffers hchunk on c
  have hh' : c'.h = false := (congrArg Ctl.h hframe).trans hh
  have ht' : t.rx = .defined { c' with x := 0, y := 0 } := by
    rw [hsends.rx, hrx, delivered_append, List.foldl_append, hdata, Receiver.takes_home hcodes hh']
  exact ⟨t, _, ht, ht', rfl, rfl, hpainted, hframe⟩

end Sys2Proof.Machine

/-! ## The receiver (R200 to R212): its table, the reset pulse, one command at a time, and the scan of data bytes -/

namespace Sys2Proof.Machine

section ReceiverCommands

variable {i : Instr} {s t : State} {c : Ctl} {k : CtlInstr} {p : Params} {b : Byte} {n m : Nat}

/-! ### Classification under the reference constants (R203, R210) -/

/-- R203: the function-set row, by its numerals. -/
theorem isFunctionSet_reference (b : Byte) : isFunctionSet Codes.reference b = decide (b &&& 0xF8#8 = 0x20#8) := by
  have hmask : ~~~Codes.reference.flagMask = 0xF8#8 := by decide
  rw [isFunctionSet, hmask]
  exact beq_eq_decide _ _

/-- R210: in the extended set a bank byte spells nothing. -/
theorem classify_bankByte_extended (y : BitVec 6) :
    classify Codes.reference true (bankByte Codes.reference y.toNat) = .undefined := by
  revert y; decide

/-- R210: in the extended set the display bytes spell nothing. -/
theorem classify_display_extended :
    classify Codes.reference true Codes.reference.displayBlank = .undefined ∧
    classify Codes.reference true Codes.reference.displayAllOn = .undefined ∧
    classify Codes.reference true Codes.reference.displayNormal = .undefined ∧
    classify Codes.reference true Codes.reference.displayInverse = .undefined := by
  decide

/-- R210: in the basic set a bias byte spells nothing. -/
theorem classify_biasByte_basic (v : BitVec 3) :
    classify Codes.reference false (biasByte Codes.reference v) = .undefined := by
  revert v; decide

/-- R210: in the basic set a temperature-coefficient byte spells nothing. -/
theorem classify_tcByte_basic (v : BitVec 2) :
    classify Codes.reference false (tcByte Codes.reference v) = .undefined := by
  revert v; decide

/-- R210: a column byte and an operating-voltage byte are the same byte. -/
theorem columnByte_eq_vopByte (v : BitVec 7) : columnByte Codes.reference v.toNat = vopByte Codes.reference v := rfl

/-! ### Address bytes (R206) -/

/-- A column byte moves the cursor where its seven bits name a column. -/
theorem Ctl.execute_columnByte (c : Ctl) (hm : n % 128 = m) :
    c.execute (classify Codes.reference false (columnByte Codes.reference n)) =
      if h : m < 84 then .defined { c with x := ⟨m, h⟩ } else .unpredictable c.draws := by
  subst hm
  rw [classify_columnByte]
  rfl

/-- A bank byte moves the cursor where its six bits name a bank; the controller takes three of them, and a byte with any
other set is undefined to it. -/
theorem Ctl.execute_bankByte (c : Ctl) (hm : n % 64 = m) :
    c.execute (classify Codes.reference false (bankByte Codes.reference n)) =
      if h : m < 6 then .defined { c with y := ⟨m, h⟩ } else .unpredictable c.draws := by
  subst hm
  rw [classify_bankByte]
  by_cases h8 : n % 64 < 8
  · have hval : (BitVec.ofNat 3 (n % 64)).toNat = n % 64 := by
      rw [BitVec.toNat_ofNat]
      exact Nat.mod_eq_of_lt h8
    simp only [if_pos h8, Ctl.execute, Ctl.setBank, hval]
  · rw [if_neg h8, dif_neg (by omega)]
    rfl

/-- R135, R206: a column byte and a bank byte move the cursor where both name a place, and otherwise leave the receiver
unpredictable. -/
theorem Receiver.takes_cursor (hcodes : p.codes = Codes.reference) (hh : c.h = false) (column bank : Nat) :
    (delivered [.cmd (columnByte p.codes column), .cmd (bankByte p.codes bank)]).foldl (Receiver.take p) (.defined c) =
      if h : column % 128 < 84 ∧ bank % 64 < 6 then
        .defined { c with x := ⟨column % 128, h.1⟩, y := ⟨bank % 64, h.2⟩ }
      else .unpredictable c.draws := by
  simp only [delivered_cons, delivered_nil, List.foldl_cons, List.foldl_nil, Receiver.take_cmd, hcodes, hh,
    Ctl.execute_columnByte c rfl]
  by_cases hx : column % 128 < 84
  · rw [dif_pos hx, Receiver.take_cmd, hcodes]
    simp only [Ctl.execute_bankByte _ rfl, hx, true_and]
  · rw [dif_neg hx, dif_neg fun h => hx h.1, Receiver.take_unpredictable p c.draws (by simp)]

/-! ### One command as a whole operation -/

/-- The receiver executes what it takes the byte for; the mirror stays. -/
theorem sendCmd_rx (hs : Ready s) (hrx : s.rx = .defined c) (hk : classify s.cfg.par.codes c.h b = k) :
    ∃ t, sendCmd b s = .next t ∧ t.rx = c.execute k ∧ t.fs = s.fs ∧ t.dcfg = s.dcfg := by
  refine ⟨_, sendCmd_ready hs b, ?_, rfl, rfl⟩
  rw [State.setResult_rx, State.record_rx, hrx, Receiver.take_cmd, hk]

/-- The same for a wire command requested on its own, under the reference constants. -/
theorem exec_wire_rx (hs : Ready s) (hcodes : s.cfg.par.codes = Codes.reference) (hrx : s.rx = .defined c)
    (hi : encode Codes.reference i = .command b) (hk : classify Codes.reference c.h b = k) :
    ∃ t, exec i s = .next t ∧ t.rx = c.execute k := by
  rw [← hcodes] at hi hk
  obtain ⟨t, ht, ht', -⟩ := sendCmd_rx hs hrx hk
  exact ⟨t, (exec_eq_sendCmd hi).trans ht, ht'⟩

/-- A column byte sent as a wire command in the basic set, as either instruction that has this byte. -/
theorem exec_wire_column_rx (hs : Ready s) (hcodes : s.cfg.par.codes = Codes.reference) (hrx : s.rx = .defined c)
    (hh : c.h = false) {x : BitVec 7} (hi : encode Codes.reference i = .command (columnByte Codes.reference x.toNat)) :
    ∃ t, exec i s = .next t ∧
      if hx : x.toNat < 84 then t.rx = .defined { c with x := ⟨x.toNat, hx⟩ } else t.rx = .unpredictable c.draws := by
  obtain ⟨t, ht, ht'⟩ := exec_wire_rx hs hcodes hrx hi rfl
  rw [hh, Ctl.execute_columnByte c (Nat.mod_eq_of_lt x.isLt)] at ht'
  refine ⟨t, ht, ?_⟩
  split
  case isTrue hx => rw [ht', dif_pos hx]
  case isFalse hx => rw [ht', dif_neg hx]

/-! ### The reset pulse (R202) -/

theorem Params.pulseWf_iff : p.pulseWf = true ↔ 100 < p.tPulse ∧ p.tPulse < 100000000 := by
  simp [Params.pulseWf]

/-- A well-formed record has a pulse of a legal width. -/
theorem Params.pulseWf_of_wf (h : p.wf = true) : p.pulseWf = true := by
  obtain ⟨-, -, -, hpulse⟩ := Params.wf_iff.1 h
  exact Params.pulseWf_iff.2 hpulse

/-- `reset` with a line and a legal width: the receiver is reset, the mirror stays. -/
theorem exec_reset_rx (hs : s.created = true) (hrst : s.cfg.hasRst = true) (hpulse : s.cfg.par.pulseWf = true) :
    ∃ t, exec .reset s = .next t ∧ t.rx = .defined (Ctl.afterReset s.rx.draws) ∧ t.fs = s.fs ∧ t.dcfg = s.dcfg := by
  obtain ⟨t, ht, hsends, -, hfs, hdcfg⟩ := resetPulsesAndKeepsTheMirror s hs
  refine ⟨t, ht, ?_, hfs, hdcfg⟩
  rw [hsends.rx, if_pos hrst]
  exact Receiver.pulsed_wf hpulse s.rx

/-! ### The unpredictable receiver (R209) -/

/-- No frames but a pulse lead out of `Unpredictable`. -/
theorem Receiver.takes_unpredictable {gs : List Sent} (hgs : ∀ g ∈ gs, g.frame ≠ .resetPulse) :
    gs.foldl (Receiver.take p) (.unpredictable n) = .unpredictable n := by
  induction gs with
  | nil => rfl
  | cons g gs ih =>
    rw [List.foldl_cons, Receiver.take_unpredictable p n (hgs g List.mem_cons_self)]
    exact ih fun g' hg' => hgs g' (List.mem_cons_of_mem g hg')

/-- An instruction that drives no reset line leaves an unpredictable receiver so. -/
theorem exec_keeps_unpredictable (hrx : s.rx = .unpredictable n) (h : exec i s = .next t)
    (hpulse : i.pulses = false ∨ s.cfg.hasRst = false) : t.rx = .unpredictable n := by
  cases hi : i.isCreate with
  | true => exact (exec_create_rx hi h).trans hrx
  | false =>
    obtain ⟨gs, he, hgs⟩ := exec_emits_plan hi h
    rw [he.rx, hrx]
    refine Receiver.takes_unpredictable fun g hg hreset => ?_
    obtain ⟨q, hq, a, ha, hag⟩ := hgs g hg
    obtain ⟨hpulses, hrst⟩ := plan_pulse hi hq ha (hag.trans hreset)
    simp [hpulses, hrst] at hpulse

/-! ### The cursor after a data byte (R211) -/

theorem nextColumn_val (x : Fin 84) : (nextColumn x).val = if x.val < 83 then x.val + 1 else 0 := by
  unfold nextColumn
  split <;> rfl

theorem nextBank_val (y : Fin 6) : (nextBank y).val = if y.val < 5 then y.val + 1 else 0 := by
  unfold nextBank
  split <;> rfl

end ReceiverCommands

/-- Settles O4: the rows of `classify` in order, with the reference numerals in place of the named constants. -/
theorem receiverClassifiesByTheTable : Obligations.ReceiverClassifiesByTheTable := by
  intro b
  constructor
  · simp only [classify, classifyBasic, isFunctionSet_reference, beq_iff_eq, decide_eq_true_eq, Bool.false_eq_true,
      if_false, BitVec.setWidth_eq_extractLsb' (show 3 ≤ 8 by decide),
      BitVec.setWidth_eq_extractLsb' (show 7 ≤ 8 by decide)]
    rfl
  · simp only [classify, classifyExtended, isFunctionSet_reference, beq_iff_eq, decide_eq_true_eq, if_true,
      BitVec.setWidth_eq_extractLsb' (show 2 ≤ 8 by decide), BitVec.setWidth_eq_extractLsb' (show 3 ≤ 8 by decide),
      BitVec.setWidth_eq_extractLsb' (show 7 ≤ 8 by decide)]
    rfl

/-- Settles O30: the fields of `Ctl.afterReset`, its memory a draw (`Memory.read_fresh`). -/
theorem resetPulseResetsTheReceiver : Obligations.ResetPulseResetsTheReceiver := by
  refine ⟨fun s hs hrst habove hbelow => ?_, Receiver.draws_take_le⟩
  obtain ⟨t, ht, hrx, -⟩ := exec_reset_rx hs hrst (Params.pulseWf_iff.2 ⟨habove, hbelow⟩)
  exact ⟨t, _, ht, hrx, rfl, rfl, rfl, rfl, rfl, rfl, rfl, rfl, rfl, rfl, Memory.read_fresh s.rx.draws⟩

/-- Settles O31: both rows stand above the split of the table by `H`. -/
theorem functionSetAndNopWorkInBothSets : Obligations.FunctionSetAndNopWorkInBothSets := by
  intro s c hs hcodes hrx
  exact ⟨fun pd v h => exec_wire_rx hs hcodes hrx rfl (classify_fsbyte c.h pd v h),
    exec_wire_rx hs hcodes hrx rfl (classify_nop c.h)⟩

/-- Settles O32, by the four display rows. -/
theorem displayCommandsSelectTheMode : Obligations.DisplayCommandsSelectTheMode := by
  intro s c hs hcodes hrx hh
  obtain ⟨hblank, hallOn, hnormal, hinverse⟩ := hh ▸ classify_display
  exact ⟨exec_wire_rx hs hcodes hrx rfl hblank, exec_wire_rx hs hcodes hrx rfl hnormal,
    exec_wire_rx hs hcodes hrx rfl hallOn, exec_wire_rx hs hcodes hrx rfl hinverse⟩

/-- Settles O33: seven bits of column and six of bank, each taken where it names a place. -/
theorem addressCommandsMoveTheCursor : Obligations.AddressCommandsMoveTheCursor := by
  intro s c hs hcodes hrx hh
  refine ⟨fun x => exec_wire_column_rx hs hcodes hrx hh rfl, fun y => ?_⟩
  obtain ⟨t, ht, ht'⟩ := exec_wire_rx (i := .wireSetBank y) hs hcodes hrx rfl rfl
  rw [hh, Ctl.execute_bankByte c (Nat.mod_eq_of_lt y.isLt)] at ht'
  refine ⟨t, ht, ?_⟩
  split
  case isTrue hy => rw [ht', dif_pos hy]
  case isFalse hy => rw [ht', dif_neg hy]

/-- Settles O34, by the three configuration rows. -/
theorem configurationCommandsOverwriteOneRegister : Obligations.ConfigurationCommandsOverwriteOneRegister := by
  intro s c hs hcodes hrx hh
  exact ⟨fun v => exec_wire_rx hs hcodes hrx rfl (hh ▸ classify_tcByte v),
    fun v => exec_wire_rx hs hcodes hrx rfl (hh ▸ classify_biasByte v),
    fun v => exec_wire_rx hs hcodes hrx rfl (hh ▸ classify_vopByte v)⟩

/-- Settles O35: entering, staying in and leaving `Unpredictable`. -/
theorem unpredictableUntilAResetPulse : Obligations.UnpredictableUntilAResetPulse := by
  refine ⟨fun s c b hs hrx hb => sendCmd_rx hs hrx hb, fun i s t n hrx h hpulse => exec_keeps_unpredictable hrx h hpulse,
    fun s n hs _ hrst hwf => ?_⟩
  obtain ⟨t, ht, hrx, -⟩ := exec_reset_rx hs hrst (Params.pulseWf_of_wf hwf)
  exact ⟨t, _, ht, hrx⟩

/-- Settles O36: each byte by its row, or by the lack of one, in the other set. -/
theorem bytesOfTheOtherSetAreMisread : Obligations.BytesOfTheOtherSetAreMisread := by
  intro s c hs hcodes hrx
  refine ⟨fun hh => ⟨fun x => ?_, fun y => ?_, fun i hi => ?_⟩, (functionSetAndNopWorkInBothSets s c hs hcodes hrx).1,
    fun hh => ⟨fun v => ?_, fun v => ?_, fun v => ?_⟩, fun d => ?_⟩
  · exact exec_wire_rx (i := .wireSetColumn x) hs hcodes hrx rfl (hh ▸ classify_vopByte x)
  · exact exec_wire_rx (i := .wireSetBank y) hs hcodes hrx rfl (hh ▸ classify_bankByte_extended y)
  · obtain ⟨hblank, hallOn, hnormal, hinverse⟩ := hh ▸ classify_display_extended
    simp only [List.mem_cons, List.not_mem_nil, or_false] at hi
    rcases hi with rfl | rfl | rfl | rfl
    · exact exec_wire_rx hs hcodes hrx rfl hblank
    · exact exec_wire_rx hs hcodes hrx rfl hallOn
    · exact exec_wire_rx hs hcodes hrx rfl hnormal
    · exact exec_wire_rx hs hcodes hrx rfl hinverse
  · exact exec_wire_column_rx hs hcodes hrx hh (columnByte_eq_vopByte v ▸ rfl)
  · exact exec_wire_rx (i := .wireSetBias v) hs hcodes hrx rfl (hh ▸ classify_biasByte_basic v)
  · exact exec_wire_rx (i := .wireSetTc v) hs hcodes hrx rfl (hh ▸ classify_tcByte_basic v)
  · have hother : Ready { s with rx := .defined { c with h := !c.h } } := ⟨hs.created, hs.infallible⟩
    obtain ⟨t, ht, hrx'⟩ := exec_stores (i := .wireDataByte d) (ds := [[d]]) rfl hs rfl hrx
    obtain ⟨t', ht', hrx''⟩ := exec_stores (i := .wireDataByte d) (ds := [[d]]) rfl hother rfl rfl
    exact ⟨t, t', ht, ht', c.store d, hrx', hrx''⟩

/-- Settles O37: one byte stored (`Ctl.store`), the cursor by the four cases of `advance`. -/
theorem dataByteIsStoredAtTheCursor : Obligations.DataByteIsStoredAtTheCursor := by
  intro s c d hs hrx
  obtain ⟨t, ht, ht'⟩ := exec_stores (i := .wireDataByte d) (ds := [[d]]) rfl hs rfl hrx
  refine ⟨t, c.store d, ht, ht', Memory.read_write_same .., fun a ha => Memory.read_write_other _ _ ha,
    fun hv hx => ?_, fun hv hx => ?_, fun hv hy => ?_, fun hv hy => ?_, rfl, rfl, rfl, rfl, rfl, rfl, rfl⟩
  · simp [Ctl.store, Ctl.cursor, advance, hv, hx, nextColumn_val]
  · simp [Ctl.store, Ctl.cursor, advance, hv, hx, nextColumn_val, nextBank_val]
  · simp [Ctl.store, Ctl.cursor, advance, hv, hy, nextBank_val]
  · simp [Ctl.store, Ctl.cursor, advance, hv, hy, nextColumn_val, nextBank_val]

/-- Settles O38: a step raises the place in the scan by one, modulo 504 (`place_iterate`). -/
theorem cursorScanIsA504Cycle : Obligations.CursorScanIsA504Cycle := by
  refine fun v => ⟨by cases v <;> rfl, fun p => ⟨place_injective (v := v) ?_, fun q => ?_⟩⟩
  · rw [place_iterate, Nat.add_mod_right, Nat.mod_eq_of_lt (place_lt v p)]
  · obtain ⟨k, hk, hkq⟩ := exists_iterate_advance_eq v p q
    exact ⟨k, ⟨hk, hkq⟩, fun j ⟨hj, hjq⟩ => iterate_injective hj hk (hjq.trans hkq.symm)⟩

end Sys2Proof.Machine

/-! ## Mirror and receiver (R214, R216): what each operation does to their agreement -/

namespace Sys2Proof.Machine

section Agreement

variable {i : Instr} {s t : State} {c c' : Ctl} {p : Params} {frames : List Frame} {d : DisplayConfig} {b : Byte}

/-! ### Frames that change registers of the receiver -/

/-- R204: a function-set byte overwrites the three latches, in either set. -/
theorem Receiver.take_fsbyte (hcodes : p.codes = Codes.reference) (c : Ctl) (pd v h : Bool) :
    Receiver.take p (.defined c) ⟨.cmd (fsbyte p.codes pd v h), true⟩ = .defined { c with pd := pd, v := v, h := h } := by
  rw [Receiver.take_cmd, hcodes, classify_fsbyte]
  rfl

/-- R108: a write to the extended set inside its bracket; `c'` is the receiver between the write and the way back. -/
theorem Receiver.takes_bracket (hcodes : p.codes = Codes.reference) {pd v : Bool}
    (hb : Receiver.take p (.defined { c with pd := pd, v := v, h := true }) ⟨.cmd b, true⟩ = .defined c') :
    (delivered [.cmd (fsbyte p.codes pd v true), .cmd b, .cmd (fsbyte p.codes pd v false)]).foldl (Receiver.take p)
      (.defined c) = .defined { c' with pd := pd, v := v, h := false } := by
  simp only [delivered_cons, delivered_nil, List.foldl_cons, List.foldl_nil, Receiver.take_fsbyte hcodes, hb]

/-- R207: the three configuration commands, to a receiver in the extended set. -/
theorem Receiver.take_tcByte (hcodes : p.codes = Codes.reference) (hh : c.h = true) (v : BitVec 2) :
    Receiver.take p (.defined c) ⟨.cmd (tcByte p.codes v), true⟩ = .defined { c with tc := v } := by
  have hk : classify p.codes c.h (tcByte p.codes v) = .setTc v := by rw [hcodes, hh, classify_tcByte]
  exact congrArg c.execute hk

theorem Receiver.take_biasByte (hcodes : p.codes = Codes.reference) (hh : c.h = true) (v : BitVec 3) :
    Receiver.take p (.defined c) ⟨.cmd (biasByte p.codes v), true⟩ = .defined { c with bs := v } := by
  have hk : classify p.codes c.h (biasByte p.codes v) = .setBias v := by rw [hcodes, hh, classify_biasByte]
  exact congrArg c.execute hk

theorem Receiver.take_vopByte (hcodes : p.codes = Codes.reference) (hh : c.h = true) (v : BitVec 7) :
    Receiver.take p (.defined c) ⟨.cmd (vopByte p.codes v), true⟩ = .defined { c with vop := v } := by
  have hk : classify p.codes c.h (vopByte p.codes v) = .setVop v := by rw [hcodes, hh, classify_vopByte]
  exact congrArg c.execute hk

/-! ### `initialize` (R163, R216) -/

/-- The receiver with its flags and registers configured: powered on, in the basic set, display normal. -/
def Ctl.configured (c : Ctl) (v : Bool) (d : DisplayConfig) : Ctl :=
  { c with pd := false, v := v, h := false, de := .normal, tc := d.tc, bs := d.bias, vop := d.vop }

/-- The command frames of `initialize` configure any defined receiver. -/
theorem Receiver.takes_configuration (hcodes : p.codes = Codes.reference) (c : Ctl) (pd v : Bool) (d : DisplayConfig) :
    (delivered [.cmd (fsbyte p.codes pd v true), .cmd (tcByte p.codes d.tc), .cmd (biasByte p.codes d.bias),
      .cmd (vopByte p.codes d.vop), .cmd (fsbyte p.codes pd v false), .cmd (fsbyte p.codes false v false),
      .cmd p.codes.displayNormal]).foldl (Receiver.take p) (.defined c) = .defined (c.configured v d) := by
  obtain ⟨-, -, hnormal, -⟩ := classify_display
  simp only [delivered_cons, delivered_nil, List.foldl_cons, List.foldl_nil, Receiver.take_fsbyte hcodes,
    Receiver.take_tcByte hcodes, Receiver.take_biasByte hcodes, Receiver.take_vopByte hcodes]
  rw [Receiver.take_cmd, hcodes, hnormal]
  rfl

/-- The receiver after the optional pulse of `initialize`. -/
def Ctl.afterOptionalPulse (hasRst : Bool) (c : Ctl) : Ctl := if hasRst then Ctl.afterReset c.draws else c

theorem Receiver.takes_optionalPulse (hpulse : p.pulseWf = true) (hasRst : Bool) (c : Ctl) :
    (delivered (if hasRst then [.resetPulse] else [])).foldl (Receiver.take p) (.defined c) =
      .defined (c.afterOptionalPulse hasRst) := by
  cases hasRst with
  | false => rfl
  | true => exact Receiver.pulsed_wf hpulse (.defined c)

/-- A successful `initialize` of a defined receiver: the optional pulse, then the configuration it has committed. -/
theorem exec_initialise_rx {mode : AddressingMode} {contrast bias tc : Option Nat} (hs : Ready s)
    (hcodes : s.cfg.par.codes = Codes.reference) (hpulse : s.cfg.par.pulseWf = true) (hrx : s.rx = .defined c)
    (hd : checkConfig contrast bias tc s.dcfg = .ok d) :
    ∃ t, exec (.initialise mode contrast bias tc) s = .next t ∧
      t.rx = .defined ((c.afterOptionalPulse s.cfg.hasRst).configured (isVertical mode) d) ∧
      t.fs = ⟨false, isVertical mode, false⟩ ∧ t.dcfg = d := by
  obtain ⟨t, ht, hsends, -, hfs, hdcfg⟩ := completes_initialise (mode := mode) hs hd
  refine ⟨t, ht, ?_, hfs, hdcfg⟩
  rw [hsends.rx, hrx, delivered_append, List.foldl_append, Receiver.takes_optionalPulse hpulse,
    Receiver.takes_configuration hcodes]

/-! ### The agreement (R214) -/

/-- The same flags and configuration registers, those the mirror speaks of. -/
structure Ctl.SameRegisters (c c' : Ctl) : Prop where
  pd  : c'.pd = c.pd
  v   : c'.v = c.v
  h   : c'.h = c.h
  tc  : c'.tc = c.tc
  bs  : c'.bs = c.bs
  vop : c'.vop = c.vop

/-- R211: data bytes leave every register. -/
theorem Ctl.sameRegisters_stores (bs : List Byte) (c : Ctl) : c.SameRegisters (bs.foldl Ctl.store c) := by
  induction bs generalizing c with
  | nil => exact ⟨rfl, rfl, rfl, rfl, rfl, rfl⟩
  | cons b bs ih =>
    have h := ih (c.store b)
    exact ⟨h.pd, h.v, h.h, h.tc, h.bs, h.vop⟩

/-- Agreement but for `V` speaks of the mirror and of the receiver's registers alone. -/
theorem SyncModV.of_sameRegisters (h : SyncModV s c) (hc : c.SameRegisters c') (hfs : t.fs = s.fs)
    (hdcfg : t.dcfg = s.dcfg) : SyncModV t c' := by
  constructor
  · rw [hc.pd, h.pd, hfs]
  · rw [hc.h, h.h, hfs]
  · rw [hc.tc, h.tc, hdcfg]
  · rw [hc.bs, h.bs, hdcfg]
  · rw [hc.vop, h.vop, hdcfg]

/-- So does the whole agreement. -/
theorem Sync.of_sameRegisters (h : Sync s c) (hc : c.SameRegisters c') (hfs : t.fs = s.fs) (hdcfg : t.dcfg = s.dcfg) :
    Sync t c' :=
  ⟨h.toSyncModV.of_sameRegisters hc hfs hdcfg, by rw [hc.v, h.v, hfs]⟩

/-- R214 (c): frames sent with the mirror as it is preserve both agreements where they leave the receiver's registers. -/
theorem exec_preserves_sync (hi : i.isCreate = false) (hs : Ready s) (hrx : s.rx = .defined c) (hsync : SyncModV s c)
    (hp : plan i s = Plan.plain s frames)
    (hframes : (delivered frames).foldl (Receiver.take s.cfg.par) (.defined c) = .defined c')
    (hc : c.SameRegisters c') :
    ∃ t c', exec i s = .next t ∧ t.rx = .defined c' ∧ SyncModV t c' ∧ (Sync s c → Sync t c') := by
  obtain ⟨t, ht, hsends, -, hfs, hdcfg⟩ := completes_of_plain hi hs hp
  exact ⟨t, c', ht, by rw [hsends.rx, hrx, hframes], hsync.of_sameRegisters hc hfs hdcfg,
    fun h => h.of_sameRegisters hc hfs hdcfg⟩

/-- R214 (b): an extended write in its bracket delivers a pending addressing mode; `c'` is the receiver between the write
and the way back. -/
theorem exec_bracket_restores_sync (hi : i.isCreate = false) (hs : Ready s) (hcodes : s.cfg.par.codes = Codes.reference)
    (hrx : s.rx = .defined c) (hp : plan i s = Plan.bracket s d b)
    (hb : Receiver.take s.cfg.par (.defined { c with pd := s.fs.pd, v := s.fs.v, h := true }) ⟨.cmd b, true⟩ =
      .defined c')
    (htc : c'.tc = d.tc) (hbs : c'.bs = d.bias) (hvop : c'.vop = d.vop) :
    ∃ t c', exec i s = .next t ∧ t.rx = .defined c' ∧ Sync t c' := by
  obtain ⟨t, ht, hsends, -, hfs, hdcfg⟩ := completes_of_bracket hi hs hp
  refine ⟨t, _, ht, by rw [hsends.rx, hrx, Receiver.takes_bracket hcodes hb], ?_⟩
  constructor
  · constructor <;> simp only [hfs, hdcfg, htc, hbs, hvop]
  · rw [hfs]

end Agreement

/-- Settles O42: `exec_initialise_rx`, with and without the pulse. -/
theorem initialiseConfiguresTheReceiver : Obligations.InitialiseConfiguresTheReceiver := by
  intro s c mode contrast bias tc hs hcodes hwf hrx hcontrast hbias htc
  obtain ⟨t, ht, hrx', hfs, hdcfg⟩ := exec_initialise_rx (mode := mode) hs hcodes (Params.pulseWf_of_wf hwf) hrx
    (checkConfig_ok s.dcfg hcontrast hbias htc)
  rw [← hdcfg] at hrx'
  refine ⟨t, _, ht, hrx', rfl, isVertical_eq_decide mode, rfl, rfl, rfl, rfl, rfl, fun hrst => ?_, fun hrst => ?_, ?_⟩
  · rw [hrst]
    refine ⟨rfl, rfl, rfl, fun a ha => ?_⟩
    exact (Memory.read_fresh c.draws a).trans (if_pos ha)
  · rw [hrst]
    exact ⟨rfl, rfl, rfl⟩
  · refine ⟨⟨?_, ?_, rfl, rfl, rfl⟩, ?_⟩ <;> (rw [hfs]; rfl)

/-- Settles O43: `setPower` sends the mirror's flags, each setter sends them around its write. -/
theorem functionByteRestoresSync : Obligations.FunctionByteRestoresSync := by
  intro s c i hs hcodes hrx hh hsync hi
  rcases hi with ⟨on, rfl⟩ | ⟨n, hn, rfl⟩ | ⟨n, hn, rfl⟩ | ⟨n, hn, rfl⟩
  · obtain ⟨t, ht, hsends, -, hfs, hdcfg⟩ := setPowerResendsTheFunctionByte s on hs hh
    have hrx' : t.rx = .defined { c with pd := !on, v := s.fs.v, h := false } := by
      rw [hsends.rx, hrx]
      exact Receiver.take_fsbyte hcodes c (!on) s.fs.v false
    refine ⟨t, _, ht, hrx', ?_⟩
    constructor
    · constructor <;> simp only [hfs, hdcfg, hh, hsync.tc, hsync.bs, hsync.vop]
    · rw [hfs]
  · exact exec_bracket_restores_sync (d := { s.dcfg with vop := BitVec.ofNat 7 n }) rfl hs hcodes hrx
      (by rw [plan, checkVop_ok hn]) (Receiver.take_vopByte hcodes rfl _) hsync.tc hsync.bs rfl
  · exact exec_bracket_restores_sync (d := { s.dcfg with bias := BitVec.ofNat 3 n }) rfl hs hcodes hrx
      (by rw [plan, checkBias_ok hn]) (Receiver.take_biasByte hcodes rfl _) hsync.tc rfl hsync.vop
  · exact exec_bracket_restores_sync (d := { s.dcfg with tc := BitVec.ofNat 2 n }) rfl hs hcodes hrx
      (by rw [plan, checkTc_ok hn]) (Receiver.take_tcByte hcodes rfl _) rfl hsync.bs hsync.vop

/-- Settles O44: commands of the basic set but function sets, and data, leave the registers; an addressing mode changes
the mirror's `V` alone. -/
theorem syncIsPreserved : Obligations.SyncIsPreserved := by
  intro s c hs hcodes hrx hh hsync
  have hch : c.h = false := hsync.h.trans hh
  obtain ⟨hblank, hallOn, hnormal, hinverse⟩ := hcodes ▸ classify_display
  have display {i : Instr} {b : Byte} {mode : DisplayMode} (hi : i.isCreate = false)
      (hp : plan i s = Plan.plain s [.cmd b]) (hb : classify s.cfg.par.codes false b = .display mode) :
      ∃ t c', exec i s = .next t ∧ t.rx = .defined c' ∧ SyncModV t c' ∧ (Sync s c → Sync t c') := by
    refine exec_preserves_sync (c' := { c with de := mode }) hi hs hrx hsync hp ?_ ⟨rfl, rfl, rfl, rfl, rfl, rfl⟩
    rw [← hch] at hb
    exact congrArg c.execute hb
  have data {i : Instr} {ds : List (List Byte)} (hi : i.isCreate = false)
      (hp : plan i s = Plan.plain s (dataFrames ds)) :
      ∃ t c', exec i s = .next t ∧ t.rx = .defined c' ∧ SyncModV t c' ∧ (Sync s c → Sync t c') :=
    exec_preserves_sync hi hs hrx hsync hp (Receiver.takes_dataFrames ..) (Ctl.sameRegisters_stores ds.flatten c)
  refine ⟨fun i hi => ?_, fun vertical => ?_⟩
  · rcases hi with ⟨column, bank, hcolumn, hbank, rfl⟩ | ⟨on, rfl⟩ | ⟨on, rfl⟩ | ⟨on, rfl⟩ | ⟨on, rfl⟩ | ⟨text, rfl⟩ |
      ⟨bs, rfl⟩ | ⟨bs, rfl⟩
    · refine exec_preserves_sync rfl hs hrx hsync rfl ((Receiver.takes_cursor hcodes hch column bank).trans (dif_pos ?_))
        ⟨rfl, rfl, rfl, rfl, rfl, rfl⟩
      omega
    · cases on
      · exact display rfl rfl hnormal
      · exact display rfl rfl hinverse
    · cases on
      · exact display rfl rfl hnormal
      · exact display rfl rfl hblank
    · cases on
      · exact display rfl rfl hnormal
      · exact display rfl rfl hallOn
    · have hsame := Ctl.sameRegisters_stores (fillBuffers s.cfg.par on).flatten c
      refine exec_preserves_sync (c' := { (fillBuffers s.cfg.par on).flatten.foldl Ctl.store c with x := 0, y := 0 })
        rfl hs hrx hsync rfl ?_ ⟨hsame.pd, hsame.v, hsame.h, hsame.tc, hsame.bs, hsame.vop⟩
      rw [delivered_append, List.foldl_append, Receiver.takes_dataFrames, Receiver.take_data,
        Receiver.takes_home hcodes (hsame.h.trans hch)]
    · exact data rfl rfl
    · exact data rfl rfl
    · exact data rfl rfl
  · have hmod : SyncModV { s with fs := { s.fs with v := vertical }, result := some .ok } c :=
      ⟨hsync.pd, hsync.h, hsync.tc, hsync.bs, hsync.vop⟩
    exact ⟨_, addressingModeIsStoredNotSent s vertical hs.created, hrx, hmod, fun hfull =>
      ⟨fun h => h.v.symm.trans hfull.v, fun h => ⟨hmod, hfull.v.trans h.symm⟩⟩⟩

/-- Settles O45: the pulse changes the receiver alone, the byte 0x21 sets its `H`, which the mirror has at 0, and an address
that names no place makes it unpredictable. -/
theorem syncIsLost : Obligations.SyncIsLost := by
  intro s c hs hcodes hrx hh
  refine ⟨fun hrst hwf => ?_, ?_, fun hch column bank hout => ?_⟩
  · obtain ⟨t, ht, hrx', hfs, hdcfg⟩ := exec_reset_rx hs.created hrst (Params.pulseWf_of_wf hwf)
    refine ⟨t, _, ht, hrx', hfs, hdcfg, rfl, rfl, rfl, rfl, rfl, fun hpd hsync => ?_⟩
    have hagree := hsync.pd
    rw [hfs, hpd] at hagree
    cases hagree
  · have hk : classify s.cfg.par.codes c.h 0x21#8 = .functionSet false false true := by
      rw [hcodes]
      exact classify_fsbyte c.h false false true
    obtain ⟨t, ht, hrx', hfs, -⟩ := sendCmd_rx hs hrx hk
    refine ⟨t, _, ht, hrx', fun hsync => ?_⟩
    have hagree := hsync.h
    rw [hfs, hh] at hagree
    cases hagree
  · obtain ⟨t, ht, hsends, -⟩ := completes_of_plain (i := .setCursor column bank) rfl hs rfl
    refine ⟨t, ht, ?_⟩
    rw [hsends.rx, hrx, Receiver.takes_cursor hcodes hch, dif_neg (by omega)]

end Sys2Proof.Machine

/-! ## The two instruction sets along an operation (R71, R215) -/

namespace Sys2Proof.Machine

section InstructionSets

variable {p : Params} {rx : Receiver} {h h' : Bool} {f : Frame} {fs : List Frame} {b : Byte} {set : CommandSet}
  {sets : List CommandSet} {c c' k : Ctl}

/-! ### The receiver's latch -/

/-- R204: only a function set changes the latches. -/
theorem Ctl.execute_h {i : CtlInstr} (hi : ∀ pd v h, i ≠ .functionSet pd v h) (he : c.execute i = .defined c') :
    c'.h = c.h := by
  cases i with
  | functionSet pd v h => exact absurd rfl (hi pd v h)
  | undefined => cases he
  | setBank y =>
    simp only [Ctl.execute, Ctl.setBank] at he
    split at he <;> cases he
    rfl
  | setColumn x =>
    simp only [Ctl.execute, Ctl.setColumn] at he
    split at he <;> cases he
    rfl
  | nop | display | setVop | setTc | setBias => cases he; rfl

/-- While the receiver is defined it is in this instruction set. -/
def Receiver.Latched (h : Bool) (rx : Receiver) : Prop := ∀ c, rx = .defined c → c.h = h

/-- The frame, delivered, takes a receiver in the set `h` to the set `h'`, or to `Unpredictable`. -/
def Frame.Leads (p : Params) (h : Bool) (f : Frame) (h' : Bool) : Prop :=
  ∀ rx : Receiver, rx.Latched h → (rx.take p ⟨f, true⟩).Latched h'

theorem Frame.leads_data (bs : List Byte) : Frame.Leads p h (.data bs) h := by
  intro rx hrx c' hc'
  cases rx with
  | unpredictable n => cases hc'
  | defined c =>
    cases hc'
    exact (Ctl.sameRegisters_stores bs c).h.trans (hrx c rfl)

/-- R202: a pulse leads to the basic set, from any. -/
theorem Frame.leads_pulse : Frame.Leads p h .resetPulse false := by
  intro rx _ c' hc'
  simp only [Receiver.take_pulse, Receiver.pulsed] at hc'
  split at hc' <;> cases hc'
  rfl

theorem Frame.leads_functionSet (hcodes : p.codes = Codes.reference) (pd v h' : Bool) :
    Frame.Leads p h (.cmd (fsbyte p.codes pd v h')) h' := by
  intro rx _ c' hc'
  cases rx with
  | unpredictable n => cases hc'
  | defined c =>
    rw [Receiver.take_fsbyte hcodes] at hc'
    cases hc'
    rfl

theorem Frame.leads_command (hb : ∀ pd v h', classify p.codes h b ≠ .functionSet pd v h') :
    Frame.Leads p h (.cmd b) h := by
  intro rx hrx c' hc'
  cases rx with
  | unpredictable n => cases hc'
  | defined c =>
    obtain rfl := hrx c rfl
    exact Ctl.execute_h hb hc'

/-! ### Frames sent for given sets -/

/-- Frames that, delivered to a receiver in the set `h`, are decoded as commands of the sets listed, each in a set that
admits it, and lead back to the basic set. -/
inductive SentFor (p : Params) : Bool → List Frame → List CommandSet → Prop
  | nil : SentFor p false [] []
  | other {h h' : Bool} {f : Frame} {fs : List Frame} {sets : List CommandSet} (hf : f.isCommand = false)
      (hnext : Frame.Leads p h f h') (rest : SentFor p h' fs sets) : SentFor p h (f :: fs) sets
  | command {h h' : Bool} {b : Byte} {fs : List Frame} {set : CommandSet} {sets : List CommandSet}
      (hset : ∀ set', (classify p.codes h b).commandSet = some set' → set' = set) (hadmits : set.admits h = true)
      (hnext : Frame.Leads p h (.cmd b) h') (rest : SentFor p h' fs sets) : SentFor p h (.cmd b :: fs) (set :: sets)

/-- They end in the basic set. -/
theorem SentFor.latched (hsent : SentFor p h fs sets) (hrx : rx.Latched h) :
    ((delivered fs).foldl (Receiver.take p) rx).Latched false := by
  induction hsent generalizing rx with
  | nil => exact hrx
  | other _ hnext _ ih => exact ih (hnext rx hrx)
  | command _ _ hnext _ ih => exact ih (hnext rx hrx)

/-- Each command among them that finds the receiver defined is decoded in the set it is sent for. -/
theorem SentFor.decoded (hsent : SentFor p h fs sets) (hrx : rx.Latched h) {before after : List Sent}
    (hfs : delivered fs = before ++ ⟨.cmd b, true⟩ :: after) (hk : before.foldl (Receiver.take p) rx = .defined k) :
    ∃ set, sets[(before.filter (·.frame.isCommand)).length]? = some set ∧ set.admits k.h = true ∧
      ∀ set', (classify p.codes k.h b).commandSet = some set' → set' = set := by
  induction hsent generalizing rx before with
  | nil => cases before <;> cases hfs
  | other hf hnext _ ih =>
    cases before with
    | nil => cases hfs; cases hf
    | cons g before =>
      rw [delivered_cons, List.cons_append] at hfs
      obtain ⟨rfl, hrest⟩ := List.cons.inj hfs
      rw [List.filter_cons_of_neg (by simp [hf])]
      exact ih (hnext rx hrx) hrest hk
  | command hset hadmits hnext _ ih =>
    cases before with
    | nil =>
      cases hfs
      obtain rfl := hrx k hk
      exact ⟨_, rfl, hadmits, hset⟩
    | cons g before =>
      rw [delivered_cons, List.cons_append] at hfs
      obtain ⟨rfl, hrest⟩ := List.cons.inj hfs
      rw [List.filter_cons_of_pos rfl, List.length_cons, List.getElem?_cons_succ]
      exact ih (hnext rx hrx) hrest hk

/-! ### The frames of the operations -/

theorem SentFor.functionSet (hcodes : p.codes = Codes.reference) (pd v : Bool) (rest : SentFor p h' fs sets) :
    SentFor p h (.cmd (fsbyte p.codes pd v h') :: fs) (.either :: sets) := by
  refine .command (fun set' hset' => ?_) rfl (Frame.leads_functionSet hcodes pd v h') rest
  rw [hcodes, classify_fsbyte] at hset'
  cases hset'
  rfl

/-- A command of one set alone, to a receiver in that set. -/
theorem SentFor.own (hset : ∀ set', (classify p.codes h b).commandSet = some set' → set' = set)
    (hadmits : set.admits h = true) (hne : set ≠ .either) (rest : SentFor p h fs sets) :
    SentFor p h (.cmd b :: fs) (set :: sets) := by
  refine .command hset hadmits (Frame.leads_command fun pd v h' hb => hne ?_) rest
  exact (hset .either (by rw [hb]; rfl)).symm

/-- A command of the basic set, to a receiver in it; the byte may be undefined. -/
theorem SentFor.basic (hb : classify p.codes false b = .undefined ∨ (classify p.codes false b).commandSet = some .basic)
    (rest : SentFor p false fs sets) : SentFor p false (.cmd b :: fs) (.basic :: sets) := by
  refine .own (fun set' hset' => ?_) rfl (by decide) rest
  rcases hb with hb | hb <;> rw [hb] at hset' <;> cases hset'
  rfl

/-- A command of the extended set, to a receiver in it. -/
theorem SentFor.extended (hb : (classify p.codes true b).commandSet = some .extended) (rest : SentFor p true fs sets) :
    SentFor p true (.cmd b :: fs) (.extended :: sets) := by
  refine .own (fun set' hset' => ?_) rfl (by decide) rest
  rw [hb] at hset'
  cases hset'
  rfl

theorem SentFor.cursor (hcodes : p.codes = Codes.reference) (column bank : Nat) :
    SentFor p false [.cmd (columnByte p.codes column), .cmd (bankByte p.codes bank)] [.basic, .basic] := by
  refine .basic (.inr ?_) (.basic ?_ .nil)
  · rw [hcodes, classify_columnByte]
    rfl
  · rw [hcodes, classify_bankByte]
    split
    · exact .inr rfl
    · exact .inl rfl

/-- Data frames send no command and leave the latch. -/
theorem SentFor.datas (ds : List (List Byte)) (rest : SentFor p h fs sets) : SentFor p h (dataFrames ds ++ fs) sets := by
  rw [dataFrames]
  induction ds.filter (· ≠ []) with
  | nil => exact rest
  | cons d ds ih => exact .other rfl (Frame.leads_data d) ih

/-- R108: a bracket is a function set, its write and a function set. -/
theorem SentFor.bracket (hcodes : p.codes = Codes.reference) (pd v : Bool)
    (hb : (classify p.codes true b).commandSet = some .extended) :
    SentFor p false [.cmd (fsbyte p.codes pd v true), .cmd b, .cmd (fsbyte p.codes pd v false)]
      [.either, .extended, .either] :=
  .functionSet hcodes pd v (.extended hb (.functionSet hcodes pd v .nil))

/-- R207: the configuration commands are of the extended set. -/
theorem commandSet_vopByte (hcodes : p.codes = Codes.reference) (v : BitVec 7) :
    (classify p.codes true (vopByte p.codes v)).commandSet = some .extended := by
  rw [hcodes, classify_vopByte]
  rfl

theorem commandSet_biasByte (hcodes : p.codes = Codes.reference) (v : BitVec 3) :
    (classify p.codes true (biasByte p.codes v)).commandSet = some .extended := by
  rw [hcodes, classify_biasByte]
  rfl

theorem commandSet_tcByte (hcodes : p.codes = Codes.reference) (v : BitVec 2) :
    (classify p.codes true (tcByte p.codes v)).commandSet = some .extended := by
  rw [hcodes, classify_tcByte]
  rfl

/-- R163 steps 3 to 7: an extended bracket around three writes, a function set and a display command. -/
theorem SentFor.configuration (hcodes : p.codes = Codes.reference) (pd v : Bool) (d : DisplayConfig) :
    SentFor p false [.cmd (fsbyte p.codes pd v true), .cmd (tcByte p.codes d.tc), .cmd (biasByte p.codes d.bias),
      .cmd (vopByte p.codes d.vop), .cmd (fsbyte p.codes pd v false), .cmd (fsbyte p.codes false v false),
      .cmd p.codes.displayNormal] [.either, .extended, .extended, .extended, .either, .either, .basic] := by
  have hnormal : (classify p.codes false p.codes.displayNormal).commandSet = some .basic := by
    rw [hcodes]
    rfl
  exact .functionSet hcodes pd v <| .extended (commandSet_tcByte hcodes d.tc) <|
    .extended (commandSet_biasByte hcodes d.bias) <| .extended (commandSet_vopByte hcodes d.vop) <|
    .functionSet hcodes pd v <| .functionSet hcodes false v <| .basic (.inr hnormal) .nil

/-- R215 for plans: the frames of a semantic operation begun in the basic set are sent for its sets, in their order. -/
theorem plan_sentFor {i : Instr} {s : State} {q : Plan} (hsem : i.semantic = true)
    (hcodes : s.cfg.par.codes = Codes.reference) (hh : s.fs.h = false) (hp : plan i s = .ok q) :
    SentFor s.cfg.par false (q.acts.map Prod.snd) i.commandSets := by
  have plain {frames : List Frame} {sets : List CommandSet} (hsent : SentFor s.cfg.par false frames sets)
      (hp : Plan.plain s frames = .ok q) : SentFor s.cfg.par false (q.acts.map Prod.snd) sets := by
    cases hp
    rwa [plainActs_frames]
  have bracket {d : DisplayConfig} {b : Byte} (hb : (classify s.cfg.par.codes true b).commandSet = some .extended)
      (hp : Plan.bracket s d b = .ok q) :
      SentFor s.cfg.par false (q.acts.map Prod.snd) [.either, .extended, .either] := by
    cases hp
    exact .bracket hcodes s.fs.pd s.fs.v hb
  have display {b : Byte} {mode : DisplayMode} (hb : classify s.cfg.par.codes false b = .display mode) :
      SentFor s.cfg.par false [.cmd b] [.basic] := .basic (.inr (by rw [hb]; rfl)) .nil
  have datas (ds : List (List Byte)) : SentFor s.cfg.par false (dataFrames ds) [] := by simpa using SentFor.datas ds .nil
  obtain ⟨hblank, hallOn, hnormal, hinverse⟩ := hcodes ▸ classify_display
  cases i with
  | setAddressingMode v => cases hp; exact .nil
  | setContrast n =>
    rcases checkVop_cases n with ⟨-, h⟩ | ⟨-, h⟩ <;> simp only [plan, h] at hp
    · exact bracket (commandSet_vopByte hcodes _) hp
    · cases hp
  | setBias n =>
    rcases checkBias_cases n with ⟨-, h⟩ | ⟨-, h⟩ <;> simp only [plan, h] at hp
    · exact bracket (commandSet_biasByte hcodes _) hp
    · cases hp
  | setTemperatureCoefficient n =>
    rcases checkTc_cases n with ⟨-, h⟩ | ⟨-, h⟩ <;> simp only [plan, h] at hp
    · exact bracket (commandSet_tcByte hcodes _) hp
    · cases hp
  | setPower on =>
    cases hp
    rw [hh]
    exact .functionSet hcodes (!on) s.fs.v .nil
  | initialise mode contrast bias tc =>
    cases h : checkConfig contrast bias tc s.dcfg with
    | error e => simp only [plan, h] at hp; cases hp
    | ok d =>
      simp only [plan, h] at hp
      cases hp
      have hcommands := SentFor.configuration hcodes s.fs.pd (isVertical mode) d
      cases hrst : s.cfg.hasRst <;> simp only [Plan.initialisation, hrst]
      · exact hcommands
      · exact .other rfl Frame.leads_pulse hcommands
  | setCursor column bank => exact plain (.cursor hcodes column bank) hp
  | setInverted on =>
    cases on
    · exact plain (display hnormal) hp
    · exact plain (display hinverse) hp
  | setBlanked on =>
    cases on
    · exact plain (display hnormal) hp
    · exact plain (display hblank) hp
  | setTestPattern on =>
    cases on
    · exact plain (display hnormal) hp
    · exact plain (display hallOn) hp
  | reset =>
    refine plain ?_ hp
    cases s.cfg.hasRst
    · exact .nil
    · exact .other rfl Frame.leads_pulse .nil
  | fill on => exact plain (.datas _ (.cursor hcodes 0 0)) hp
  | drawText text => exact plain (datas _) hp
  | rawData bytes => exact plain (datas _) hp
  | writeData bytes => exact plain (datas _) hp
  | create | rawCommand | wireFunctionSet | wireDisplayBlank | wireDisplayAllOn | wireDisplayNormal
  | wireDisplayInverse | wireSetBank | wireSetColumn | wireSetTc | wireSetBias | wireSetVop | wireNop
  | wireDataByte => cases hsem

end InstructionSets

/-- Settles O46: a semantic operation is refused and sends nothing, or sends its whole plan (`plan_sentFor`). -/
theorem semanticOperationsReturnToTheBasicSet : Obligations.SemanticOperationsReturnToTheBasicSet := by
  intro i s t c hsem hcodes hinfallible hh hrx hch h
  have hlatched : s.rx.Latched false := by
    intro c' hc'
    obtain rfl := Receiver.defined.inj (hrx.symm.trans hc')
    exact hch
  obtain ⟨-, ⟨w, n, -, rfl⟩ | ⟨q, hq, he, -⟩ | ⟨_, _, _, _, -, -, -, -, -, -, -, hfallible⟩⟩ :=
    exec_cases (isCreate_of_semantic hsem) h
  · exact ⟨hlatched, fun before after b k hframes _ => by simp at hframes⟩
  · have hsent := plan_sentFor hsem hcodes hh hq
    refine ⟨he.rx ▸ hsent.latched hlatched, fun before after b k hframes hk => ?_⟩
    exact hsent.decoded hlatched (List.append_cancel_left (he.frames.symm.trans hframes)) hk
  · rw [hinfallible] at hfallible
    cases hfallible

/-! ## The block and its receiver (R6, R209) -/

/-- `create` does not read the receiver either. -/
theorem exec_create_withRx {hasBus hasDc hasCs hasRst : Bool} {s t : State}
    (h : exec (.create hasBus hasDc hasCs hasRst) s = .next t) (rx : Receiver) :
    exec (.create hasBus hasDc hasCs hasRst) { s with rx := rx } = .next { t with rx := rx } := by
  rcases create_cases h with ⟨hbound, rfl⟩ | ⟨rfl, rfl, hwf, rfl⟩
  · exact exec_create_unbound hbound hasCs hasRst
  · exact exec_create_wf (s := { s with rx := rx }) hwf hasCs hasRst

/-- Settles O58: two machines that differ in the receiver do the same (`exec_agrees`). -/
theorem blockIgnoresTheReceiver : Obligations.BlockIgnoresTheReceiver := by
  intro i s t rx h
  cases hi : i.isCreate with
  | true =>
    obtain ⟨_, _, _, _, rfl⟩ := Instr.eq_create hi
    exact ⟨rx, exec_create_withRx h rx⟩
  | false =>
    have hagree : Agrees s { s with rx := rx } := ⟨rfl, rfl, rfl, rfl, rfl, rfl, rfl, rfl, rfl⟩
    obtain ⟨t', gs, ht', he, he', ha⟩ := exec_agrees hi hagree (plan_congr i rfl rfl rfl rfl rfl rfl) h
    have hagree' : Agrees { t with rx := t'.rx } t' :=
      ⟨ha.created, ha.fs, ha.dcfg, ha.offered, ha.requests, ha.answers, ha.frames, ha.result, ha.fallible⟩
    have hevents : t'.events = t.events := he'.events.trans he.events.symm
    have hlines : t'.lines = t.lines := he'.lines.trans he.lines.symm
    have hcfg : t'.cfg = t.cfg := he'.cfg.trans he.cfg.symm
    refine ⟨t'.rx, ht'.trans (congrArg _ ?_)⟩
    calc t' = { t' with events := t.events, lines := t.lines, cfg := t.cfg } := by rw [← hevents, ← hlines, ← hcfg]
      _ = { t with rx := t'.rx } := hagree'.eq rfl

end Sys2Proof.Machine

/-! ## The errors (R230 to R237): the new block or none, a refusal without effect, and a transfer that failed -/

namespace Sys2Proof.Machine

section Errors

variable {i : Instr} {s t : State}

/-- R231: `create` sends nothing, and no operand or transfer is what ends it. -/
theorem exec_create_frames_result (hi : i.isCreate = true) (h : exec i s = .next t) :
    t.frames = s.frames ∧ (t.result = some .configurationError ∨ t.result = some .ok) := by
  obtain ⟨_, _, _, _, rfl⟩ := Instr.eq_create hi
  rcases create_cases h with ⟨-, rfl⟩ | ⟨-, -, -, rfl⟩
  · exact ⟨rfl, .inl rfl⟩
  · exact ⟨rfl, .inr rfl⟩

theorem delivered_of_mem {fs : List Frame} {g : Sent} (hg : g ∈ delivered fs) : g.delivered = true := by
  obtain ⟨f, -, rfl⟩ := List.mem_map.1 hg
  rfl

/-- R233: no frame follows a failed one, and a failed frame is what a `TransportError` reports. -/
theorem exec_cuts_at_failure (h : exec i s = .next t) : ∃ gs, t.frames = s.frames ++ gs ∧
    (∀ g ∈ gs.dropLast, g.delivered = true) ∧
    (t.result = some .transportError ↔ ∃ g ∈ gs, g.delivered = false) := by
  cases hi : i.isCreate with
  | true =>
    obtain ⟨hframes, hr⟩ := exec_create_frames_result hi h
    exact ⟨[], by simpa using hframes, by simp, by rcases hr with hr | hr <;> simp [hr]⟩
  | false =>
    obtain ⟨-, ⟨w, n, -, rfl⟩ | ⟨p, -, he, hr, -⟩ | ⟨p, before, a, after, -, -, he, hr, -⟩⟩ := exec_cases hi h
    · exact ⟨[], by simp⟩
    · refine ⟨_, he.frames, fun g hg => delivered_of_mem (List.mem_of_mem_dropLast hg), ?_⟩
      refine iff_of_false (by simp [hr]) ?_
      rintro ⟨g, hg, hfailed⟩
      exact Bool.false_ne_true (hfailed.symm.trans (delivered_of_mem hg))
    · refine ⟨_, he.frames, fun g hg => ?_, iff_of_true hr ⟨⟨a.2, false⟩, by simp⟩⟩
      rw [List.dropLast_concat] at hg
      exact delivered_of_mem hg

/-- What a `TransportError` says of the instruction: it carried out its plan up to a frame, not a pulse, that failed. -/
theorem exec_transportError (h : exec i s = .next t) (hr : t.result = some .transportError) :
    i.isCreate = false ∧ s.created = true ∧ ∃ p before a after, plan i s = .ok p ∧ p.acts = before ++ a :: after ∧
      Emits s t (delivered (before.map Prod.snd) ++ [⟨a.2, false⟩]) ∧ a.2 ≠ .resetPulse ∧
      t.fs = abandoned p.clearsPd a.1 ∧ t.dcfg = p.dcfg := by
  cases hi : i.isCreate with
  | true => rcases (exec_create_frames_result hi h).2 with hr' | hr' <;> rw [hr'] at hr <;> cases hr
  | false =>
    obtain ⟨hs, ⟨w, n, -, rfl⟩ | ⟨p, -, -, hr', -⟩ | ⟨p, before, a, after, hp, hacts, he, -, hfs, hdcfg, hpulse, -⟩⟩ :=
      exec_cases hi h
    · cases hr
    · rw [hr'] at hr; cases hr
    · exact ⟨rfl, hs, p, before, a, after, hp, hacts, he, hpulse, hfs, hdcfg⟩

/-- R233: frames of which the last failed leave the receiver unpredictable. -/
theorem Emits.rx_of_failed {fs : List Frame} {f : Frame} (h : Emits s t (delivered fs ++ [⟨f, false⟩]))
    (hf : f ≠ .resetPulse) : ∃ n, t.rx = .unpredictable n := by
  rw [h.rx, List.foldl_append]
  exact ⟨_, Receiver.take_failed s.cfg.par _ hf⟩

end Errors

/-- Settles O53: of the three ends in `exec_cases` only the refusal has this result, and `create` never has. -/
theorem outOfRangeHasNoEffect : Obligations.OutOfRangeHasNoEffect := by
  intro i s t which value h hr
  cases hi : i.isCreate with
  | true => rcases (exec_create_frames_result hi h).2 with hr' | hr' <;> rw [hr'] at hr <;> cases hr
  | false =>
    obtain ⟨-, ⟨w, n, -, rfl⟩ | ⟨p, -, -, hr', -⟩ | ⟨p, before, a, after, -, -, -, hr', -⟩⟩ := exec_cases hi h
    · rw [← hr]
    · rw [hr'] at hr; cases hr
    · rw [hr'] at hr; cases hr

/-- Settles O54: the failed run is a plan cut short (`exec_transportError`), the other run is the same plan carried out
(`exec_ready`), and a plan begun at a boundary leaves the same mirror wherever it is cut (`plan_flags`). -/
theorem transportErrorLeavesTheIntendedMirror : Obligations.TransportErrorLeavesTheIntendedMirror := by
  refine ⟨fun i s t gs h hframes => ?_, fun i s t hh h hr => ?_⟩
  · obtain ⟨gs', hframes', hcut⟩ := exec_cuts_at_failure h
    obtain rfl : gs = gs' := List.append_cancel_left (hframes.symm.trans hframes')
    exact hcut
  · obtain ⟨hi, hs, p, before, a, after, hp, hacts, he, hpulse, hfs, hdcfg⟩ := exec_transportError h hr
    have hready : Ready s.infallible := ⟨hs, rfl⟩
    obtain ⟨u, hu, hsends, hok, hufs, hudcfg⟩ := exec_ready hi hready ((plan_infallible i s).trans hp)
    have hmirror : t.fs = u.fs := by
      rw [hfs, hufs]
      exact (plan_flags hi hh hp).2 a (by simp [hacts])
    have huframes : u.frames = s.frames ++ delivered (before.map Prod.snd ++ a.2 :: after.map Prod.snd) := by
      rw [hsends.frames, hacts, List.map_append, List.map_cons]
      rfl
    have htframes : t.frames = s.frames ++ delivered (before.map Prod.snd) ++ [⟨a.2, false⟩] := by
      rw [he.frames, List.append_assoc]
    exact ⟨he.rx_of_failed hpulse, congrArg FunctionState.h hfs, u, before.map Prod.snd, a.2, after.map Prod.snd, hu, hok,
      hmirror, hdcfg.trans hudcfg.symm, huframes, htframes, he.events⟩

/-- Settles O12: a clause for each way `create` can go, none of which asks whether a block exists. -/
theorem createLeavesTheNewBlockOrNone : Obligations.CreateLeavesTheNewBlockOrNone := by
  refine ⟨fun s hasBus hasDc hasCs hasRst hbound => exec_create_unbound hbound hasCs hasRst, fun s hasCs hasRst => ?_⟩
  cases hwf : s.offered.wf with
  | true => exact exec_create_wf hwf hasCs hasRst
  | false => exact exec_create_illFormed hwf hasCs hasRst

end Sys2Proof.Machine
